-- ==== Sys2Proof/Word.lean ====
section
/-! DEFINITION. The words of the hardware: bytes, nibbles, 16-bit durations (rules R8, R29). -/

namespace Sys2Proof

/-- A byte (rule R8): bit 7 is the most significant bit, bit 0 the least. -/
abbrev Byte := BitVec 8

/-- A nibble, `b[7:4]` or `b[3:0]` of a byte (rule R8). -/
abbrev Nibble := BitVec 4

/-- A duration in microseconds as `PB` holds it: 16 bits, unsigned (rule R29). -/
abbrev Duration := BitVec 16

/-- One pair of the pulse buffer: mark, then space (rules R12, R29). -/
structure PulsePair where
  mark  : Duration
  space : Duration
deriving DecidableEq, Repr, Inhabited

/-- One pair the Receiver measured (rule R32). The spec gives a measured duration no width, so it is a
number of microseconds without a bound (notes/assumptions/12.md). -/
structure MeasuredPair where
  mark  : Nat
  space : Nat
deriving DecidableEq, Repr, Inhabited

/-- A duration of `PB` read as a number of microseconds, as the Receiver would measure it exactly. -/
def PulsePair.measured (p : PulsePair) : MeasuredPair := ⟨p.mark.toNat, p.space.toNat⟩

end Sys2Proof
end

