-- ==== Sys2Proof/Config.lean ====
section
/-! DEFINITION. What one instance of the hardware fixes: the enumerations of the thermostat state (R11), the
constants the source fixes (R5), the parameters it leaves open (R6), the reference set P0, and the free values
(constants with no body) for what the spec calls unspecified (R35, R36, R143). -/

namespace Sys2Proof

/-- Operating mode, rule R11: six recognised values and the two unrecognised encodings 6 and 7. -/
inductive Mode where
  | off | heat | cool | fanOnly | dry | auto | unrecognised6 | unrecognised7
deriving DecidableEq, Repr, Inhabited

/-- Fan speed, rule R11: seven recognised values and the unrecognised encoding 7. -/
inductive Fan where
  | auto | quiet | level1 | level2 | level3 | level4 | level5 | unrecognised7
deriving DecidableEq, Repr, Inhabited

/-- Swing mode, rule R11: four recognised values and the unrecognised encodings 4 to 7. -/
inductive Swing where
  | off | vertical | horizontal | both | unrecognised4 | unrecognised5 | unrecognised6 | unrecognised7
deriving DecidableEq, Repr, Inhabited

/-- The four thermostat fields, held twice: as the outward state `OUT` and as the snapshot `SNAP` (R21, R22). -/
structure Thermo where
  mode  : Mode
  fan   : Fan
  temp  : Byte
  swing : Swing
deriving DecidableEq, Repr, Inhabited

/-- One variant's four swing codes, 4 bits each (R6, R27). -/
structure SwingCodes where
  both       : Nibble
  vertical   : Nibble
  horizontal : Nibble
  off        : Nibble
deriving DecidableEq, Repr, Inhabited

/-- `MODE_CODE` of the six recognised modes (R6). -/
structure ModeCodes where
  off     : Nibble
  heat    : Nibble
  cool    : Nibble
  fanOnly : Nibble
  dry     : Nibble
  auto    : Nibble
deriving DecidableEq, Repr, Inhabited

/-- `FAN_CODE` of the seven recognised fan speeds (R6). -/
structure FanCodes where
  auto   : Nibble
  quiet  : Nibble
  level1 : Nibble
  level2 : Nibble
  level3 : Nibble
  level4 : Nibble
  level5 : Nibble
deriving DecidableEq, Repr, Inhabited

/-- One window of a tolerance: measured durations from `lo` up to `hi`, or without an upper end, are near `expected`. -/
structure Window where
  expected : Nat
  lo       : Nat
  hi       : Option Nat
deriving DecidableEq, Repr, Inhabited

/-- The predicate `near` of R6 as data: a number names each predicate that no list of windows writes out
(notes/assumptions/11.md). -/
inductive Tolerance where
  /-- Equality, widened by these windows. -/
  | windows (ws : List Window)
  /-- Any predicate that R7(f) admits: `Config.freeNear n`, read by `admittedNear`. -/
  | admitted (n : Nat)
deriving DecidableEq, Repr, Inhabited

/-- The parameters whose value the source does not give (R6). They are constants of an instance (R34): `State`
holds them in a field that no step writes, so that a statement about every state quantifies over them. `N_VARIANTS`
is the length of `swingCodes`; `tolerance` is `near`. -/
structure Params where
  header0    : Byte
  header1    : Byte
  tempMin    : Nat
  tempMax    : Nat
  modeCode   : ModeCodes
  fanCode    : FanCodes
  swingCodes : List SwingCodes
  tolerance  : Tolerance
  snapReset  : Thermo
deriving DecidableEq, Repr, Inhabited

namespace Config

/-! ### The constants of rule R5 -/

def maxFrame : Nat := 14
def minFrame : Nat := 6
def maxData : Nat := 8
def cmdDefault : Byte := 0x01
def cmdMotion : Byte := 0x21
def cmdTimer : Byte := 0x03
def cmdPower : Byte := 0x09
def cmdComfortSleep : Byte := 0x0B
def lenDefault : Nat := 3
def lenMotion : Nat := 1
def headerMark : Nat := 4380
def headerSpace : Nat := 4370
def bitMark : Nat := 540
def zeroSpace : Nat := 540
def oneSpace : Nat := 1620
def gapSpace : Nat := 5480
def carrierHz : Nat := 38000
def repeats : Nat := 2
def fanOnlyTemp : Nat := 22

/-- Pairs the pulse buffer holds: `REPEATS * (8 * MAX_FRAME + 2)` (R29, R89). -/
def pbSize : Nat := repeats * (8 * maxFrame + 2)

/-! ### Free values: constants with no body, so that no proof can see a value (notes/assumptions/3.md, 4.md) -/

/-- What `OUT` holds after the `n`-th draw, at a reset: any value (R35, R36). -/
opaque freeThermo : Nat → Thermo

/-- What `CFG.variant` holds after a reset: unspecified (R20, R35). -/
opaque freeVariant : Nat → Nat

/-- What `SWC` holds after a reset: unspecified (R20, R35). -/
opaque freeSwingCodes : Nat → SwingCodes

/-- What pair `k` of `PB` holds after a reset: unspecified (R20, R35). -/
opaque freePulse : Nat → Nat → PulsePair

/-- What byte `a` of `FB` holds after a failed decode: any value (R143, U4). -/
opaque freeFrameByte : Nat → Nat → Byte

/-- Where the capture cursor stands after a failed or an abandoned decode, before it is brought into range
(R143, U4, R270). -/
opaque freeCursor : Nat → Nat

/-- The `n`-th predicate on a measured and an expected duration: any predicate (R6, U1). -/
opaque freeNear : Nat → Nat → Nat → Bool

/-- `SNAP_RESET` of the reference instance: the source gives no value and no claim may assume one (R271). -/
opaque snapReset : Thermo

/-! ### The reference parameter set P0 (R6), the instance that `State.reset` starts (notes/assumptions/2.md) -/

/-- The swing-code table that `95_test_vectors.md` labels illustrative: two variants. -/
def illustrativeSwingCodes : List SwingCodes :=
  [{ both := 0x3, vertical := 0x1, horizontal := 0x2, off := 0x0 },
   { both := 0xC, vertical := 0x4, horizontal := 0x8, off := 0x0 }]

/-- P0 of rule R6; PRESUMED but for `TEMP_MIN`, which is the source's own example. -/
def p0 : Params where
  header0    := 0xF2
  header1    := 0x0D
  tempMin    := 17
  tempMax    := 30
  modeCode   := { off := 0x7, heat := 0x3, cool := 0x1, fanOnly := 0x4, dry := 0x2, auto := 0x0 }
  fanCode    := { auto := 0x0, quiet := 0x2, level1 := 0x4, level2 := 0x6, level3 := 0x8, level4 := 0xA,
                  level5 := 0xC }
  swingCodes := illustrativeSwingCodes
  tolerance  := .windows []
  snapReset  := snapReset

end Config

end Sys2Proof
end

