-- ==== Sys2Proof/Syntax.lean ====
section
/-! DEFINITION. The instructions: one constructor per row of spec/opcode_table.json. Three formats stand there:
OP (the operation requests of R90), FRAME (the frames a receiver is sent, told apart by the command byte, R82) and
PULSE (the four symbols of R87). -/

namespace Sys2Proof

/-- What a frame carries beside its command byte, its length and its two checksums, which follow from these (R70).
The length is not bound to the command: a frame of any command may carry 0 to 8 payload bytes (R206). -/
structure FrameBody where
  header0 : Byte
  header1 : Byte
  payload : List Byte
deriving DecidableEq, Repr, Inhabited

/-- One constructor per row of the opcode table. -/
inductive Instr where
  /-- `SETUP variant`, op 0x0 (R228). -/
  | setup (variant : Nat)
  /-- `FINALIZE dl`, op 0x1 (R111). -/
  | finalize (dl : BitVec 4)
  /-- `VALIDATE_HEADER`, op 0x2 (R112). -/
  | validateHeader
  /-- `VALIDATE_PAYLOAD len`, op 0x3 (R113). -/
  | validatePayload (len : BitVec 4)
  /-- `BUILD_DEFAULT`, op 0x4 (R160). -/
  | buildDefault
  /-- `BUILD_MOTION`, op 0x5 (R166). -/
  | buildMotion
  /-- `ENCODE`, op 0x6 (R131). -/
  | encode
  /-- `DECODE`, op 0x7 (R136). -/
  | decode
  /-- `MAP_FRAME`, op 0x8 (R200). -/
  | mapFrame
  /-- `TRANSMIT_STATE`, op 0x9 (R180). -/
  | transmitState
  /-- `RECEIVE`, op 0xA (R205). -/
  | receive
  /-- Reserved op 0xB (R255). -/
  | reservedOpB
  /-- Reserved op 0xC (R255). -/
  | reservedOpC
  /-- Reserved op 0xD (R255). -/
  | reservedOpD
  /-- Reserved op 0xE (R255). -/
  | reservedOpE
  /-- Reserved op 0xF (R255). -/
  | reservedOpF
  /-- A received frame with command 0x01 (R77, R202). -/
  | defaultFrame (body : FrameBody)
  /-- A received frame with command 0x21 (R81, R201). -/
  | motionFrame (body : FrameBody)
  /-- A received frame with command 0x03 (R83). -/
  | timerFrame (body : FrameBody)
  /-- A received frame with command 0x09 (R83). -/
  | powerFrame (body : FrameBody)
  /-- A received frame with command 0x0B (R83). -/
  | comfortSleepFrame (body : FrameBody)
  /-- A received frame with any other command (R84). -/
  | otherFrame (command : Byte) (body : FrameBody)
  /-- The symbol `HDR` (R87). -/
  | hdr
  /-- The symbol `BIT0` (R87). -/
  | bit0
  /-- The symbol `BIT1` (R87). -/
  | bit1
  /-- The symbol `TRAIL` (R87). -/
  | trail
deriving DecidableEq, Repr, Inhabited

/-- A word as it reaches the machine, one alternative for each interface the spec gives a format for: the host's
request port (R226), a frame on its way to the Receiver (R70), a pair under the Receiver's primitive (R222). -/
inductive PortWord where
  /-- The request port: the 4-bit `op` and the number on the operand lines, whose width the spec leaves open (R90, R226,
  notes/assumptions/6.md). -/
  | request (op : BitVec 4) (operand : Nat)
  /-- The bytes of a frame, offset 0 first (R50). -/
  | frame (bytes : List Byte)
  /-- One pair (mark, space) (R87). -/
  | pulse (pair : PulsePair)
deriving DecidableEq, Repr, Inhabited

end Sys2Proof
end

