-- ==== Sys2Proof/WellFormed.lean ====
section
/-! DEFINITION. Which instructions an encoding exists for, and which parameter assignments the rules are stated for
(R7). -/

namespace Sys2Proof

/-- The payload of a frame fits `MAX_DATA` (R5, R71). -/
def FrameBody.wellFormed (b : FrameBody) : Bool := b.payload.length ≤ Config.maxData

/-- The five command codes that have a row of their own (R82). -/
def namedCommands : List Byte :=
  [Config.cmdDefault, Config.cmdMotion, Config.cmdTimer, Config.cmdPower, Config.cmdComfortSleep]

/-- An instruction the encodings can carry: a frame's payload is at most 8 bytes, and a frame filed under
OTHER_COMMAND has no command code of another row. -/
def Instr.wellFormed : Instr → Bool
  | .setup _ | .finalize _ | .validateHeader | .validatePayload _ | .buildDefault | .buildMotion | .encode
  | .decode | .mapFrame | .transmitState | .receive | .reservedOpB | .reservedOpC | .reservedOpD | .reservedOpE
  | .reservedOpF | .hdr | .bit0 | .bit1 | .trail => true
  | .defaultFrame b | .motionFrame b | .timerFrame b | .powerFrame b | .comfortSleepFrame b => b.wellFormed
  | .otherFrame c b => !namedCommands.contains c && b.wellFormed

/-- R7(a): the temperature bounds are in order and fit the four-bit field. -/
def Params.boundsOk (p : Params) : Bool := p.tempMin ≤ p.tempMax && p.tempMax - p.tempMin ≤ 15

/-- R7(b): 22 degrees has a representation. -/
def Params.fanOnlyOk (p : Params) : Bool :=
  p.tempMin ≤ Config.fanOnlyTemp && Config.fanOnlyTemp ≤ p.tempMin + 15

/-- The six mode codes, in the order the tests name them. -/
def ModeCodes.toList (c : ModeCodes) : List Nibble := [c.off, c.heat, c.cool, c.fanOnly, c.dry, c.auto]

/-- The seven fan codes, in rank order. -/
def FanCodes.toList (c : FanCodes) : List Nibble :=
  [c.auto, c.quiet, c.level1, c.level2, c.level3, c.level4, c.level5]

/-- The four swing codes of a variant. -/
def SwingCodes.toList (c : SwingCodes) : List Nibble := [c.both, c.vertical, c.horizontal, c.off]

/-- R7(c): the mode codes are pairwise distinct. -/
def Params.modesOk (p : Params) : Bool := decide p.modeCode.toList.Nodup

/-- R7(d): the fan codes are pairwise distinct. -/
def Params.fansOk (p : Params) : Bool := decide p.fanCode.toList.Nodup

/-- R7(e): each variant's codes are pairwise distinct. -/
def Params.swingsOk (p : Params) : Bool := p.swingCodes.all fun c => decide c.toList.Nodup

/-- `N_VARIANTS` is a positive integer (R6). -/
def Params.variantsOk (p : Params) : Bool := 0 < p.swingCodes.length

/-- The measured duration lies in the window. -/
def Window.holds (w : Window) (measured : Nat) : Bool :=
  w.lo ≤ measured && (match w.hi with | some hi => measured ≤ hi | none => true)

/-- The windows for `e`, `e` itself among them. -/
def windowsFor (ws : List Window) (e : Nat) : List Window := ⟨e, e, some e⟩ :: ws.filter fun w => w.expected == e

/-- Two windows share no measured duration; if they share one, they share the greater of their lower ends. -/
def Window.disjoint (a b : Window) : Bool := !(a.holds (max a.lo b.lo) && b.holds (max a.lo b.lo))

/-- R7(f), its second half: no space is near both `ONE_SPACE` and `ZERO_SPACE`. (Its first half, `near(x, x)`, holds of
every tolerance, and `admittedNear` meets both.) -/
def Params.nearOk (p : Params) : Bool :=
  match p.tolerance with
  | .windows ws =>
    (windowsFor ws Config.oneSpace).all fun a => (windowsFor ws Config.zeroSpace).all fun b => a.disjoint b
  | .admitted _ => true

/-- A well-formed parameter assignment, rule R7. -/
def Params.wellFormed (p : Params) : Bool :=
  p.boundsOk && p.fanOnlyOk && p.modesOk && p.fansOk && p.swingsOk && p.variantsOk && p.nearOk

end Sys2Proof
end

