-- ==== Sys2Proof/Decode.lean ====
section
/-! DEFINITION. The decoder, total on every word of the three interfaces and rejecting by name, the encoder written
from the same tables (R70, R77, R81, R87, R90), and the host's view of a table row as a word. -/

namespace Sys2Proof

/-- Why a word is no instruction. -/
inductive DecodeError where
  /-- Fewer than the six bytes of a minimum frame (R71). -/
  | frameTooShort
  /-- `checksum_1` does not match (R74). -/
  | headerChecksum
  /-- `data_length` exceeds 8 (R71). -/
  | lengthTooLong
  /-- The number of bytes is not `6 + data_length` (R71). -/
  | wrongByteCount
  /-- `checksum_2` does not match (R76). -/
  | payloadChecksum
  /-- A pair that is none of the four symbols (R87). -/
  | notASymbol
deriving DecidableEq, Repr

/-! ### Checksums over byte lists -/

/-- Exclusive or of a list of bytes, from 0x00 (R110). -/
def xorAll (bytes : List Byte) : Byte := bytes.foldl (· ^^^ ·) 0

/-! ### The pulse symbols (R87) -/

def symbolHdr : PulsePair := ⟨BitVec.ofNat 16 Config.headerMark, BitVec.ofNat 16 Config.headerSpace⟩
def symbolBit0 : PulsePair := ⟨BitVec.ofNat 16 Config.bitMark, BitVec.ofNat 16 Config.zeroSpace⟩
def symbolBit1 : PulsePair := ⟨BitVec.ofNat 16 Config.bitMark, BitVec.ofNat 16 Config.oneSpace⟩
def symbolTrail : PulsePair := ⟨BitVec.ofNat 16 Config.bitMark, BitVec.ofNat 16 Config.gapSpace⟩

/-! ### Decoding -/

/-- An operation request: the table of R90. Of the operand an operation reads what its row names, `variant` the
whole number and `dl` and `len` its low four bits; the others read none of it (notes/assumptions/6.md). -/
def decodeRequest (op : BitVec 4) (operand : Nat) : Instr :=
  match op.toNat with
  | 0x0 => .setup operand
  | 0x1 => .finalize (BitVec.ofNat 4 operand)
  | 0x2 => .validateHeader
  | 0x3 => .validatePayload (BitVec.ofNat 4 operand)
  | 0x4 => .buildDefault
  | 0x5 => .buildMotion
  | 0x6 => .encode
  | 0x7 => .decode
  | 0x8 => .mapFrame
  | 0x9 => .transmitState
  | 0xA => .receive
  | 0xB => .reservedOpB
  | 0xC => .reservedOpC
  | 0xD => .reservedOpD
  | 0xE => .reservedOpE
  | _ => .reservedOpF

/-- The class of a frame by its command byte (R82). -/
def frameOfCommand (command : Byte) (body : FrameBody) : Instr :=
  if command = Config.cmdDefault then .defaultFrame body
  else if command = Config.cmdMotion then .motionFrame body
  else if command = Config.cmdTimer then .timerFrame body
  else if command = Config.cmdPower then .powerFrame body
  else if command = Config.cmdComfortSleep then .comfortSleepFrame body
  else .otherFrame command body

/-- A frame of bytes, by the layout of R70; the checks stand in the order of R248. -/
def decodeFrame : List Byte → Except DecodeError Instr
  | h0 :: h1 :: n :: c1 :: command :: rest =>
    if c1 ≠ h0 ^^^ h1 ^^^ n then .error .headerChecksum
    else if Config.maxData < n.toNat then .error .lengthTooLong
    else if rest.length ≠ n.toNat + 1 then .error .wrongByteCount
    else if rest.getLastD 0 ≠ xorAll (command :: rest.dropLast) then .error .payloadChecksum
    else .ok (frameOfCommand command ⟨h0, h1, rest.dropLast⟩)
  | _ => .error .frameTooShort

/-- A pair, by its nominal durations (R87). The Receiver's tolerance is applied to what was measured, not to the
word that names a symbol. -/
def decodePulse (pair : PulsePair) : Except DecodeError Instr :=
  if pair = symbolHdr then .ok .hdr
  else if pair = symbolBit0 then .ok .bit0
  else if pair = symbolBit1 then .ok .bit1
  else if pair = symbolTrail then .ok .trail
  else .error .notASymbol

/-- The decoder. -/
def decode : PortWord → Except DecodeError Instr
  | .request op operand => .ok (decodeRequest op operand)
  | .frame bytes => decodeFrame bytes
  | .pulse pair => decodePulse pair

/-! ### Encoding -/

/-- The bytes of a frame: header, length, checksum_1, command, payload, checksum_2 (R70, R74, R76). -/
def frameBytes (command : Byte) (body : FrameBody) : List Byte :=
  let n := BitVec.ofNat 8 body.payload.length
  [body.header0, body.header1, n, body.header0 ^^^ body.header1 ^^^ n, command] ++ body.payload
    ++ [xorAll (command :: body.payload)]

/-- The words of an instruction. -/
def encode : Instr → PortWord
  | .setup variant => .request 0x0 variant
  | .finalize dl => .request 0x1 dl.toNat
  | .validateHeader => .request 0x2 0
  | .validatePayload len => .request 0x3 len.toNat
  | .buildDefault => .request 0x4 0
  | .buildMotion => .request 0x5 0
  | .encode => .request 0x6 0
  | .decode => .request 0x7 0
  | .mapFrame => .request 0x8 0
  | .transmitState => .request 0x9 0
  | .receive => .request 0xA 0
  | .reservedOpB => .request 0xB 0
  | .reservedOpC => .request 0xC 0
  | .reservedOpD => .request 0xD 0
  | .reservedOpE => .request 0xE 0
  | .reservedOpF => .request 0xF 0
  | .defaultFrame b => .frame (frameBytes Config.cmdDefault b)
  | .motionFrame b => .frame (frameBytes Config.cmdMotion b)
  | .timerFrame b => .frame (frameBytes Config.cmdTimer b)
  | .powerFrame b => .frame (frameBytes Config.cmdPower b)
  | .comfortSleepFrame b => .frame (frameBytes Config.cmdComfortSleep b)
  | .otherFrame command b => .frame (frameBytes command b)
  | .hdr => .pulse symbolHdr
  | .bit0 => .pulse symbolBit0
  | .bit1 => .pulse symbolBit1
  | .trail => .pulse symbolTrail

/-! ### A row of the opcode table as a word -/

/-- A frame of the reference instance with command byte `command` and `n` payload bytes of zeros. -/
def frameOfZeros (command : Byte) (n : Nat) : PortWord :=
  .frame (frameBytes command ⟨Config.p0.header0, Config.p0.header1, List.replicate n 0⟩)

/-- The word whose bits the opcode table numbers as `w`. The table's three formats share its numbers; the length
tells them apart as far as it can. A request is one or two bytes, `op` in bits 3:0 of the first and the operand in
the second. A pair is four bytes, mark then space. A frame is longer, and the table numbers only its command byte,
bits 7:0. A word of one or two bytes whose bits 7:4 are not zero is no request and is read as a command byte
(notes/assumptions/7.md). -/
def tableWord (nbits w : Nat) : PortWord :=
  if nbits ≤ 16 then
    if w % 256 < 16 then .request (BitVec.ofNat 4 w) (w / 256)
    else frameOfZeros (BitVec.ofNat 8 w) 0
  else if nbits ≤ 32 then .pulse ⟨BitVec.ofNat 16 w, BitVec.ofNat 16 (w / 65536)⟩
  else frameOfZeros (BitVec.ofNat 8 w) (min Config.maxData (nbits / 8 - Config.minFrame))

/-- The instruction the decoder reads from a table row's word. -/
def decodeTableWord (nbits w : Nat) : Option Instr := (decode (tableWord nbits w)).toOption

end Sys2Proof
end

