-- ==== Sys2Proof/Machine/State.lean ====
section
/-! DEFINITION. The state of the machine: every element of rule R20, the Receiver's capture and cursor (R32), the
observation logs (R33), and what the model adds for itself. Plain data throughout. -/

namespace Sys2Proof.Machine

/-- The frame buffer `FB` as a list of cells in canonical form: offsets rising, and no cell that holds 0x00, which is
what an offset without a cell reads as (R28, R36). -/
abbrev Memory := List Host.Cell

/-- `DSTAT.cause` (R240); the codes 5 to 7 are unused. -/
inductive Cause where
  /-- `E_NONE`, code 0. -/
  | none
  /-- `E_TIMING`, code 1 (R241). -/
  | timing
  /-- `E_HDRSUM`, code 2 (R242). -/
  | headerSum
  /-- `E_LENGTH`, code 3 (R243). -/
  | length
  /-- `E_PAYSUM`, code 4 (R244). -/
  | payloadSum
deriving DecidableEq, Repr, Inhabited

/-- `DSTAT`: the Boolean result and its cause (R20, R31). -/
structure Dstat where
  ok    : Bool
  cause : Cause
deriving DecidableEq, Repr, Inhabited

/-- `CFG`: whether `SETUP` has run, and the model variant, a register wide enough for `N_VARIANTS` values (R20, R26). -/
structure Cfg where
  valid   : Bool
  variant : Nat
deriving DecidableEq, Repr, Inhabited

/-- One entry of `TXLOG`: the carrier and the pairs of one `Transmit` call (R33, R187). -/
structure Transmission where
  hz    : Nat
  pairs : List PulsePair
deriving DecidableEq, Repr, Inhabited

/-- What a collaborator sees, in the order it happens (R33, R55): a `Transmit` call, or a `Publish` call with the four
`OUT` fields at that moment. -/
inductive Event where
  | transmit (t : Transmission)
  | publish (out : Thermo)
deriving DecidableEq, Repr, Inhabited

/-- Why a request was refused (R255). A refused request completes and changes nothing; the mark is the model's. -/
inductive RefusalMark where
  /-- (a) `op` 0xB to 0xF. -/
  | reservedOp
  /-- (b) an operation other than `SETUP` while `CFG.valid` = 0. -/
  | notSetUp
  /-- (c) a second `SETUP`. -/
  | alreadySetUp
  /-- (c) `variant >= N_VARIANTS`. -/
  | noSuchVariant
  /-- (d) `FINALIZE` with `dl > 8`. -/
  | dataLengthTooLong
  /-- (e) `VALIDATE_PAYLOAD` with `len` outside 6 .. 14. -/
  | noSuchFrameLength
  /-- (f) `ENCODE` or `MAP_FRAME` while `FB` holds no frame. -/
  | noFrame
  /-- A pair put to the Receiver that is none of the four symbols: the block asks for no such pair. -/
  | notASymbol
  /-- A request, a write of `OUT` or a new capture while a `Transmit` is blocking inside TRANSMIT_STATE (U8, R280). -/
  | operationInProgress
deriving DecidableEq, Repr, Inhabited

/-- The two calls a transmit cycle can make (R181). -/
inductive TransmitCall where
  /-- Step 1's: the default frame. -/
  | defaultFrame
  /-- Step 2's: the motion frame. -/
  | motionFrame
deriving DecidableEq, Repr, Inhabited

/-- What the outside world does next, between operations or while a `Transmit` blocks one (R91, R230). -/
inductive HostMove where
  /-- A word of one of the three interfaces. -/
  | word (w : PortWord)
  /-- `HOST.SET`: the named `OUT` fields, in the encodings of R11; an unnamed field keeps its value. -/
  | set (mode fan : Option (BitVec 3)) (temp : Option Byte) (swing : Option (BitVec 3))
  /-- `HOST.CAPTURE`: the Receiver is given a new capture and its cursor starts at 0. -/
  | capture (pairs : List MeasuredPair)
  /-- `RESET` while no operation is in progress (R270). -/
  | reset
  /-- `RESET` that arrives during the operation `op` and abandons it (R270). -/
  | resetDuring (op : BitVec 4)
  /-- From here on the Transmitter completes this many calls, the one in which a cycle waits among them, or, for `none`,
  every call (R221, R282). -/
  | transmitter (calls : Option Nat)
deriving DecidableEq, Repr, Inhabited

/-- Why the machine stops for good: never. A failed decode is a result (R249), and a cycle whose `Transmit` never
completes is a run that is not final (R282, U3): the state waits, `State.waiting`. -/
inductive Fault where
deriving DecidableEq, Repr

/-- Why the machine has no meaning for what it is given. -/
inductive Refusal where
  /-- An instruction that has no meaning yet. Raised by an arm of `exec`. Safe. -/
  | notModelled (mnemonic : String)
  /-- The parameter assignment is not well-formed, and the rules are stated for well-formed ones only (R7).
  Raised by `step`. Safe. -/
  | illFormedParameters
deriving DecidableEq, Repr, Inhabited

/-- The whole state. -/
structure State where
  /-- The instance's parameters: constants, which no step writes (R34). -/
  params : Params
  /-- `OUT`, the outward state (R21). -/
  out : Thermo
  /-- `SNAP`, the last-transmitted snapshot (R22). -/
  snap : Thermo
  /-- `CFG` (R26). -/
  cfg : Cfg
  /-- `SWC`, the variant's swing codes (R27). -/
  swc : SwingCodes
  /-- `FB`, the frame buffer (R28). -/
  fb : Memory
  /-- `FLEN`, the length of the frame in `FB`, 0 for none (R28). -/
  flen : BitVec 4
  /-- `PB`, the 228 pairs of the pulse buffer (R29). -/
  pb : List PulsePair
  /-- `PLEN`, the number of valid pairs in `PB` (R29). -/
  plen : BitVec 8
  /-- `DSTAT` (R31). -/
  dstat : Dstat
  /-- `CAP`, the Receiver's capture (R32). -/
  cap : List MeasuredPair
  /-- `CUR`, the Receiver's cursor (R32). -/
  cur : Nat
  /-- `TXLOG` and `PUBLOG` as one list in order, oldest first (R33, R55). -/
  log : List Event
  /-- How many more calls the Transmitter completes before it stops; `none` for every call (R221, R282). -/
  txCalls : Option Nat
  /-- The `Transmit` call in which TRANSMIT_STATE waits, if it does (R187, R282). -/
  waiting : Option TransmitCall
  /-- The refused requests of this run, oldest first (R255). -/
  refused : List RefusalMark
  /-- How many free values have been drawn. -/
  draws : Nat
  /-- What the outside world does next, oldest first (R91). -/
  port : List HostMove
deriving DecidableEq, Repr, Inhabited

/-- The state right after reset of an instance with parameters `p` (R20, R35, R270): what the spec leaves
unspecified is the free value of draw 0, the Receiver holds an empty capture, and nothing is pending. -/
def State.resetWith (p : Params) : State where
  params := p
  out := Config.freeThermo 0
  snap := p.snapReset
  cfg := { valid := false, variant := Config.freeVariant 0 }
  swc := Config.freeSwingCodes 0
  fb := []
  flen := 0
  pb := (List.range Config.pbSize).map (Config.freePulse 0)
  plen := 0
  dstat := { ok := false, cause := .none }
  cap := []
  cur := 0
  log := []
  txCalls := none
  waiting := none
  refused := []
  draws := 1
  port := []

/-- The machine right after reset: the reference instance P0. -/
def State.reset : State := State.resetWith Config.p0

end Sys2Proof.Machine
end

