-- ==== Sys2Proof/Machine/Memory.lean ====
section
/-! DEFINITION. The one memory the spec gives an address space: `FB`, offsets 0 to 13 (R54, R56, R60). -/

namespace Sys2Proof.Machine

/-- The canonical form: offsets strictly rising, every offset in 0 .. 13, no cell with the value 0x00. -/
abbrev Memory.wf (m : Memory) : Prop :=
  m.Pairwise (fun a b => a.1 < b.1) ∧ ∀ c ∈ m, c.1 < Config.maxFrame ∧ c.2 ≠ 0

/-- `MemRead(a, 1)`. An offset without a cell reads as 0x00: reset and every clear leave 0x00 (R35, R36). -/
def Memory.read (m : Memory) (a : Nat) : Byte :=
  match m with
  | [] => 0
  | c :: rest => if c.1 = a then c.2 else Memory.read rest a

/-- The cells without the one at `a`. -/
def Memory.erase (m : Memory) (a : Nat) : Memory := m.filter fun c => c.1 ≠ a

/-- The cells with `v` at `a`, in its place by offset. -/
def Memory.insert (m : Memory) (a : Nat) (v : Byte) : Memory :=
  match m with
  | [] => [(a, v)]
  | c :: rest =>
    if a < c.1 then (a, v) :: c :: rest
    else if a = c.1 then (a, v) :: rest
    else c :: Memory.insert rest a v

/-- `MemWrite(a, 1, v)`, for an offset in 0 .. 13 (R54). No operation writes another offset (R60), so what a write
there would do is not reached: it does nothing. -/
def Memory.write (m : Memory) (a : Nat) (v : Byte) : Memory :=
  if a < Config.maxFrame then (if v = 0 then m.erase a else m.insert a v) else m

/-- The bytes at offsets `0 .. n - 1`. -/
def Memory.bytes (m : Memory) (n : Nat) : List Byte := (List.range n).map m.read

/-- The buffer whose fourteen bytes are given by `f`. -/
def Memory.ofFunction (f : Nat → Byte) : Memory :=
  (List.range Config.maxFrame).foldl (fun m a => m.write a (f a)) []

end Sys2Proof.Machine
end

