-- ==== Sys2Proof/Machine/Operands.lean ====
section
/-! DEFINITION. The fields of the two frames the block knows, and the maps between state values and codes, in both
directions (R11, R78 to R81, R161 to R164, R167, R201, R202). -/

namespace Sys2Proof.Machine

/-! ### Nibbles (R8, R52) -/

/-- `b[7:4]`. -/
def highNibble (b : Byte) : Nibble := b.extractLsb' 4 4

/-- `b[3:0]`. -/
def lowNibble (b : Byte) : Nibble := b.extractLsb' 0 4

/-- `{hi, lo}`. -/
def joinNibbles (hi lo : Nibble) : Byte := hi ++ lo

end Sys2Proof.Machine

namespace Sys2Proof

/-! ### The encodings of the host interface (R11) -/

def Mode.ofBits (b : BitVec 3) : Mode :=
  match b.toNat with
  | 0 => .off | 1 => .heat | 2 => .cool | 3 => .fanOnly | 4 => .dry | 5 => .auto | 6 => .unrecognised6
  | _ => .unrecognised7

def Mode.bits : Mode → BitVec 3
  | .off => 0 | .heat => 1 | .cool => 2 | .fanOnly => 3 | .dry => 4 | .auto => 5 | .unrecognised6 => 6
  | .unrecognised7 => 7

def Fan.ofBits (b : BitVec 3) : Fan :=
  match b.toNat with
  | 0 => .auto | 1 => .quiet | 2 => .level1 | 3 => .level2 | 4 => .level3 | 5 => .level4 | 6 => .level5
  | _ => .unrecognised7

def Fan.bits : Fan → BitVec 3
  | .auto => 0 | .quiet => 1 | .level1 => 2 | .level2 => 3 | .level3 => 4 | .level4 => 5 | .level5 => 6
  | .unrecognised7 => 7

def Swing.ofBits (b : BitVec 3) : Swing :=
  match b.toNat with
  | 0 => .off | 1 => .vertical | 2 => .horizontal | 3 => .both | 4 => .unrecognised4 | 5 => .unrecognised5
  | 6 => .unrecognised6 | _ => .unrecognised7

def Swing.bits : Swing → BitVec 3
  | .off => 0 | .vertical => 1 | .horizontal => 2 | .both => 3 | .unrecognised4 => 4 | .unrecognised5 => 5
  | .unrecognised6 => 6 | .unrecognised7 => 7

/-- The recognised modes, of which the block writes no other (R11). -/
def Mode.recognised (m : Mode) : Bool := m ≠ .unrecognised6 && m ≠ .unrecognised7

/-- The recognised fan speeds (R11). -/
def Fan.recognised (f : Fan) : Bool := f ≠ .unrecognised7

/-- The recognised swing modes (R11). -/
def Swing.recognised (s : Swing) : Bool := s = .off || s = .vertical || s = .horizontal || s = .both

end Sys2Proof

namespace Sys2Proof.Machine

/-! ### From state values to codes -/

/-- `mode_code(m)`, R161: auto for auto and for an unrecognised mode. -/
def modeCode (c : ModeCodes) : Mode → Nibble
  | .off => c.off
  | .heat => c.heat
  | .cool => c.cool
  | .fanOnly => c.fanOnly
  | .dry => c.dry
  | .auto | .unrecognised6 | .unrecognised7 => c.auto

/-- `fan_code(f)`, R162: auto for auto and for an unrecognised speed. -/
def fanCode (c : FanCodes) : Fan → Nibble
  | .quiet => c.quiet
  | .level1 => c.level1
  | .level2 => c.level2
  | .level3 => c.level3
  | .level4 => c.level4
  | .level5 => c.level5
  | .auto | .unrecognised7 => c.auto

/-- `swing_code(s)`, R167: vertical for an unrecognised swing. -/
def swingCode (c : SwingCodes) : Swing → Nibble
  | .both => c.both
  | .vertical => c.vertical
  | .horizontal => c.horizontal
  | .off => c.off
  | .unrecognised4 | .unrecognised5 | .unrecognised6 | .unrecognised7 => c.vertical

/-- `clamp(v, lo, hi)`, R9. -/
def clamp (v lo hi : Nat) : Nat := if v < lo then lo else if hi < v then hi else v

/-- The four bits of `t - TEMP_MIN`; the difference modulo 16 where it is no number of four bits, which no
well-formed assignment lets happen (R10(c)). -/
def tempField (p : Params) (t : Nat) : Nibble := BitVec.ofInt 4 ((t : Int) - (p.tempMin : Int))

/-- The temperature field `T` of the default frame: 22 degrees when the resolved mode is fan-only (R164), else the
clamped request (R163). -/
def temperatureOf (p : Params) (mode : Mode) (temp : Byte) : Nibble :=
  if modeCode p.modeCode mode = p.modeCode.fanOnly then tempField p Config.fanOnlyTemp
  else tempField p (clamp temp.toNat p.tempMin p.tempMax)

/-! ### From codes to state values -/

/-- The mode among off, heat, cool, fan-only, dry with this code, else auto (R202). -/
def modeOfCode (c : ModeCodes) (m : Nibble) : Mode :=
  if m = c.off then .off
  else if m = c.heat then .heat
  else if m = c.cool then .cool
  else if m = c.fanOnly then .fanOnly
  else if m = c.dry then .dry
  else .auto

/-- The speed among quiet, level1 .. level5 with this code, else auto (R202). -/
def fanOfCode (c : FanCodes) (f : Nibble) : Fan :=
  if f = c.quiet then .quiet
  else if f = c.level1 then .level1
  else if f = c.level2 then .level2
  else if f = c.level3 then .level3
  else if f = c.level4 then .level4
  else if f = c.level5 then .level5
  else .auto

/-- Both, vertical, horizontal in that order, else off (R201). -/
def swingOfCode (c : SwingCodes) (s : Nibble) : Swing :=
  if s = c.both then .both
  else if s = c.vertical then .vertical
  else if s = c.horizontal then .horizontal
  else .off

/-- `zext_8(T) + TEMP_MIN`, not clamped (R202, R207). -/
def tempOfField (p : Params) (t : Nibble) : Byte := t.setWidth 8 + BitVec.ofNat 8 p.tempMin

/-! ### The Receiver's tolerance -/

/-- `f` made to satisfy R7(f): reflexive, and of a space near both `ONE_SPACE` and `ZERO_SPACE` one of the two is
dropped. It is `f` itself if `f` satisfies R7(f) (`admittedNear_eq`). -/
def admittedNear (f : Nat → Nat → Bool) (measured expected : Nat) : Bool :=
  measured == expected ||
    (f measured expected &&
      !(expected == Config.zeroSpace && (measured == Config.oneSpace || f measured Config.oneSpace)) &&
      !(expected == Config.oneSpace && measured == Config.zeroSpace))

/-- `near(measured, expected)` (R6, R223): equality widened by windows, or the free predicate of that number. -/
def near (p : Params) (measured expected : Nat) : Bool :=
  match p.tolerance with
  | .windows ws => (windowsFor ws expected).any fun w => w.holds measured
  | .admitted n => admittedNear (Config.freeNear n) measured expected

end Sys2Proof.Machine
end

