-- ==== Sys2Proof/Machine/Flags.lean ====
section
/-! DEFINITION. The two checksums over `FB` and the status register `DSTAT` (R31, R110, R240). -/

namespace Sys2Proof.Machine

/-- `cs1(FB)`, R110. -/
def cs1 (fb : Memory) : Byte := fb.read 0 ^^^ fb.read 1 ^^^ fb.read 2

/-- `cs2(FB, L)`, R110: the exclusive or of offsets 4 .. L - 2. -/
def cs2 (fb : Memory) (l : Nat) : Byte := xorAll ((List.range' 4 (l - 5)).map fb.read)

/-- The code of a cause in `DSTAT.cause` (R240). -/
def Cause.code : Cause → BitVec 3
  | .none => 0
  | .timing => 1
  | .headerSum => 2
  | .length => 3
  | .payloadSum => 4

/-- `DSTAT` of a success: 1 and `E_NONE` (R31). -/
def Dstat.success : Dstat := { ok := true, cause := .none }

/-- `DSTAT` of a failure: 0 and its cause (R31, R249). -/
def Dstat.failure (c : Cause) : Dstat := { ok := false, cause := c }

/-- `DSTAT` of a check that answers a value, R112 and R113. -/
def Dstat.ofCheck (passes : Bool) (c : Cause) : Dstat := if passes then Dstat.success else Dstat.failure c

end Sys2Proof.Machine
end

