-- ==== Sys2Proof/Machine/Ops.lean ====
section
/-! DEFINITION. The named operations the meanings share: refusing a request (R255), a failure (R249), the primitives
towards the collaborators (R221, R222, R225), reset (R270) and the host's moves (R91). -/

namespace Sys2Proof.Machine

/-- What an operation answers. -/
abbrev Answer := Host.Outcome State Fault Refusal

/-! ### Refusal and failure -/

/-- `refuse(reason)`: the request completes, no state changes, and the run is marked (R9, R255). -/
def refuse (s : State) (why : RefusalMark) : State := { s with refused := s.refused ++ [why] }

/-- An operation other than `SETUP`: refused until `SETUP` has run (R255(b), R277). -/
def afterSetup (s : State) (f : State → Answer) : Answer :=
  if s.cfg.valid then f s else .next (refuse s .notSetUp)

/-- `raise E_c` (R9, R249): `DSTAT` says which check failed, `FLEN` is 0, and the operation ends. What `FB` and the
cursor hold is unspecified (R143): free values, the cursor within `0 .. n` (R32). -/
def raise (s : State) (c : Cause) : State :=
  { s with
    dstat := Dstat.failure c
    flen := 0
    fb := Memory.ofFunction (Config.freeFrameByte s.draws)
    cur := Config.freeCursor s.draws % (s.cap.length + 1)
    draws := s.draws + 1 }

/-! ### The collaborators' primitives -/

/-- `Publish()` (R225): the host is told, and the log gets a copy of `OUT`. -/
def publish (s : State) : State := { s with log := s.log ++ [.publish s.out] }

/-- The Transmitter completes the call and it returns, or the cycle waits in it (R187, R221, R282). -/
def awaitReturn (call : TransmitCall) (s : State) : State :=
  if s.txCalls = some 0 then { s with waiting := some call }
  else { s with waiting := none, txCalls := s.txCalls.map (· - 1) }

/-- `Transmit(CARRIER_HZ, PB[0 .. PLEN-1])`, R187. The entry of `TXLOG` is the call's (R33), so it is there while the call
blocks. -/
def transmit (call : TransmitCall) (s : State) : State :=
  awaitReturn call { s with log := s.log ++ [.transmit ⟨Config.carrierHz, s.pb.take s.plen.toNat⟩] }

/-- What comes after a `Transmit`: it is done only once the call has returned (R282). -/
def whenReturned (s : State) (f : State → State) : State := if s.waiting = none then f s else s

/-- `Match(mark, space)` (R222): the state with the cursor one further if the pair at the cursor is near, `none` if it is
not or the capture is exhausted, in which case nothing is consumed. -/
def matchPair (s : State) (mark space : Nat) : Option State :=
  match s.cap[s.cur]? with
  | some c =>
    if near s.params c.mark mark && near s.params c.space space then some { s with cur := s.cur + 1 } else none
  | none => none

/-- `TXLOG` (R33). -/
def State.txlog (s : State) : List Transmission :=
  s.log.filterMap fun e => match e with
    | .transmit t => some t
    | .publish _ => none

/-- `PUBLOG` (R33). -/
def State.publog (s : State) : List Thermo :=
  s.log.filterMap fun e => match e with
    | .publish o => some o
    | .transmit _ => none

/-! ### Reset and the host's moves -/

/-- `RESET` (R270): every element of R20 takes its reset value, the unspecified ones a free value; the logs are emptied.
The parameters, the Receiver's capture and cursor, and the Transmitter are not the block's; a cycle that waits is
abandoned. -/
def resetBlock (s : State) : State :=
  { s with
    out := Config.freeThermo s.draws
    snap := s.params.snapReset
    cfg := { valid := false, variant := Config.freeVariant s.draws }
    swc := Config.freeSwingCodes s.draws
    fb := []
    flen := 0
    pb := (List.range Config.pbSize).map (Config.freePulse s.draws)
    plen := 0
    dstat := { ok := false, cause := .none }
    log := []
    waiting := none
    draws := s.draws + 1 }

/-- Whether the operation `op` moves the Receiver's cursor: `DECODE` and `RECEIVE` (R136, R205). -/
def readsCapture (op : BitVec 4) : Bool := op = 0x7 || op = 0xA

/-- `RESET` during the operation `op` (R270): the block is reset, and a decode that was under way has left the cursor
anywhere from where it stood to the end of the capture. -/
def resetDuring (s : State) (op : BitVec 4) : State :=
  if s.cfg.valid && readsCapture op then
    { resetBlock s with cur := s.cur + Config.freeCursor s.draws % (s.cap.length - s.cur + 1) }
  else resetBlock s

/-- `HOST.SET` (R91, R224): the named fields of `OUT`, others kept. -/
def hostSet (s : State) (mode fan : Option (BitVec 3)) (temp : Option Byte) (swing : Option (BitVec 3)) : State :=
  { s with
    out := {
      mode := (mode.map Mode.ofBits).getD s.out.mode
      fan := (fan.map Fan.ofBits).getD s.out.fan
      temp := temp.getD s.out.temp
      swing := (swing.map Swing.ofBits).getD s.out.swing } }

/-- `HOST.CAPTURE` (R91): a new capture, cursor 0. -/
def hostCapture (s : State) (pairs : List MeasuredPair) : State := { s with cap := pairs, cur := 0 }

end Sys2Proof.Machine
end

