-- ==== Sys2Proof/Machine/Codec.lean ====
section
/-! DEFINITION. The Frame Codec: FINALIZE, VALIDATE_HEADER, VALIDATE_PAYLOAD (R110 to R113). -/

namespace Sys2Proof.Machine

/-- The body of `FINALIZE`, R111, for `dl` at most 8. -/
def finalize (s : State) (dl : Nat) : State :=
  let fb := ((s.fb.write 0 s.params.header0).write 1 s.params.header1).write 2 (BitVec.ofNat 8 dl)
  let fb := fb.write 3 (cs1 fb)
  let l := 6 + dl
  { s with fb := fb.write (l - 1) (cs2 fb l), flen := BitVec.ofNat 4 l }

/-- `FINALIZE dl`, R111. -/
def execFinalize (dl : BitVec 4) (s : State) : Answer :=
  afterSetup s fun s =>
    if Config.maxData < dl.toNat then .next (refuse s .dataLengthTooLong) else .next (finalize s dl.toNat)

/-- `VALIDATE_HEADER`, R112. -/
def execValidateHeader (s : State) : Answer :=
  afterSetup s fun s => .next { s with dstat := Dstat.ofCheck (s.fb.read 3 == cs1 s.fb) .headerSum }

/-- `VALIDATE_PAYLOAD len`, R113. -/
def execValidatePayload (len : BitVec 4) (s : State) : Answer :=
  afterSetup s fun s =>
    if len.toNat < Config.minFrame ∨ Config.maxFrame < len.toNat then .next (refuse s .noSuchFrameLength)
    else .next { s with
      dstat := Dstat.ofCheck (s.fb.read (len.toNat - 1) == cs2 s.fb len.toNat) .payloadSum }

end Sys2Proof.Machine
end

