-- ==== Sys2Proof/Machine/Builders.lean ====
section
/-! DEFINITION. The Command Builders: BUILD_DEFAULT and BUILD_MOTION (R160 to R169). -/

namespace Sys2Proof.Machine

/-- The body of `BUILD_DEFAULT`, R160: a clear buffer, command, three payload bytes, `FINALIZE 3`. -/
def buildDefault (s : State) : State :=
  let p := s.params
  let fb : Memory := []
  let fb := fb.write 4 Config.cmdDefault
  let fb := fb.write 5 (joinNibbles (temperatureOf p s.out.mode s.out.temp) 0)
  let fb := fb.write 6 (joinNibbles (fanCode p.fanCode s.out.fan) (modeCode p.modeCode s.out.mode))
  let fb := fb.write 7 0
  finalize { s with fb := fb } Config.lenDefault

/-- `BUILD_DEFAULT`, R160. -/
def execBuildDefault (s : State) : Answer := afterSetup s fun s => .next (buildDefault s)

/-- The body of `BUILD_MOTION`, R166: a clear buffer, command, one payload byte, `FINALIZE 1`. -/
def buildMotion (s : State) : State :=
  let fb : Memory := []
  let fb := fb.write 4 Config.cmdMotion
  let fb := fb.write 5 (joinNibbles 0 (swingCode s.swc s.out.swing))
  finalize { s with fb := fb } Config.lenMotion

/-- `BUILD_MOTION`, R166. -/
def execBuildMotion (s : State) : Answer := afterSetup s fun s => .next (buildMotion s)

end Sys2Proof.Machine
end

