-- ==== Sys2Proof/Machine/Transcoder.lean ====
section
/-! DEFINITION. The Pulse Timing Transcoder: ENCODE and DECODE (R130 to R143), and the four symbols as the Receiver's
primitive is asked for them (R87, R222). -/

namespace Sys2Proof.Machine

/-! ### Encoding -/

/-- The symbol of a bit (R87). -/
def bitSymbol (b : Bool) : PulsePair := if b then symbolBit1 else symbolBit0

/-- The eight bits of a byte, bit 7 first (R51). -/
def bitsMsbFirst (b : Byte) : List Bool :=
  [b.getLsbD 7, b.getLsbD 6, b.getLsbD 5, b.getLsbD 4, b.getLsbD 3, b.getLsbD 2, b.getLsbD 1, b.getLsbD 0]

/-- The pairs of one byte. -/
def bytePulses (b : Byte) : List PulsePair := (bitsMsbFirst b).map bitSymbol

/-- One repetition: `HDR`, the bits of the bytes in order, `TRAIL` (R88). -/
def repetition (bytes : List Byte) : List PulsePair := symbolHdr :: bytes.flatMap bytePulses ++ [symbolTrail]

/-- One transmission: `REPEATS` repetitions back to back (R88). -/
def train (bytes : List Byte) : List PulsePair := (List.replicate Config.repeats (repetition bytes)).flatten

/-- The body of `ENCODE`, R131: the train overwrites `PB` from index 0, and `PLEN` is its length. -/
def encodeFrame (s : State) : State :=
  let t := train (s.fb.bytes s.flen.toNat)
  { s with pb := t ++ s.pb.drop t.length, plen := BitVec.ofNat 8 t.length }

/-- `ENCODE`, R131. -/
def execEncode (s : State) : Answer :=
  afterSetup s fun s =>
    if s.flen.toNat < Config.minFrame ∨ Config.maxFrame < s.flen.toNat then .next (refuse s .noFrame)
    else .next (encodeFrame s)

/-! ### Decoding -/

/-- One bit: `BIT1` is asked for first and `BIT0` second (R137); `none` if neither matches. -/
def takeBit (s : State) : Option (Bool × State) :=
  match matchPair s Config.bitMark Config.oneSpace with
  | some s' => some (true, s')
  | none =>
    match matchPair s Config.bitMark Config.zeroSpace with
    | some s' => some (false, s')
    | none => none

/-- `n` bits, most significant first, shifted into `acc`. -/
def takeBits (n : Nat) (acc : Byte) (s : State) : Option (Byte × State) :=
  match n with
  | 0 => some (acc, s)
  | n + 1 =>
    match takeBit s with
    | some (b, s') => takeBits n (acc <<< 1 ||| (BitVec.ofBool b).setWidth 8) s'
    | none => none

/-- `n` bytes into `FB` from offset `i` on. -/
def takeBytes (n i : Nat) (s : State) : Option State :=
  match n with
  | 0 => some s
  | n + 1 =>
    match takeBits 8 0 s with
    | some (v, s') => takeBytes n (i + 1) { s' with fb := s'.fb.write i v }
    | none => none

/-- The stages of `DECODE` after the buffer is cleared, R136, R139, R248: the header pair, four bytes, checksum_1, the
length bound, the other bytes, checksum_2. On a failure only the cause is answered: nothing else of it is a result. -/
def decodeStages (s : State) : Except Cause State :=
  match matchPair s Config.headerMark Config.headerSpace with
  | none => .error .timing
  | some s =>
    match takeBytes 4 0 s with
    | none => .error .timing
    | some s =>
      if s.fb.read 3 ≠ cs1 s.fb then .error .headerSum
      else if Config.maxFrame < 6 + (s.fb.read 2).toNat then .error .length
      else
        let l := 6 + (s.fb.read 2).toNat
        match takeBytes (l - 4) 4 s with
        | none => .error .timing
        | some s =>
          if s.fb.read (l - 1) ≠ cs2 s.fb l then .error .payloadSum
          else .ok { s with flen := BitVec.ofNat 4 l, dstat := Dstat.success }

/-- The body of `DECODE`, R136. -/
def decodeCapture (s : State) : State :=
  match decodeStages { s with fb := [], flen := 0 } with
  | .ok s' => s'
  | .error c => raise s c

/-- `DECODE`, R136. -/
def execDecode (s : State) : Answer := afterSetup s fun s => .next (decodeCapture s)

/-! ### The symbols -/

/-- The Receiver is asked whether the next captured pair is this symbol (R222): the pair is consumed if it is, and
nothing changes if it is not. -/
def askFor (symbol : PulsePair) (s : State) : State :=
  (matchPair s symbol.mark.toNat symbol.space.toNat).getD s

/-- `HDR`: `Match(HEADER_MARK, HEADER_SPACE)`. -/
def execHdr (s : State) : Answer := .next (askFor symbolHdr s)

/-- `BIT0`: `Match(BIT_MARK, ZERO_SPACE)`. -/
def execBit0 (s : State) : Answer := .next (askFor symbolBit0 s)

/-- `BIT1`: `Match(BIT_MARK, ONE_SPACE)`. -/
def execBit1 (s : State) : Answer := .next (askFor symbolBit1 s)

/-- `TRAIL`: `Match(BIT_MARK, GAP_SPACE)`, which `DECODE` itself never asks (R140). -/
def execTrail (s : State) : Answer := .next (askFor symbolTrail s)

end Sys2Proof.Machine
end

