-- ==== Sys2Proof/Machine/Controller.lean ====
section
/-! DEFINITION. The State Diff Controller: TRANSMIT_STATE (R180 to R190). -/

namespace Sys2Proof.Machine

/-- Step 1's condition, R182: mode, fan or temperature differs, as stored. -/
def defaultDiffers (s : State) : Bool :=
  s.out.mode ≠ s.snap.mode || s.out.fan ≠ s.snap.fan || s.out.temp ≠ s.snap.temp

/-- Step 2's condition, R184. -/
def swingDiffers (s : State) : Bool := s.out.swing ≠ s.snap.swing

/-- The off-to-on override, R183: if the snapshot's mode is off, swing is forced to vertical and published. -/
def overrideSwing (s : State) : State :=
  if s.snap.mode = .off then publish { s with out := { s.out with swing := .vertical } } else s

/-- Step 1, R181: the default frame, then the override. -/
def defaultStep (s : State) : State :=
  if defaultDiffers s then whenReturned (transmit .defaultFrame (encodeFrame (buildDefault s))) overrideSwing else s

/-- Step 2, R181: the motion frame. -/
def motionStep (s : State) : State :=
  if swingDiffers s then transmit .motionFrame (encodeFrame (buildMotion s)) else s

/-- Step 3, R185: the snapshot takes all four fields. -/
def recordSnapshot (s : State) : State := { s with snap := s.out }

/-- What follows step 1: steps 2 and 3, each once the call before it has returned. -/
def afterDefaultStep (s : State) : State := whenReturned (whenReturned s motionStep) recordSnapshot

/-- `TRANSMIT_STATE`, R181. It answers the state at the end of the cycle, or the state that waits in a call (R282). -/
def execTransmitState (s : State) : Answer := afterSetup s fun s => .next (afterDefaultStep (defaultStep s))

/-- The cycle goes on from the call in which it waited, if the Transmitter now completes it. `SNAP` still stands as on
entry, so that the override's test is the same (R183). -/
def resumeCycle (call : TransmitCall) (s : State) : State :=
  match call with
  | .defaultFrame => afterDefaultStep (whenReturned (awaitReturn .defaultFrame s) overrideSwing)
  | .motionFrame => whenReturned (awaitReturn .motionFrame s) recordSnapshot

end Sys2Proof.Machine
end

