-- ==== Sys2Proof/Machine/Mapper.lean ====
section
/-! DEFINITION. The Frame Decoder / State Mapper: MAP_FRAME and RECEIVE (R200 to R210), and the frames of the
command-code map as they are received (R82 to R84). -/

namespace Sys2Proof.Machine

/-- `map_motion`, R201. -/
def mapMotion (s : State) : State :=
  let swing := swingOfCode s.swc (lowNibble (s.fb.read 5))
  { s with out := { s.out with swing := swing }, snap := { s.snap with swing := swing } }

/-- `map_default`, R202. `SNAP.temp` is not written. -/
def mapDefault (s : State) : State :=
  let mode := modeOfCode s.params.modeCode (lowNibble (s.fb.read 6))
  let fan := fanOfCode s.params.fanCode (highNibble (s.fb.read 6))
  { s with
    out := { s.out with mode := mode, fan := fan, temp := tempOfField s.params (highNibble (s.fb.read 5)) }
    snap := { s.snap with mode := mode, fan := fan } }

/-- The body of `MAP_FRAME`, R200: dispatch on the command byte, then one `Publish` (R204). -/
def mapFrame (s : State) : State :=
  publish <|
    if s.fb.read 4 = Config.cmdMotion then mapMotion s
    else if s.fb.read 4 = Config.cmdDefault then mapDefault s
    else s

/-- `MAP_FRAME`, R200. -/
def execMapFrame (s : State) : Answer :=
  afterSetup s fun s => if s.flen = 0 then .next (refuse s .noFrame) else .next (mapFrame s)

/-- The body of `RECEIVE`, R205: `DECODE`, and on success `MAP_FRAME`. -/
def receive (s : State) : State :=
  let s := decodeCapture s
  if s.dstat.ok then mapFrame s else s

/-- `RECEIVE`, R205. -/
def execReceive (s : State) : Answer := afterSetup s fun s => .next (receive s)

/-! ### Frames as they are received

A row of format FRAME names a frame by its command byte. Its effect on the machine is the reception of that frame:
the Receiver is given the frame's pulse train, both repetitions, as its capture (`HOST.CAPTURE`, R91), and the host
requests `RECEIVE` (R205) (notes/assumptions/8.md). -/

/-- The reception of these bytes, whether or not they are a valid frame. -/
def receiveBytes (bytes : List Byte) (s : State) : Answer :=
  let s := hostCapture s ((train bytes).map PulsePair.measured)
  if s.cfg.valid then .next (receive s) else .next (refuse s .notSetUp)

/-- DEFAULT, command 0x01: mode, fan and temperature are mapped and published (R202). -/
def execDefaultFrame (b : FrameBody) (s : State) : Answer := receiveBytes (frameBytes Config.cmdDefault b) s

/-- MOTION, command 0x21: swing is mapped and published (R201). -/
def execMotionFrame (b : FrameBody) (s : State) : Answer := receiveBytes (frameBytes Config.cmdMotion b) s

/-- TIMER, command 0x03: no state change, one `Publish` (R83, R203). -/
def execTimerFrame (b : FrameBody) (s : State) : Answer := receiveBytes (frameBytes Config.cmdTimer b) s

/-- POWER, command 0x09: no state change, one `Publish` (R83, R203). -/
def execPowerFrame (b : FrameBody) (s : State) : Answer := receiveBytes (frameBytes Config.cmdPower b) s

/-- COMFORT_SLEEP, command 0x0B: no state change, one `Publish` (R83, R203). -/
def execComfortSleepFrame (b : FrameBody) (s : State) : Answer :=
  receiveBytes (frameBytes Config.cmdComfortSleep b) s

/-- Any other command: no state change, one `Publish` (R84, R203). -/
def execOtherFrame (command : Byte) (b : FrameBody) (s : State) : Answer := receiveBytes (frameBytes command b) s

end Sys2Proof.Machine
end

