-- ==== Sys2Proof/Machine/Setup.lean ====
section
/-! DEFINITION. SETUP (R228) and the reserved operation codes (R255(a)). -/

namespace Sys2Proof.Machine

/-- `SETUP variant`, R228. -/
def execSetup (variant : Nat) (s : State) : Answer :=
  if s.cfg.valid then .next (refuse s .alreadySetUp)
  else
    match s.params.swingCodes[variant]? with
    | none => .next (refuse s .noSuchVariant)
    | some codes => .next { s with cfg := { valid := true, variant := variant }, swc := codes }

/-- Reserved op 0xB: refused, no state changes (R255(a)). -/
def execReservedOpB (s : State) : Answer := .next (refuse s .reservedOp)

/-- Reserved op 0xC: refused, no state changes (R255(a)). -/
def execReservedOpC (s : State) : Answer := .next (refuse s .reservedOp)

/-- Reserved op 0xD: refused, no state changes (R255(a)). -/
def execReservedOpD (s : State) : Answer := .next (refuse s .reservedOp)

/-- Reserved op 0xE: refused, no state changes (R255(a)). -/
def execReservedOpE (s : State) : Answer := .next (refuse s .reservedOp)

/-- Reserved op 0xF: refused, no state changes (R255(a)). -/
def execReservedOpF (s : State) : Answer := .next (refuse s .reservedOp)

end Sys2Proof.Machine
end

