-- ==== Sys2Proof/Machine/Dispatch.lean ====
section
/-! DEFINITION. One arm per instruction. -/

namespace Sys2Proof.Machine

def exec (i : Instr) (s : State) : Host.Outcome State Fault Refusal :=
  match i with
  | .setup variant => Sys2Proof.Machine.execSetup variant s
  | .finalize dl => Sys2Proof.Machine.execFinalize dl s
  | .validateHeader => Sys2Proof.Machine.execValidateHeader s
  | .validatePayload len => Sys2Proof.Machine.execValidatePayload len s
  | .buildDefault => Sys2Proof.Machine.execBuildDefault s
  | .buildMotion => Sys2Proof.Machine.execBuildMotion s
  | .encode => Sys2Proof.Machine.execEncode s
  | .decode => Sys2Proof.Machine.execDecode s
  | .mapFrame => Sys2Proof.Machine.execMapFrame s
  | .transmitState => Sys2Proof.Machine.execTransmitState s
  | .receive => Sys2Proof.Machine.execReceive s
  | .reservedOpB => Sys2Proof.Machine.execReservedOpB s
  | .reservedOpC => Sys2Proof.Machine.execReservedOpC s
  | .reservedOpD => Sys2Proof.Machine.execReservedOpD s
  | .reservedOpE => Sys2Proof.Machine.execReservedOpE s
  | .reservedOpF => Sys2Proof.Machine.execReservedOpF s
  | .defaultFrame body => Sys2Proof.Machine.execDefaultFrame body s
  | .motionFrame body => Sys2Proof.Machine.execMotionFrame body s
  | .timerFrame body => Sys2Proof.Machine.execTimerFrame body s
  | .powerFrame body => Sys2Proof.Machine.execPowerFrame body s
  | .comfortSleepFrame body => Sys2Proof.Machine.execComfortSleepFrame body s
  | .otherFrame command body => Sys2Proof.Machine.execOtherFrame command body s
  | .hdr => Sys2Proof.Machine.execHdr s
  | .bit0 => Sys2Proof.Machine.execBit0 s
  | .bit1 => Sys2Proof.Machine.execBit1 s
  | .trail => Sys2Proof.Machine.execTrail s

end Sys2Proof.Machine
end

