-- ==== Sys2Proof/Machine/Port.lean ====
section
/-! DEFINITION. What the machine does with the next move of the outside world (R91, R226, R230). -/

namespace Sys2Proof.Machine

/-- A word that is no instruction. A frame that fails a check is received all the same, and the decoder of the block
finds the fault (R241 to R244); a pair that is no symbol is asked for by nobody. A request always decodes. -/
def runRejected (w : PortWord) (s : State) : Answer :=
  match w with
  | .frame bytes => receiveBytes bytes s
  | .pulse _ => .next (refuse s .notASymbol)
  | .request _ _ => .next (refuse s .reservedOp)

/-- A word of one of the three interfaces: the instruction it decodes to is run. -/
def runWord (w : PortWord) (s : State) : Answer :=
  match decode w with
  | .ok i => exec i s
  | .error _ => runRejected w s

/-- A move while no operation is in progress. -/
def runIdle (m : HostMove) (s : State) : Answer :=
  match m with
  | .word w => runWord w s
  | .set mode fan temp swing => .next (hostSet s mode fan temp swing)
  | .capture pairs => .next (hostCapture s pairs)
  | .reset => .next (resetBlock s)
  | .resetDuring op => .next (resetDuring s op)
  | .transmitter calls => .next { s with txCalls := calls }

/-- A move while TRANSMIT_STATE waits in a call: RESET abandons it (R270), the Transmitter may complete it, and what the
host must not do then is refused (U8, R280). -/
def runWaiting (call : TransmitCall) (m : HostMove) (s : State) : State :=
  match m with
  | .word _ | .set _ _ _ _ | .capture _ => refuse s .operationInProgress
  | .reset | .resetDuring _ => resetBlock s
  | .transmitter calls => resumeCycle call { s with txCalls := calls }

/-- One move. -/
def runMove (m : HostMove) (s : State) : Answer :=
  match s.waiting with
  | none => runIdle m s
  | some call => .next (runWaiting call m s)

/-- The next move is taken and run; with none the block stays as it is, idle (R270) or waiting in a `Transmit` (R282). -/
def runNext (s : State) : Answer :=
  match s.port with
  | [] => .next s
  | m :: rest => runMove m { s with port := rest }

/-- The state with this move in front of all others. -/
def pushMove (m : HostMove) (s : State) : State := { s with port := m :: s.port }

end Sys2Proof.Machine
end

