-- ==== Sys2Proof/Machine/Step.lean ====
section
/-! DEFINITION. One step of the machine: one move of the outside world, an operation being one atomic transition
(R55). -/

namespace Sys2Proof.Machine

/-- A step: an operation, but for a transmit cycle that waits, which a later step resumes. The rules are stated for well-formed parameters only, and any other assignment is refused (R7). -/
def step (s : State) : Host.Outcome State Fault Refusal :=
  if s.params.wellFormed then runNext s else .refused .illFormedParameters

/-- The state whose next move is the word of a table row, with no operation in progress, so that the next step runs it
(notes/assumptions/7.md). -/
def State.withFetchWord (s : State) (nbits w : Nat) : State :=
  { pushMove (.word (tableWord nbits w)) s with waiting := none }

end Sys2Proof.Machine
end

