-- ==== Sys2Proof/Safety.lean ====
section
/-! DEFINITION. What claims about this machine are stated in: the invariant of the state, a run that is final or has no
refused request, and what the Receiver's capture says pair by pair. -/

namespace Sys2Proof.Machine

/-- `FB` holds a valid frame of length `l`: the length field says so and both checksums hold (R71, R74, R76). -/
abbrev Memory.holdsFrame (fb : Memory) (l : Nat) : Prop :=
  Config.minFrame ≤ l ∧ l ≤ Config.maxFrame ∧ l = 6 + (fb.read 2).toNat ∧ fb.read 3 = cs1 fb ∧ fb.read (l - 1) = cs2 fb l

/-- `FLEN` is 0, or `FB` holds a valid frame of that length (R28, R200). -/
abbrev State.frameHeld (s : State) : Prop := s.flen = 0 ∨ s.fb.holdsFrame s.flen.toNat

/-- Once `SETUP` has run, the variant is legal and `SWC` holds its codes (R26, R27). -/
abbrev State.variantResolved (s : State) : Prop :=
  s.cfg.valid = true → s.params.swingCodes[s.cfg.variant]? = some s.swc

/-- What every step keeps: `FB` in canonical form, `FLEN` with the frame it claims, `PB` of its size and `PLEN` within
it, the cursor within the capture, `DSTAT.cause` 0 with a success, `SWC` as the variant has it, and a cycle waiting only
after `SETUP` and for a Transmitter that completes no call. -/
structure State.Inv (s : State) : Prop where
  fbCanonical : s.fb.wf
  frame : s.frameHeld
  pbSize : s.pb.length = Config.pbSize
  plenInside : s.plen.toNat ≤ Config.pbSize
  cursorInside : s.cur ≤ s.cap.length
  causeOfSuccess : s.dstat.ok = true → s.dstat.cause = .none
  variant : s.variantResolved
  waitsForTransmitter : s.waiting ≠ none → s.cfg.valid = true ∧ s.txCalls = some 0

/-- The Transmitter completes at least the next `n` calls; R221 and D25 assume it of every `n`. -/
abbrev State.completesCalls (s : State) (n : Nat) : Prop := ∀ k, s.txCalls = some k → n ≤ k

/-- The run is final: no operation is in progress. A run that ends in a state that waits is not (R282). -/
abbrev State.final (s : State) : Prop := s.waiting = none

/-- No request of the run so far was refused; a claim about a run with a refused request says nothing about the
hardware (R255). -/
abbrev State.unrefused (s : State) : Prop := s.refused = []

/-- `t` is what a decode that began in `s` leaves when it fails with `c` (R143, R249): `DSTAT`, `FLEN` = 0, and a `FB` and a
cursor on which no claim rests; every other field, `OUT`, `SNAP` and the logs among them, as before. -/
structure State.FailedFrom (s : State) (c : Cause) (t : State) : Prop where
  status : t.dstat = { ok := false, cause := c }
  noFrame : t.flen = 0
  others : t = { s with dstat := t.dstat, flen := t.flen, fb := t.fb, cur := t.cur, draws := t.draws }

/-! ### The capture, pair by pair -/

/-- Whether the pair at index `k` of a capture is near (mark, space) (R222). -/
def pairNear (p : Params) (cap : List MeasuredPair) (k mark space : Nat) : Bool :=
  match cap[k]? with
  | some c => near p c.mark mark && near p c.space space
  | none => false

/-- The bit that the pair at index `k` stands for: 1 if it is near `BIT1`, else 0 if it is near `BIT0`, else none
(R137). -/
def capturedBit (p : Params) (cap : List MeasuredPair) (k : Nat) : Option Bool :=
  if pairNear p cap k Config.bitMark Config.oneSpace then some true
  else if pairNear p cap k Config.bitMark Config.zeroSpace then some false
  else none

/-- The byte whose eight bits begin at index `k` of a capture: the first of them is bit 7 (R51). -/
def capturedByte (p : Params) (cap : List MeasuredPair) (k : Nat) : Byte :=
  (List.range 8).foldl
    (fun b j => b ||| ((BitVec.ofBool ((capturedBit p cap (k + j)).getD false)).setWidth 8 <<< (7 - j))) 0

/-- The header pair stands at the cursor (R136, stage 1). -/
abbrev State.headerAtCursor (s : State) : Prop :=
  pairNear s.params s.cap s.cur Config.headerMark Config.headerSpace = true

/-- The first `n` bits after a header pair at the cursor can be read. -/
abbrev State.bitsReadable (s : State) (n : Nat) : Prop :=
  ∀ j < n, (capturedBit s.params s.cap (s.cur + 1 + j)).isSome

/-- Byte `i` of a frame whose header pair is at the cursor. -/
def State.frameByte (s : State) (i : Nat) : Byte := capturedByte s.params s.cap (s.cur + 1 + 8 * i)

/-- The exclusive or of bytes `a .. a + n - 1` of that frame. -/
def State.frameXor (s : State) (a n : Nat) : Byte := xorAll ((List.range' a n).map s.frameByte)

end Sys2Proof.Machine
end

