-- ==== Sys2Proof/Certificates/Slice0/Obligations.lean ====
section
/-! DEFINITION. The statements for the provers, by component of the spec: setup and refusals, parameters, Frame Codec, builders,
transcoder, decoder, mapper, diff controller, encodings, the machine as a whole. -/

open Sys2Proof Sys2Proof.Machine

/-! ### Setup and refusals -/

/-- R228, with its encoding, for every number on the operand lines (their width is left open, notes/assumptions/6.md). The
two refusals are the spec's own decision D23 (notes/assumptions/10.md). -/
def Obligations.SetupResolvesVariantOnce : Prop :=
  (∀ v : Nat, decode (.request 0x0 v) = .ok (.setup v)) ∧
  (∀ (s : State) (v : Nat) (codes : SwingCodes), s.cfg.valid = false →
    s.params.swingCodes[v]? = some codes →
    exec (.setup v) s = .next { s with cfg := { valid := true, variant := v }, swc := codes }) ∧
  (∀ (s : State) (v : Nat), s.cfg.valid = true →
    exec (.setup v) s = .next { s with refused := s.refused ++ [.alreadySetUp] }) ∧
  (∀ (s : State) (v : Nat), s.cfg.valid = false → s.params.swingCodes.length ≤ v →
    exec (.setup v) s = .next { s with refused := s.refused ++ [.noSuchVariant] })

/-- R255(a): the own effect of a reserved code is that the request completes and nothing changes; the mark is the model's.
The refusal is the spec's own decision (R255, D23 and D27, notes/assumptions/10.md). -/
def Obligations.ReservedOpCompletesChangingNothing : Prop :=
  ∀ (s : State) (i : Instr),
    i ∈ [Instr.reservedOpB, .reservedOpC, .reservedOpD, .reservedOpE, .reservedOpF] →
    exec i s = .next { s with refused := s.refused ++ [.reservedOp] }

/-- R255(b), R277. The refusal is the spec's own decision D23 (notes/assumptions/10.md). -/
def Obligations.OperationsRefusedBeforeSetup : Prop :=
  ∀ (s : State) (i : Instr), s.cfg.valid = false →
    (i ∈ [Instr.validateHeader, .buildDefault, .buildMotion, .encode, .decode, .mapFrame, .transmitState, .receive] ∨
      (∃ dl, i = .finalize dl) ∨ (∃ len, i = .validatePayload len)) →
    exec i s = .next { s with refused := s.refused ++ [.notSetUp] }

/-! ### Parameters -/

/-- R7, condition by condition, with R6 for `N_VARIANTS`: which assignments are well-formed, and no others are refused.
(b) and (f) are the spec's own decisions D30 and D14. -/
def Obligations.WellFormedParametersAreThoseOfTheSpec : Prop :=
  ∀ p : Params, p.wellFormed = true ↔
    (p.tempMin ≤ p.tempMax ∧ p.tempMax - p.tempMin ≤ 15) ∧
    (p.tempMin ≤ 22 ∧ 22 ≤ p.tempMin + 15) ∧
    [p.modeCode.off, p.modeCode.heat, p.modeCode.cool, p.modeCode.fanOnly, p.modeCode.dry, p.modeCode.auto].Nodup ∧
    [p.fanCode.auto, p.fanCode.quiet, p.fanCode.level1, p.fanCode.level2, p.fanCode.level3, p.fanCode.level4,
      p.fanCode.level5].Nodup ∧
    (∀ c ∈ p.swingCodes, [c.both, c.vertical, c.horizontal, c.off].Nodup) ∧
    0 < p.swingCodes.length ∧
    (∀ x, near p x x = true) ∧ (∀ x, ¬ (near p x 1620 = true ∧ near p x 540 = true))

/-- U1, R223: the Receiver's tolerance is any predicate that satisfies R7(f), and windows may have no upper end. How `near`
is written as data is the model's choice (notes/assumptions/11.md). -/
def Obligations.EveryAdmissibleToleranceIsModelled : Prop :=
  (∀ f : Nat → Nat → Bool, (∀ x, f x x = true) → (∀ x, ¬ (f x 1620 = true ∧ f x 540 = true)) → admittedNear f = f) ∧
  (∀ f : Nat → Nat → Bool, (∀ x, admittedNear f x x = true) ∧
    ∀ x, ¬ (admittedNear f x 1620 = true ∧ admittedNear f x 540 = true)) ∧
  (∀ (p : Params) (n : Nat), p.tolerance = .admitted n → near p = admittedNear (Config.freeNear n)) ∧
  (∀ (p : Params) (ws : List Window) (x e : Nat), p.tolerance = .windows ws →
    (near p x e = true ↔
      x = e ∨ ∃ w ∈ ws, w.expected = e ∧ w.lo ≤ x ∧ ∀ hi, w.hi = some hi → x ≤ hi))

/-! ### Frame Codec -/

/-- R111, with its encoding: `dl` is operand[3:0] (spec/opcode_table.json), whatever stands on further operand lines,
whose number is left open (notes/assumptions/6.md). The refusal of `dl` above 8 is the spec's own decision D27
(notes/assumptions/10.md). The refusal before SETUP (R255(b)) is the spec's own decision D23, its mark the model's
(notes/assumptions/10.md). -/
def Obligations.FinalizeSealsTheFrame : Prop :=
  (∀ x : Nat, decode (.request 0x1 x) = .ok (.finalize (BitVec.ofNat 4 x))) ∧
  (∀ (s : State) (dl : BitVec 4), s.cfg.valid = true → dl.toNat ≤ 8 →
    ∃ t, exec (.finalize dl) s = .next t ∧ t = { s with fb := t.fb, flen := t.flen } ∧
      t.flen.toNat = 6 + dl.toNat ∧
      t.fb.read 0 = s.params.header0 ∧ t.fb.read 1 = s.params.header1 ∧ t.fb.read 2 = dl.setWidth 8 ∧
      t.fb.read 3 = s.params.header0 ^^^ s.params.header1 ^^^ dl.setWidth 8 ∧
      t.fb.read (5 + dl.toNat) = xorAll ((List.range' 4 (dl.toNat + 1)).map s.fb.read) ∧
      (∀ a, a ∉ [0, 1, 2, 3, 5 + dl.toNat] → t.fb.read a = s.fb.read a) ∧
      (s.fb.wf → exec (.finalize dl) t = .next t)) ∧
  (∀ (s : State) (dl : BitVec 4), s.cfg.valid = true → 8 < dl.toNat →
    exec (.finalize dl) s = .next { s with refused := s.refused ++ [.dataLengthTooLong] }) ∧
  (∀ (s : State) (dl : BitVec 4), s.cfg.valid = false →
    exec (.finalize dl) s = .next { s with refused := s.refused ++ [.notSetUp] })

/-- R112, with its encoding (R90), an operation without an operand: that it is read so for every number on the operand
lines is the model's choice (notes/assumptions/6.md). The refusal before SETUP (R255(b)) is the spec's own decision
D23, its mark the model's (notes/assumptions/10.md). -/
def Obligations.ValidateHeaderReportsChecksumOne : Prop :=
  (∀ x : Nat, decode (.request 0x2 x) = .ok .validateHeader) ∧
  (∀ s : State, s.cfg.valid = true → s.fb.read 3 = s.fb.read 0 ^^^ s.fb.read 1 ^^^ s.fb.read 2 →
    exec .validateHeader s = .next { s with dstat := { ok := true, cause := .none } }) ∧
  (∀ s : State, s.cfg.valid = true → s.fb.read 3 ≠ s.fb.read 0 ^^^ s.fb.read 1 ^^^ s.fb.read 2 →
    exec .validateHeader s = .next { s with dstat := { ok := false, cause := .headerSum } }) ∧
  (∀ s : State, s.cfg.valid = false →
    exec .validateHeader s = .next { s with refused := s.refused ++ [.notSetUp] })

/-- R113, with its encoding: `len` is operand[3:0] (spec/opcode_table.json), whatever stands on further operand lines
(notes/assumptions/6.md). The refusal of `len` outside 6 to 14 is the spec's own decision D27
(notes/assumptions/10.md). The refusal before SETUP (R255(b)) is the spec's own decision D23, its mark the model's
(notes/assumptions/10.md). -/
def Obligations.ValidatePayloadReportsChecksumTwo : Prop :=
  (∀ x : Nat, decode (.request 0x3 x) = .ok (.validatePayload (BitVec.ofNat 4 x))) ∧
  (∀ (s : State) (len : BitVec 4), s.cfg.valid = true → 6 ≤ len.toNat → len.toNat ≤ 14 →
    s.fb.read (len.toNat - 1) = xorAll ((List.range' 4 (len.toNat - 5)).map s.fb.read) →
    exec (.validatePayload len) s = .next { s with dstat := { ok := true, cause := .none } }) ∧
  (∀ (s : State) (len : BitVec 4), s.cfg.valid = true → 6 ≤ len.toNat → len.toNat ≤ 14 →
    s.fb.read (len.toNat - 1) ≠ xorAll ((List.range' 4 (len.toNat - 5)).map s.fb.read) →
    exec (.validatePayload len) s = .next { s with dstat := { ok := false, cause := .payloadSum } }) ∧
  (∀ (s : State) (len : BitVec 4), s.cfg.valid = true → (len.toNat < 6 ∨ 14 < len.toNat) →
    exec (.validatePayload len) s = .next { s with refused := s.refused ++ [.noSuchFrameLength] }) ∧
  (∀ (s : State) (len : BitVec 4), s.cfg.valid = false →
    exec (.validatePayload len) s = .next { s with refused := s.refused ++ [.notSetUp] })

/-- R114. -/
def Obligations.FinalizedFramePassesBothChecks : Prop :=
  ∀ (s : State) (dl len : BitVec 4), s.cfg.valid = true → dl.toNat ≤ 8 → len.toNat = 6 + dl.toNat →
    ∃ t, exec (.finalize dl) s = .next t ∧
      t.fb.read 3 = t.fb.read 0 ^^^ t.fb.read 1 ^^^ t.fb.read 2 ∧
      t.fb.read (len.toNat - 1) = xorAll ((List.range' 4 (len.toNat - 5)).map t.fb.read) ∧
      exec .validateHeader t = .next { t with dstat := { ok := true, cause := .none } } ∧
      exec (.validatePayload len) t = .next { t with dstat := { ok := true, cause := .none } } ∧
      xorAll ((List.range 4).map t.fb.read) = 0 ∧
      xorAll ((List.range' 4 (2 + dl.toNat)).map t.fb.read) = 0

/-- R115: of a buffer that passes both checks, a changed buffer passes both exactly when in each range every bit
column has an even number of flips; in particular one flipped bit never passes. -/
def Obligations.ChecksumsMissExactlyEvenColumns : Prop :=
  ∀ (s : State) (len : BitVec 4), s.cfg.valid = true → 6 ≤ len.toNat → len.toNat ≤ 14 →
    exec .validateHeader s = .next { s with dstat := { ok := true, cause := .none } } →
    exec (.validatePayload len) s = .next { s with dstat := { ok := true, cause := .none } } →
    (∀ s' : State, s' = { s with fb := s'.fb } →
      ((exec .validateHeader s' = .next { s' with dstat := { ok := true, cause := .none } } ∧
        exec (.validatePayload len) s' = .next { s' with dstat := { ok := true, cause := .none } }) ↔
       ∀ k < 8,
        ((List.range 4).countP fun a => (s.fb.read a).getLsbD k != (s'.fb.read a).getLsbD k) % 2 = 0 ∧
        ((List.range' 4 (len.toNat - 4)).countP fun a => (s.fb.read a).getLsbD k != (s'.fb.read a).getLsbD k) % 2 = 0)) ∧
    (∀ (s' : State) (a k : Nat), a < len.toNat → k < 8 →
      s' = { s with fb := s.fb.write a (s.fb.read a ^^^ BitVec.twoPow 8 k) } →
      (a < 4 → exec .validateHeader s' = .next { s' with dstat := { ok := false, cause := .headerSum } }) ∧
      (4 ≤ a → exec (.validatePayload len) s' = .next { s' with dstat := { ok := false, cause := .payloadSum } }))

/-! ### Command Builders -/

/-- The mode map of R161, the fan map of R162 and the unassigned bits of R165 in the frame, the length and the command that
R160 builds. The temperature nibble is pinned by `DefaultFrameTemperatureIsClampedOrPinned`. Payload byte 2 = 0x00 and the
zero low nibble of payload byte 0 are the spec's own decision D11, and the code sent for an unrecognised fan its D8, not the
source's (notes/assumptions/19.md). -/
def Obligations.BuildDefaultWritesTheDefaultFrame : Prop :=
  ∀ s : State, s.cfg.valid = true →
    let codes := s.params.modeCode
    let fans := s.params.fanCode
    let m : Nibble := match s.out.mode with
      | .off => codes.off | .heat => codes.heat | .cool => codes.cool | .fanOnly => codes.fanOnly | .dry => codes.dry
      | .auto | .unrecognised6 | .unrecognised7 => codes.auto
    let f : Nibble := match s.out.fan with
      | .quiet => fans.quiet | .level1 => fans.level1 | .level2 => fans.level2 | .level3 => fans.level3
      | .level4 => fans.level4 | .level5 => fans.level5 | .auto | .unrecognised7 => fans.auto
    let payload1 : Byte := f.setWidth 8 <<< 4 ||| m.setWidth 8
    ∃ (t : State) (field : Nibble), exec .buildDefault s = .next t ∧ t = { s with fb := t.fb, flen := 9 } ∧
      t.fb.bytes 14 =
        [s.params.header0, s.params.header1, 0x03, s.params.header0 ^^^ s.params.header1 ^^^ 0x03, 0x01,
          field.setWidth 8 <<< 4, payload1, 0x00, 0x01 ^^^ (field.setWidth 8 <<< 4) ^^^ payload1 ^^^ 0x00,
          0, 0, 0, 0, 0] ∧
      ∀ a, 14 ≤ a → t.fb.read a = 0

/-- R163: the requested temperature clamped to the bounds; R164: 22 when the mode is fan-only. That 22 is not clamped is
the spec's own decision D30 (notes/assumptions/19.md). -/
def Obligations.DefaultFrameTemperatureIsClampedOrPinned : Prop :=
  ∀ s : State, s.params.wellFormed = true → s.cfg.valid = true →
    ∃ t, exec .buildDefault s = .next t ∧
      (s.out.mode = .fanOnly → (t.fb.read 5).toNat = 16 * (22 - s.params.tempMin)) ∧
      (s.out.mode ≠ .fanOnly → s.out.temp.toNat < s.params.tempMin → (t.fb.read 5).toNat = 0) ∧
      (s.out.mode ≠ .fanOnly → s.params.tempMin ≤ s.out.temp.toNat → s.out.temp.toNat ≤ s.params.tempMax →
        (t.fb.read 5).toNat = 16 * (s.out.temp.toNat - s.params.tempMin)) ∧
      (s.out.mode ≠ .fanOnly → s.params.tempMax < s.out.temp.toNat →
        (t.fb.read 5).toNat = 16 * (s.params.tempMax - s.params.tempMin)) ∧
      t.out.temp = s.out.temp

/-- R166, with its encoding (no operand is read, notes/assumptions/6.md) and the swing map of R167 written out. The zero
high nibble of the payload byte is the spec's own decision D11, not the source's (notes/assumptions/19.md). The
refusal before SETUP (R255(b)) is the spec's own decision D23, its mark the model's (notes/assumptions/10.md). -/
def Obligations.BuildMotionWritesTheMotionFrame : Prop :=
  (∀ x : Nat, decode (.request 0x5 x) = .ok .buildMotion) ∧
  (∀ s : State, s.cfg.valid = true →
    let c : Nibble := match s.out.swing with
      | .both => s.swc.both | .vertical => s.swc.vertical | .horizontal => s.swc.horizontal | .off => s.swc.off
      | .unrecognised4 | .unrecognised5 | .unrecognised6 | .unrecognised7 => s.swc.vertical
    ∃ t, exec .buildMotion s = .next t ∧ t = { s with fb := t.fb, flen := 7 } ∧
      t.fb.bytes 14 =
        [s.params.header0, s.params.header1, 0x01, s.params.header0 ^^^ s.params.header1 ^^^ 0x01, 0x21,
          c.setWidth 8, 0x21 ^^^ c.setWidth 8, 0, 0, 0, 0, 0, 0, 0] ∧
      ∀ a, 14 ≤ a → t.fb.read a = 0) ∧
  (∀ s : State, s.cfg.valid = false →
    exec .buildMotion s = .next { s with refused := s.refused ++ [.notSetUp] })

/-! ### Pulse Timing Transcoder, encode -/

/-- R131, with its encoding (an operation without an operand, whatever stands on the operand lines
(notes/assumptions/6.md)), and R132: the pairs by their index. The refusal of another `FLEN` (R133) is the spec's own
decision D27 (notes/assumptions/21.md), the trailing pair after the second repetition its D35
(notes/assumptions/19.md). The refusal before SETUP (R255(b)) is the spec's own decision D23, its mark the model's
(notes/assumptions/10.md). -/
def Obligations.EncodeLaysOutBothRepetitions : Prop :=
  (∀ x : Nat, decode (.request 0x6 x) = .ok .encode) ∧
  (∀ s : State, s.cfg.valid = true → 6 ≤ s.flen.toNat → s.flen.toNat ≤ 14 →
    ∃ t, exec .encode s = .next t ∧ t = { s with pb := t.pb, plen := t.plen } ∧
      t.plen.toNat = 16 * s.flen.toNat + 4 ∧
      (∀ start, (start = 0 ∨ start = 8 * s.flen.toNat + 2) →
        t.pb[start]? = some ⟨4380, 4370⟩ ∧
        (∀ k < 8 * s.flen.toNat, t.pb[start + 1 + k]? =
          some (if (s.fb.read (k / 8)).getLsbD (7 - k % 8) then ⟨540, 1620⟩ else ⟨540, 540⟩)) ∧
        t.pb[start + 8 * s.flen.toNat + 1]? = some ⟨540, 5480⟩) ∧
      (∀ k, 16 * s.flen.toNat + 4 ≤ k → t.pb[k]? = s.pb[k]?)) ∧
  (∀ s : State, s.cfg.valid = true → (s.flen.toNat < 6 ∨ 14 < s.flen.toNat) →
    exec .encode s = .next { s with refused := s.refused ++ [.noFrame] }) ∧
  (∀ s : State, s.cfg.valid = false → exec .encode s = .next { s with refused := s.refused ++ [.notSetUp] })

/-- R284: what the encoded train of a frame with `ones` one-bits lasts, per transmission of two repetitions. -/
def Obligations.TransmissionLastsAsTheSpecCounts : Prop :=
  ∀ s t : State, s.cfg.valid = true → 6 ≤ s.flen.toNat → s.flen.toNat ≤ 14 → exec .encode s = .next t →
    let ones := (List.range (8 * s.flen.toNat)).countP fun k => (s.fb.read (k / 8)).getLsbD (7 - k % 8)
    ((t.pb.take t.plen.toNat).map fun p => p.mark.toNat + p.space.toNat).sum =
      2 * (14770 + 1080 * (8 * s.flen.toNat) + 1080 * ones)

/-! ### Pulse Timing Transcoder, decode -/

/-- R222 on the four symbols: the pair at the cursor is consumed if both durations are near, else nothing changes. That a
mismatch consumes nothing is the spec's own decision D13 (U2), unsafe for a Receiver that does consume
(notes/assumptions/17.md); that a symbol is an instruction is the model's reading (notes/assumptions/9.md). -/
def Obligations.SymbolConsumesOneMatchingPair : Prop :=
  ∀ (s : State) (i : Instr) (m w : Nat),
    (i, m, w) ∈ [(Instr.hdr, 4380, 4370), (.bit0, 540, 540), (.bit1, 540, 1620), (.trail, 540, 5480)] →
    (∀ c, s.cap[s.cur]? = some c → near s.params c.mark m = true → near s.params c.space w = true →
      exec i s = .next { s with cur := s.cur + 1 }) ∧
    (∀ c, s.cap[s.cur]? = some c → (near s.params c.mark m = false ∨ near s.params c.space w = false) →
      exec i s = .next s) ∧
    (s.cap.length ≤ s.cur → exec i s = .next s)

/-- R136, with its encoding (R90; that no operand is read, whatever stands on the operand lines, is the model's choice,
notes/assumptions/6.md), R137, R139, R140 and R248: the outcome of DECODE from the pairs of the capture, failure by
failure in the order of the checks. The conditions of the clauses exclude one another. What a failure leaves in `FB`
and in the cursor is unspecified (R143, D17, notes/assumptions/4.md). Further clauses rest on the spec's own
decisions: `BIT1` is asked for before `BIT0` and a mismatch consumes nothing (D13, unsafe for a Receiver that does
consume, notes/assumptions/17.md); the header bytes are not compared (D12), the trailing pair and a second repetition
are not asked for (D15), the length bound does not wrap (D16) and `DSTAT.cause` is added (D20; these four
notes/assumptions/19.md). The refusal before SETUP (R255(b)) is D23, its mark the model's (notes/assumptions/10.md). -/
def Obligations.DecodeReportsTheFirstFailure : Prop :=
  (∀ x : Nat, decode (.request 0x7 x) = .ok .decode) ∧
  (∀ s : State, s.cfg.valid = false → exec .decode s = .next { s with refused := s.refused ++ [.notSetUp] }) ∧
  ∀ s : State, s.cfg.valid = true →
    let n := (s.frameByte 2).toNat
    let headerGood := s.frameByte 3 = s.frameByte 0 ^^^ s.frameByte 1 ^^^ s.frameByte 2
    ∃ t, exec .decode s = .next t ∧
      (¬ s.headerAtCursor → s.FailedFrom .timing t) ∧
      (s.headerAtCursor → ¬ s.bitsReadable 32 → s.FailedFrom .timing t) ∧
      (s.headerAtCursor → s.bitsReadable 32 → ¬ headerGood → s.FailedFrom .headerSum t) ∧
      (s.headerAtCursor → s.bitsReadable 32 → headerGood → 8 < n → s.FailedFrom .length t) ∧
      (s.headerAtCursor → s.bitsReadable 32 → headerGood → n ≤ 8 → ¬ s.bitsReadable (8 * (6 + n)) →
        s.FailedFrom .timing t) ∧
      (s.headerAtCursor → headerGood → n ≤ 8 → s.bitsReadable (8 * (6 + n)) →
        s.frameByte (5 + n) ≠ s.frameXor 4 (n + 1) → s.FailedFrom .payloadSum t) ∧
      (s.headerAtCursor → headerGood → n ≤ 8 → s.bitsReadable (8 * (6 + n)) →
        s.frameByte (5 + n) = s.frameXor 4 (n + 1) →
        t = { s with fb := t.fb, flen := t.flen, cur := s.cur + (1 + 8 * (6 + n)),
                     dstat := { ok := true, cause := .none } } ∧
        t.flen.toNat = 6 + n ∧ (∀ a, a < 6 + n → t.fb.read a = s.frameByte a) ∧
        (∀ a, 6 + n ≤ a → t.fb.read a = 0))

/-- R142. -/
def Obligations.EncodedFrameDecodesToItself : Prop :=
  ∀ (s t : State) (more : List MeasuredPair) (start : Nat), s.params.wellFormed = true → s.cfg.valid = true →
    s.fb.holdsFrame s.flen.toNat → exec .encode s = .next t →
    (start = 0 ∨ start = 8 * s.flen.toNat + 2) →
    let captured := { t with cap := (t.pb.take t.plen.toNat).map PulsePair.measured ++ more, cur := start }
    ∃ u, exec .decode captured = .next u ∧
      u = { captured with fb := u.fb, cur := start + (1 + 8 * s.flen.toNat),
                          dstat := { ok := true, cause := .none } } ∧
      u.flen = s.flen ∧ (∀ a, a < s.flen.toNat → u.fb.read a = s.fb.read a) ∧
      (∀ a, s.flen.toNat ≤ a → u.fb.read a = 0)

/-- R7(f) and R137: under well-formed parameters no pair is both a one and a zero, and exact durations match. -/
def Obligations.NoPairIsBothOneAndZero : Prop :=
  ∀ (p : Params) (cap : List MeasuredPair) (k : Nat), p.wellFormed = true →
    ¬ (pairNear p cap k 540 1620 = true ∧ pairNear p cap k 540 540 = true) ∧
    (cap[k]? = some ⟨540, 1620⟩ → capturedBit p cap k = some true) ∧
    (cap[k]? = some ⟨540, 540⟩ → capturedBit p cap k = some false)

/-! ### Frame Decoder and State Mapper -/

/-- R201 with the publication of R204. The order of the tests, which shows only if two codes are equal, is the spec's own
decision D32 (notes/assumptions/19.md). -/
def Obligations.MapFrameMapsMotion : Prop :=
  ∀ s : State, s.cfg.valid = true → s.flen ≠ 0 → s.fb.read 4 = 0x21 →
    let c : Nibble := (s.fb.read 5).setWidth 4
    let swing : Swing :=
      if c = s.swc.both then .both else if c = s.swc.vertical then .vertical
      else if c = s.swc.horizontal then .horizontal else .off
    exec .mapFrame s = .next { s with
      out := { s.out with swing := swing }
      snap := { s.snap with swing := swing }
      log := s.log ++ [.publish { s.out with swing := swing }] }

/-- R202 with the publication of R204. -/
def Obligations.MapFrameMapsDefault : Prop :=
  ∀ s : State, s.cfg.valid = true → s.flen ≠ 0 → s.fb.read 4 = 0x01 →
    let codes := s.params.modeCode
    let fans := s.params.fanCode
    let m : Nibble := (s.fb.read 6).setWidth 4
    let f : Nibble := (s.fb.read 6 >>> 4).setWidth 4
    let mode : Mode :=
      if m = codes.off then .off else if m = codes.heat then .heat else if m = codes.cool then .cool
      else if m = codes.fanOnly then .fanOnly else if m = codes.dry then .dry else .auto
    let fan : Fan :=
      if f = fans.quiet then .quiet else if f = fans.level1 then .level1 else if f = fans.level2 then .level2
      else if f = fans.level3 then .level3 else if f = fans.level4 then .level4 else if f = fans.level5 then .level5
      else .auto
    let out : Thermo :=
      { s.out with mode := mode, fan := fan, temp := (s.fb.read 5 >>> 4) + BitVec.ofNat 8 s.params.tempMin }
    exec .mapFrame s = .next { s with
      out := out
      snap := { s.snap with mode := mode, fan := fan }
      log := s.log ++ [.publish out] }

/-- R203 with the publication of R204, and the refusal without a frame (R200). That a command the block does not interpret
is published, once, is the spec's own decision D19, unsafe (notes/assumptions/19.md). The refusal is its D27
(notes/assumptions/10.md). -/
def Obligations.MapFrameIgnoresOtherCommands : Prop :=
  (∀ s : State, s.cfg.valid = true → s.flen ≠ 0 → s.fb.read 4 ≠ 0x21 → s.fb.read 4 ≠ 0x01 →
    exec .mapFrame s = .next { s with log := s.log ++ [.publish s.out] }) ∧
  (∀ s : State, s.cfg.valid = true → s.flen = 0 →
    exec .mapFrame s = .next { s with refused := s.refused ++ [.noFrame] })

/-- R207: a decoded temperature lies in `TEMP_MIN .. TEMP_MIN + 15` and is not clamped to `TEMP_MAX`. -/
def Obligations.DecodedTemperatureIsNotClamped : Prop :=
  ∀ s : State, s.params.wellFormed = true → s.cfg.valid = true → s.flen ≠ 0 → s.fb.read 4 = 0x01 →
    ∃ t, exec .mapFrame s = .next t ∧ t.out.temp.toNat = s.params.tempMin + (s.fb.read 5).toNat / 16 ∧
      t.out.temp.toNat ≤ s.params.tempMin + 15

/-- R205, with its encoding: an operation without an operand, whatever stands on the operand lines
(notes/assumptions/6.md). The publication of every successful reception is R204's; for a command the block does not
interpret it is the spec's own decision D19, unsafe (notes/assumptions/19.md). The refusal before SETUP (R255(b)) is
the spec's own decision D23, its mark the model's (notes/assumptions/10.md). -/
def Obligations.ReceiveIsDecodeThenMap : Prop :=
  (∀ x : Nat, decode (.request 0xA x) = .ok .receive) ∧
  (∀ s : State, s.cfg.valid = true →
    ∃ u t, exec .decode s = .next u ∧ exec .receive s = .next t ∧
      (u.dstat.ok = true → exec .mapFrame u = .next t ∧ t.publog = s.publog ++ [t.out]) ∧
      (u.dstat.ok = false → t = u ∧ t.out = s.out ∧ t.snap = s.snap ∧ t.log = s.log) ∧
      t.dstat = u.dstat ∧ t.txlog = s.txlog) ∧
  (∀ s : State, s.cfg.valid = false → exec .receive s = .next { s with refused := s.refused ++ [.notSetUp] })

/-- R249, R250: a failed decode or reception publishes nothing and writes neither `OUT` nor `SNAP`. `DSTAT.cause` is the
spec's own addition (D20, notes/assumptions/19.md); `FB` and the cursor are unspecified then (D17,
notes/assumptions/4.md). -/
def Obligations.FailedDecodePublishesNothing : Prop :=
  ∀ s t : State, s.cfg.valid = true → (exec .decode s = .next t ∨ exec .receive s = .next t) → t.dstat.ok = false →
    t.dstat.cause ≠ .none ∧ s.FailedFrom t.dstat.cause t

/-- The source's two corruption properties (R242, R244): one flipped bit in the train of a valid frame. -/
def Obligations.CorruptedFrameIsRejectedAtItsStage : Prop :=
  ∀ (s : State) (bytes : List Byte) (i : Instr) (a k : Nat), s.params.wellFormed = true → s.cfg.valid = true →
    decode (.frame bytes) = .ok i → a < bytes.length → k < 8 →
    let bad := bytes.set a (bytes.getD a 0 ^^^ BitVec.twoPow 8 k)
    let captured := { s with cap := (train bad).map PulsePair.measured, cur := 0 }
    ∃ t, exec .receive captured = .next t ∧
      (a < 4 → captured.FailedFrom .headerSum t) ∧ (4 ≤ a → captured.FailedFrom .payloadSum t)

/-- R202, R206 on a received frame with command 0x01 and any payload of 0 to 8 bytes: what is read from beyond the payload
is checksum_2 or 0x00. Those reads are the spec's own decision D18, unsafe (notes/assumptions/18.md); that a frame is
an instruction is the model's reading (notes/assumptions/8.md). That the header bytes are not compared is the spec's
own decision D12 (notes/assumptions/19.md). -/
def Obligations.ReceivedDefaultFrameSetsState : Prop :=
  ∀ (s : State) (b : FrameBody), s.params.wellFormed = true → s.cfg.valid = true → b.payload.length ≤ 8 →
    let bytes := frameBytes 0x01 b
    let mode := modeOfCode s.params.modeCode ((bytes.getD 6 0).setWidth 4)
    let fan := fanOfCode s.params.fanCode ((bytes.getD 6 0 >>> 4).setWidth 4)
    ∃ t, exec (.defaultFrame b) s = .next t ∧
      t.out = { mode := mode, fan := fan, temp := (bytes.getD 5 0 >>> 4) + BitVec.ofNat 8 s.params.tempMin,
                swing := s.out.swing } ∧
      t.snap = { s.snap with mode := mode, fan := fan } ∧
      t.log = s.log ++ [.publish t.out] ∧ t.dstat = { ok := true, cause := .none } ∧
      t.flen.toNat = 6 + b.payload.length ∧ (∀ a, t.fb.read a = bytes.getD a 0) ∧
      t = { s with out := t.out, snap := t.snap, log := t.log, dstat := t.dstat, flen := t.flen, fb := t.fb,
                   cap := t.cap, cur := t.cur }

/-- R201, R206 on a received frame with command 0x21 and any payload of 0 to 8 bytes. Those reads are the spec's own
decision D18, unsafe (notes/assumptions/18.md); that a frame is an instruction is the model's reading
(notes/assumptions/8.md). That the header bytes are not compared is the spec's own decision D12
(notes/assumptions/19.md). -/
def Obligations.ReceivedMotionFrameSetsSwing : Prop :=
  ∀ (s : State) (b : FrameBody), s.params.wellFormed = true → s.cfg.valid = true → b.payload.length ≤ 8 →
    let bytes := frameBytes 0x21 b
    let swing := swingOfCode s.swc ((bytes.getD 5 0).setWidth 4)
    ∃ t, exec (.motionFrame b) s = .next t ∧
      t.out = { s.out with swing := swing } ∧ t.snap = { s.snap with swing := swing } ∧
      t.log = s.log ++ [.publish t.out] ∧ t.dstat = { ok := true, cause := .none } ∧
      t.flen.toNat = 6 + b.payload.length ∧ (∀ a, t.fb.read a = bytes.getD a 0) ∧
      t = { s with out := t.out, snap := t.snap, log := t.log, dstat := t.dstat, flen := t.flen, fb := t.fb,
                   cap := t.cap, cur := t.cur }

/-- R83, R84, R203 on a received frame with any other command: success, no state change, one `Publish`. That publication
of an unchanged `OUT` is the spec's own decision D19, unsafe (notes/assumptions/19.md); that a frame is an instruction
is the model's reading (notes/assumptions/8.md). That the header bytes are not compared is the spec's own decision D12
(notes/assumptions/19.md). -/
def Obligations.ReceivedUnknownCommandChangesNoState : Prop :=
  ∀ (s : State) (i : Instr) (command : Byte) (b : FrameBody), s.params.wellFormed = true → s.cfg.valid = true →
    b.payload.length ≤ 8 →
    ((i = .timerFrame b ∧ command = 0x03) ∨ (i = .powerFrame b ∧ command = 0x09) ∨
      (i = .comfortSleepFrame b ∧ command = 0x0B) ∨
      (i = .otherFrame command b ∧ command ≠ 0x01 ∧ command ≠ 0x21)) →
    ∃ t, exec i s = .next t ∧
      t.log = s.log ++ [.publish s.out] ∧ t.dstat = { ok := true, cause := .none } ∧
      t.flen.toNat = 6 + b.payload.length ∧ (∀ a, t.fb.read a = (frameBytes command b).getD a 0) ∧
      t = { s with log := t.log, dstat := t.dstat, flen := t.flen, fb := t.fb, cap := t.cap, cur := t.cur }

/-- R208, the state half of the round trip, with R169 for unrecognised values: a default frame built from one desired
state and received while the host holds another. That an unrecognised fan comes back as auto rests on the code it is
sent as, the spec's own decision D8, unsafe (notes/assumptions/19.md). That 22 is not clamped is its D30
(notes/assumptions/19.md). -/
def Obligations.BuiltStateIsReceivedBack : Prop :=
  ∀ (s b e : State) (other : Thermo), s.params.wellFormed = true → s.cfg.valid = true →
    exec .buildDefault s = .next b → exec .encode b = .next e →
    ∃ t, exec .receive { e with out := other, cap := (e.pb.take e.plen.toNat).map PulsePair.measured, cur := 0 } =
        .next t ∧
      t.dstat = { ok := true, cause := .none } ∧
      t.out.mode = (if s.out.mode = .unrecognised6 ∨ s.out.mode = .unrecognised7 then .auto else s.out.mode) ∧
      t.out.fan = (if s.out.fan = .unrecognised7 then .auto else s.out.fan) ∧
      t.out.temp.toNat = (if s.out.mode = .fanOnly then 22
        else max s.params.tempMin (min s.out.temp.toNat s.params.tempMax)) ∧
      t.out.swing = other.swing ∧ t.snap = { s.snap with mode := t.out.mode, fan := t.out.fan }

/-- The round trip of swing through a motion frame, with R169 for the four unrecognised swings, when `SWC` holds the codes
of the variant (R27). -/
def Obligations.BuiltSwingIsReceivedBack : Prop :=
  ∀ (s b e : State) (other : Thermo), s.params.wellFormed = true → s.cfg.valid = true → s.variantResolved →
    exec .buildMotion s = .next b → exec .encode b = .next e →
    ∃ t, exec .receive { e with out := other, cap := (e.pb.take e.plen.toNat).map PulsePair.measured, cur := 0 } =
        .next t ∧
      t.dstat = { ok := true, cause := .none } ∧
      t.out = { other with
        swing := if s.out.swing ∈ [Swing.off, .vertical, .horizontal, .both] then s.out.swing else .vertical } ∧
      t.snap = { s.snap with swing := t.out.swing }

/-- R255(b) on a received frame: the Receiver has it, and the request to receive it is refused before SETUP. The refusal
is the spec's own decision D23 (notes/assumptions/10.md). -/
def Obligations.ReceivedFrameIsRefusedBeforeSetup : Prop :=
  ∀ (s : State) (i : Instr) (bytes : List Byte), s.cfg.valid = false → encode i = .frame bytes →
    exec i s = .next { s with
      cap := (train bytes).map PulsePair.measured, cur := 0, refused := s.refused ++ [.notSetUp] }

/-! ### State Diff Controller -/

/-- R181 to R187: which frames go out and in which order with the override's `Publish`, and what `OUT`, `SNAP`, `FB` and
`FLEN` are at the end. `d` and `m` are the states that BUILD_DEFAULT and ENCODE, BUILD_MOTION and ENCODE give. Three
clauses are the spec's own decisions, not the source's: the place of that `Publish` between the two transmissions
(D24, notes/assumptions/16.md), the override whenever a default frame goes out from `SNAP.mode` = off (D28) and the
unclamped request in `SNAP.temp` (D29, both notes/assumptions/19.md). The Transmitter completes the calls of the cycle
(R221, D25); `BlockedTransmitterNeverReleasesTheCycle` says what happens if it does not. The refusal before SETUP
(R255(b)) is D23, its mark the model's (notes/assumptions/10.md). -/
def Obligations.TransmitStateSendsWhatChanged : Prop :=
  (∀ s : State, s.cfg.valid = false →
    exec .transmitState s = .next { s with refused := s.refused ++ [.notSetUp] }) ∧
  ∀ s : State, s.cfg.valid = true → s.waiting = none → s.completesCalls 2 →
    ∃ sendDefault sendMotion : Bool, ∃ out : Thermo, ∃ bd d bm m t : State,
      (sendDefault = true ↔
        s.out.mode ≠ s.snap.mode ∨ s.out.fan ≠ s.snap.fan ∨ s.out.temp ≠ s.snap.temp) ∧
      out = (if sendDefault ∧ s.snap.mode = .off then { s.out with swing := .vertical } else s.out) ∧
      (sendMotion = true ↔ out.swing ≠ s.snap.swing) ∧
      exec .buildDefault s = .next bd ∧ exec .encode bd = .next d ∧
      exec .buildMotion { s with out := out } = .next bm ∧ exec .encode bm = .next m ∧
      exec .transmitState s = .next t ∧
      t.out = out ∧ t.snap = out ∧
      t.log = s.log
        ++ (if sendDefault then [.transmit ⟨38000, d.pb.take d.plen.toNat⟩] else [])
        ++ (if sendDefault ∧ s.snap.mode = .off then [.publish out] else [])
        ++ (if sendMotion then [.transmit ⟨38000, m.pb.take m.plen.toNat⟩] else []) ∧
      (sendMotion = true → (∀ a, t.fb.read a = m.fb.read a) ∧ t.flen = m.flen ∧ t.plen = m.plen ∧
        t.pb.take t.plen.toNat = m.pb.take m.plen.toNat) ∧
      (sendMotion = false → sendDefault = true →
        (∀ a, t.fb.read a = d.fb.read a) ∧ t.flen = d.flen ∧ t.plen = d.plen ∧ t.pb = d.pb) ∧
      (sendMotion = false → sendDefault = false →
        t.fb = s.fb ∧ t.flen = s.flen ∧ t.pb = s.pb ∧ t.plen = s.plen) ∧
      t.txCalls = s.txCalls.map (· - (sendDefault.toNat + sendMotion.toNat)) ∧
      t = { s with out := t.out, snap := t.snap, log := t.log, fb := t.fb, flen := t.flen, pb := t.pb, plen := t.plen,
                   txCalls := t.txCalls }

/-- R189(a), (c): after any cycle that has ended `SNAP` = `OUT`, and a second cycle does nothing at all. That `SNAP.temp`
is the unclamped request is the spec's own decision D29, unsafe (notes/assumptions/19.md). -/
def Obligations.SecondTransmitCycleSendsNothing : Prop :=
  ∀ s t : State, s.cfg.valid = true → s.waiting = none → exec .transmitState s = .next t → t.waiting = none →
    t.snap = t.out ∧ exec .transmitState t = .next t

/-- R183, R189(b): powering on from off. That `SNAP.temp` is the unclamped request is the spec's own decision D29, unsafe
(notes/assumptions/19.md). -/
def Obligations.OffToOnForcesVertical : Prop :=
  ∀ s : State, s.cfg.valid = true → s.waiting = none → s.completesCalls 2 → s.snap.mode = .off → s.out.mode ≠ .off →
    ∃ t, exec .transmitState s = .next t ∧ t.waiting = none ∧ t.out = { s.out with swing := .vertical } ∧ t.snap = t.out ∧
      t.publog = s.publog ++ [t.out] ∧
      (s.snap.swing ≠ .vertical → t.txlog.length = s.txlog.length + 2 ∧ t.fb.read 4 = 0x21 ∧
        t.fb.read 5 = s.swc.vertical.setWidth 8) ∧
      (s.snap.swing = .vertical → t.txlog.length = s.txlog.length + 1 ∧ t.fb.read 4 = 0x01)

/-- R282: a cycle whose first, or only, or second `Transmit` is not completed is left in that call, its entry in `TXLOG` and
`SNAP` as on entry; what came before it in the cycle has happened. A cycle with nothing to send makes no call. That the wait
is a field of the state is notes/assumptions/15.md; the place of the override's publication is D24
(notes/assumptions/16.md), its scope D28 (notes/assumptions/19.md). -/
def Obligations.BlockedTransmitterNeverReleasesTheCycle : Prop :=
  (∀ s : State, s.cfg.valid = true → s.waiting = none → s.txCalls = some 0 →
    (s.out.mode ≠ s.snap.mode ∨ s.out.fan ≠ s.snap.fan ∨ s.out.temp ≠ s.snap.temp) →
    ∃ bd d : State, exec .buildDefault s = .next bd ∧ exec .encode bd = .next d ∧
      exec .transmitState s = .next { d with
        log := s.log ++ [.transmit ⟨38000, d.pb.take d.plen.toNat⟩], waiting := some .defaultFrame }) ∧
  (∀ s : State, s.cfg.valid = true → s.waiting = none → s.txCalls = some 0 →
    s.out.mode = s.snap.mode → s.out.fan = s.snap.fan → s.out.temp = s.snap.temp → s.out.swing ≠ s.snap.swing →
    ∃ bm m : State, exec .buildMotion s = .next bm ∧ exec .encode bm = .next m ∧
      exec .transmitState s = .next { m with
        log := s.log ++ [.transmit ⟨38000, m.pb.take m.plen.toNat⟩], waiting := some .motionFrame }) ∧
  (∀ s : State, s.cfg.valid = true → s.waiting = none → s.txCalls = some 1 →
    (s.out.mode ≠ s.snap.mode ∨ s.out.fan ≠ s.snap.fan ∨ s.out.temp ≠ s.snap.temp) →
    let out : Thermo := if s.snap.mode = .off then { s.out with swing := .vertical } else s.out
    out.swing ≠ s.snap.swing →
    ∃ bd d bm m t : State, exec .buildDefault s = .next bd ∧ exec .encode bd = .next d ∧
      exec .buildMotion { d with out := out } = .next bm ∧ exec .encode bm = .next m ∧
      exec .transmitState s = .next t ∧ t.snap = s.snap ∧ t.txCalls = some 0 ∧
      t.log = s.log ++ [.transmit ⟨38000, d.pb.take d.plen.toNat⟩]
        ++ (if s.snap.mode = .off then [.publish out] else []) ++ [.transmit ⟨38000, m.pb.take m.plen.toNat⟩] ∧
      t = { m with log := t.log, txCalls := t.txCalls, waiting := some .motionFrame }) ∧
  (∀ s : State, s.cfg.valid = true → s.waiting = none → s.out = s.snap → exec .transmitState s = .next s)

/-- R282, R280: a cycle that waits in a `Transmit` has no timeout. Without a move, while the Transmitter still completes no
call, and through everything the host must not do then, which is refused (U8), it waits on and no register changes. RESET
abandons it (R270), and once the Transmitter completes the call it goes on where it waited and ends as it would have ended
had no call waited (R187, R221). That the wait is a field of the state is notes/assumptions/15.md. -/
def Obligations.WaitingCycleIsLeftByCompletionOrReset : Prop :=
  (∀ (s : State) (call : TransmitCall), s.params.wellFormed = true → s.waiting = some call →
    (s.port = [] → step s = .next s) ∧
    (∀ rest, s.port = .transmitter (some 0) :: rest → step s = .next { s with txCalls := some 0, port := rest }) ∧
    (∀ m rest, s.port = m :: rest →
      ((∃ w, m = .word w) ∨ (∃ mode fan temp swing, m = .set mode fan temp swing) ∨ ∃ pairs, m = .capture pairs) →
      step s = .next { s with port := rest, refused := s.refused ++ [.operationInProgress] }) ∧
    (∀ m rest, s.port = m :: rest → (m = .reset ∨ ∃ op, m = .resetDuring op) →
      ∃ t, step s = .next t ∧ t.waiting = none ∧ t.log = [] ∧ t.snap = s.params.snapReset ∧ t.txCalls = s.txCalls)) ∧
  (∀ (s t : State) (rest : List HostMove), s.params.wellFormed = true → s.cfg.valid = true → s.waiting = none →
    exec .transmitState s = .next t → t.waiting ≠ none →
    step { t with port := .transmitter none :: rest } = exec .transmitState { s with txCalls := none, port := rest })

/-! ### Encodings -/

/-- Decode and encode agree: no operand of a well-formed instruction is lost (R70, R87, R90). -/
def Obligations.DecodeOfEncodeIsTheInstruction : Prop :=
  ∀ i : Instr, i.wellFormed = true → decode (encode i) = .ok i

/-- The other direction: a frame or a pair that decodes has one encoding, which is it; a request decodes to what its
canonical word decodes to; and what decodes is well-formed. -/
def Obligations.DecodedWordsHaveOneMeaning : Prop :=
  ∀ (w : PortWord) (i : Instr), decode w = .ok i →
    i.wellFormed = true ∧ decode (encode i) = .ok i ∧
    (∀ bytes, w = .frame bytes → encode i = w) ∧ (∀ p, w = .pulse p → encode i = w) ∧
    (∀ op x, w = .request op x → ∃ y, encode i = .request op y)

/-- R82: of a well-formed frame of bytes the command byte alone selects the instruction. -/
def Obligations.CommandByteSelectsTheFrame : Prop :=
  ∀ (command : Byte) (b : FrameBody), b.payload.length ≤ 8 →
    decode (.frame (frameBytes command b)) = .ok
      (if command = 0x01 then .defaultFrame b else if command = 0x21 then .motionFrame b
        else if command = 0x03 then .timerFrame b else if command = 0x09 then .powerFrame b
        else if command = 0x0B then .comfortSleepFrame b else .otherFrame command b)

/-- Words written out from the spec's tables: all sixteen op codes of R90, all four symbols of R87, and frames of R77 and
R81. They decode to what they stand for, and the operations without an operand whose result statements give no word do so
whatever stands on the operand lines (notes/assumptions/6.md). -/
def Obligations.WrittenOutWordsDecode : Prop :=
  decode (.request 0x0 0x01) = .ok (.setup 1) ∧
  decode (.request 0x1 0x08) = .ok (.finalize 8) ∧
  decode (.request 0x2 0x00) = .ok .validateHeader ∧
  decode (.request 0x3 0x0E) = .ok (.validatePayload 14) ∧
  decode (.request 0x4 0x00) = .ok .buildDefault ∧
  decode (.request 0x5 0x00) = .ok .buildMotion ∧
  decode (.request 0x6 0x00) = .ok .encode ∧
  decode (.request 0x7 0x00) = .ok .decode ∧
  decode (.request 0x8 0x00) = .ok .mapFrame ∧
  decode (.request 0x9 0x00) = .ok .transmitState ∧
  decode (.request 0xA 0x00) = .ok .receive ∧
  decode (.request 0xB 0x00) = .ok .reservedOpB ∧
  decode (.request 0xC 0x00) = .ok .reservedOpC ∧
  decode (.request 0xD 0x00) = .ok .reservedOpD ∧
  decode (.request 0xE 0x00) = .ok .reservedOpE ∧
  decode (.request 0xF 0x00) = .ok .reservedOpF ∧
  decode (.frame [0xF2, 0x0D, 0x03, 0xFC, 0x01, 0x50, 0xC1, 0x00, 0x90]) =
    .ok (.defaultFrame ⟨0xF2, 0x0D, [0x50, 0xC1, 0x00]⟩) ∧
  decode (.frame [0xF2, 0x0D, 0x01, 0xFE, 0x21, 0x01, 0x20]) = .ok (.motionFrame ⟨0xF2, 0x0D, [0x01]⟩) ∧
  decode (.frame [0xF2, 0x0D, 0x03, 0xFD, 0x01, 0x50, 0xC1, 0x00, 0x90]) = .error .headerChecksum ∧
  decode (.pulse ⟨4380, 4370⟩) = .ok .hdr ∧ decode (.pulse ⟨540, 540⟩) = .ok .bit0 ∧
  decode (.pulse ⟨540, 1620⟩) = .ok .bit1 ∧ decode (.pulse ⟨540, 5480⟩) = .ok .trail ∧
  decode (.pulse ⟨540, 1000⟩) = .error .notASymbol ∧
  (∀ x : Nat,
    decode (.request 0x4 x) = .ok .buildDefault ∧ decode (.request 0x8 x) = .ok .mapFrame ∧
    decode (.request 0x9 x) = .ok .transmitState ∧ decode (.request 0xB x) = .ok .reservedOpB ∧
    decode (.request 0xC x) = .ok .reservedOpC ∧ decode (.request 0xD x) = .ok .reservedOpD ∧
    decode (.request 0xE x) = .ok .reservedOpE ∧ decode (.request 0xF x) = .ok .reservedOpF)

/-! ### The machine as a whole -/

/-- A step with no operation in progress runs the decoded instruction, with the word taken from the port. -/
def Obligations.StepRunsTheDecodedInstruction : Prop :=
  ∀ (s : State) (w : PortWord) (rest : List HostMove) (i : Instr), s.params.wellFormed = true →
    s.waiting = none → s.port = .word w :: rest → decode w = .ok i → step s = exec i { s with port := rest }

/-- Bytes put to the machine as a frame are received through their pulse train, whether or not they are a valid frame
(R205). -/
def Obligations.FrameBytesAreReceivedThroughTheirTrain : Prop :=
  ∀ (s : State) (bytes : List Byte) (rest : List HostMove), s.params.wellFormed = true → s.cfg.valid = true →
    s.waiting = none → s.port = .word (.frame bytes) :: rest →
    step s = exec .receive { s with port := rest, cap := (train bytes).map PulsePair.measured, cur := 0 }

/-- R7, R270: ill-formed parameters are refused, and with no move pending the block is idle. -/
def Obligations.StepIsIdleOrRefusesParameters : Prop :=
  (∀ s : State, s.params.wellFormed = false → step s = .refused .illFormedParameters) ∧
  (∀ s : State, s.params.wellFormed = true → s.port = [] → step s = .next s)

/-- Every step of a machine with well-formed parameters answers a next state, whatever word, frame or pair is given (R252,
R254), and only a transmit cycle that has a frame to send and no Transmitter that completes the call begins to wait (R282).
That the wait is a field of the state is notes/assumptions/15.md. -/
def Obligations.EveryStepCompletesUnlessTransmitterBlocks : Prop :=
  ∀ s : State, s.params.wellFormed = true →
    ∃ t, step s = .next t ∧
      (s.waiting = none → t.waiting ≠ none →
        s.cfg.valid = true ∧ s.out ≠ s.snap ∧ ¬ s.completesCalls 2 ∧ t.txCalls = some 0 ∧ t.snap = s.snap ∧
        ∃ w rest, s.port = .word w :: rest ∧ decode w = .ok .transmitState)

/-- R270: what RESET leaves. Of what the spec leaves unspecified (`OUT`, `CFG.variant`, `SWC`, `PB`) nothing is said. The
values that RESET leaves are the spec's own decisions D21 and D22 (notes/assumptions/3.md). -/
def Obligations.ResetRestoresTheSpecifiedValues : Prop :=
  ∀ (s : State) (rest : List HostMove), s.params.wellFormed = true → s.port = .reset :: rest →
    ∃ t, step s = .next t ∧ t.cfg.valid = false ∧ (∀ a, t.fb.read a = 0) ∧ t.flen = 0 ∧ t.plen = 0 ∧
      t.dstat = { ok := false, cause := .none } ∧ t.snap = s.params.snapReset ∧ t.txlog = [] ∧ t.publog = [] ∧
      t.cap = s.cap ∧ t.cur = s.cur ∧ t.params = s.params ∧ t.port = rest ∧ t.waiting = none

/-- R270: RESET during an operation leaves what RESET leaves, but for the Receiver's cursor, which an abandoned decode has
moved within the capture or not at all. The values that RESET leaves are the spec's own decisions D21 and D22
(notes/assumptions/3.md). -/
def Obligations.ResetAbandonsTheOperation : Prop :=
  ∀ (s : State) (op : BitVec 4) (rest : List HostMove), s.params.wellFormed = true →
    s.port = .resetDuring op :: rest →
    ∃ t, step s = .next t ∧ t.cfg.valid = false ∧ (∀ a, t.fb.read a = 0) ∧ t.flen = 0 ∧ t.plen = 0 ∧
      t.dstat = { ok := false, cause := .none } ∧ t.snap = s.params.snapReset ∧ t.txlog = [] ∧ t.publog = [] ∧
      t.cap = s.cap ∧ t.params = s.params ∧ t.port = rest ∧ t.waiting = none ∧
      (op ≠ 0x7 → op ≠ 0xA → t.cur = s.cur) ∧
      (s.cur ≤ s.cap.length → s.cur ≤ t.cur ∧ t.cur ≤ s.cap.length)

/-- R35: the machine right after reset, for every parameter assignment. Of what the spec leaves unspecified nothing is
said. These values are the spec's own decisions D21 and D22 (notes/assumptions/3.md). -/
def Obligations.StateAfterResetIsTheSpecs : Prop :=
  ∀ p : Params, (State.resetWith p).cfg.valid = false ∧ (∀ a, (State.resetWith p).fb.read a = 0) ∧
    (State.resetWith p).flen = 0 ∧ (State.resetWith p).plen = 0 ∧
    (State.resetWith p).dstat = { ok := false, cause := .none } ∧ (State.resetWith p).snap = p.snapReset ∧
    (State.resetWith p).txlog = [] ∧ (State.resetWith p).publog = []

/-- R91, R11: `HOST.SET` writes the named fields in the encodings of the host interface, and nothing else. -/
def Obligations.HostSetWritesNamedFields : Prop :=
  ∀ (s : State) (rest : List HostMove) (mode fan swing : Option (BitVec 3)) (temp : Option Byte),
    s.params.wellFormed = true → s.waiting = none → s.port = .set mode fan temp swing :: rest →
    ∃ t, step s = .next t ∧ t = { s with out := t.out, port := rest } ∧
      t.out.mode.bits = mode.getD s.out.mode.bits ∧ t.out.fan.bits = fan.getD s.out.fan.bits ∧
      t.out.temp = temp.getD s.out.temp ∧ t.out.swing.bits = swing.getD s.out.swing.bits

/-- R91: `HOST.CAPTURE` gives the Receiver a new capture and rewinds its cursor, and nothing else. -/
def Obligations.HostCaptureRewindsTheCursor : Prop :=
  ∀ (s : State) (rest : List HostMove) (pairs : List MeasuredPair), s.params.wellFormed = true →
    s.waiting = none → s.port = .capture pairs :: rest → step s = .next { s with cap := pairs, cur := 0, port := rest }

/-- The invariant holds right after reset, for every parameter assignment, of which `State.reset` is the well-formed one
that the model chose (notes/assumptions/2.md). -/
def Obligations.InvariantHoldsAtReset : Prop :=
  (∀ p : Params, (State.resetWith p).Inv) ∧ State.reset = State.resetWith Config.p0 ∧ Config.p0.wellFormed = true

/-- The invariant is kept by every step, from every state that meets it: `FB` in canonical form and within its 14
offsets (R60), a valid frame in `FB` whenever `FLEN` is not 0 (R28, R200), `PLEN` within `PB` (R29), the cursor within
the capture (R32), cause 0 with a success (R31), `SWC` the codes of the variant (R26, R27), and a cycle waiting only after
`SETUP` and for a Transmitter that completes no call (R282). -/
def Obligations.StepKeepsTheInvariant : Prop :=
  ∀ s t : State, s.Inv → step s = .next t → t.Inv

/-- R34: no step writes the parameters. -/
def Obligations.ParametersNeverChange : Prop :=
  ∀ s t : State, step s = .next t → t.params = s.params

/-- R26, R27: once `SETUP` has run, only RESET writes the variant and the swing codes. -/
def Obligations.VariantIsReadOnlyAfterSetup : Prop :=
  ∀ s t : State, s.cfg.valid = true → step s = .next t → t.cfg ≠ s.cfg ∨ t.swc ≠ s.swc →
    ∃ rest, s.port = .reset :: rest ∨ ∃ op, s.port = .resetDuring op :: rest

/-- R23(c): only a transmit cycle, at once or resumed after a wait, or RESET writes `SNAP.temp`. -/
def Obligations.OnlyTransmitWritesSnapshotTemperature : Prop :=
  ∀ s t : State, step s = .next t → t.snap.temp ≠ s.snap.temp →
    ∃ rest, s.port = .reset :: rest ∨ (∃ op, s.port = .resetDuring op :: rest) ∨
      (∃ w, s.port = .word w :: rest ∧ decode w = .ok .transmitState) ∨
      (s.waiting ≠ none ∧ ∃ calls, s.port = .transmitter calls :: rest)

/-- R23(d): of the operations and the received frames, only TRANSMIT_STATE, MAP_FRAME, RECEIVE and the frames 0x01 and
0x21 write `SNAP`. -/
def Obligations.OnlyTransmitAndMappingWriteSnapshot : Prop :=
  ∀ (s t : State) (i : Instr), s.params.wellFormed = true → i.wellFormed = true → exec i s = .next t →
    t.snap ≠ s.snap →
    i ∈ [Instr.transmitState, .mapFrame, .receive] ∨ (∃ b, i = .defaultFrame b) ∨ (∃ b, i = .motionFrame b)

/-- R21: the block writes `OUT` only in the override, `OUT.swing` alone, and in the mapping. -/
def Obligations.OnlyOverrideAndMappingWriteOutwardState : Prop :=
  ∀ (s t : State) (i : Instr), s.params.wellFormed = true → i.wellFormed = true → exec i s = .next t →
    t.out ≠ s.out →
    (i = .transmitState ∧ t.out = { s.out with swing := .vertical }) ∨ i ∈ [Instr.mapFrame, .receive] ∨
      (∃ b, i = .defaultFrame b) ∨ (∃ b, i = .motionFrame b)

/-- R31: which operations write `DSTAT`. -/
def Obligations.OnlyChecksAndDecodesWriteStatus : Prop :=
  ∀ (s t : State) (i : Instr), exec i s = .next t →
    (i ∈ [Instr.buildDefault, .buildMotion, .encode, .mapFrame, .transmitState] ∨ (∃ dl, i = .finalize dl) ∨
      (∃ v, i = .setup v)) →
    t.dstat = s.dstat

/-- R209, R11: a mode, fan or swing that the mapping writes into `OUT` or `SNAP` is a recognised value. -/
def Obligations.MappingWritesRecognisedValues : Prop :=
  ∀ s t : State, s.cfg.valid = true → (exec .mapFrame s = .next t ∨ exec .receive s = .next t) →
    (t.out.mode ≠ s.out.mode → t.out.mode ≠ .unrecognised6 ∧ t.out.mode ≠ .unrecognised7) ∧
    (t.out.fan ≠ s.out.fan → t.out.fan ≠ .unrecognised7) ∧
    (t.out.swing ≠ s.out.swing → t.out.swing ∈ [Swing.off, .vertical, .horizontal, .both]) ∧
    (t.snap.mode ≠ s.snap.mode → t.snap.mode ≠ .unrecognised6 ∧ t.snap.mode ≠ .unrecognised7) ∧
    (t.snap.fan ≠ s.snap.fan → t.snap.fan ≠ .unrecognised7) ∧
    (t.snap.swing ≠ s.snap.swing → t.snap.swing ∈ [Swing.off, .vertical, .horizontal, .both])

/-- R186, R205, R230: a step adds at most three entries to the logs and takes none away, but for RESET; only
TRANSMIT_STATE transmits, at once or resumed after a wait, and what it transmits goes out at 38 kHz. -/
def Obligations.OnlyTransmitStateTransmits : Prop :=
  ∀ s t : State, step s = .next t →
    (∃ rest, s.port = .reset :: rest ∨ ∃ op, s.port = .resetDuring op :: rest) ∨
    (∃ added, t.log = s.log ++ added ∧ added.length ≤ 3 ∧
      ∀ x, Event.transmit x ∈ added → x.hz = 38000 ∧
        ((∃ w rest, s.port = .word w :: rest ∧ decode w = .ok .transmitState) ∨
          (s.waiting ≠ none ∧ ∃ calls rest, s.port = .transmitter calls :: rest)))
end

