-- ==== Sys2Proof/Laws/Memory.lean ====
section
/-! SUPPORT. The laws of the frame buffer: reads after writes, and the canonical form, which every operation keeps. -/

namespace Sys2Proof.Machine

@[simp] theorem Memory.read_nil (a : Nat) : Memory.read [] a = 0 := rfl

theorem Memory.read_cons (c : Host.Cell) (m : Memory) (a : Nat) :
    Memory.read (c :: m) a = if c.1 = a then c.2 else Memory.read m a := rfl

theorem Memory.read_of_forall_ne {m : Memory} {a : Nat} (h : ∀ c ∈ m, c.1 ≠ a) : m.read a = 0 := by
  induction m with
  | nil => rfl
  | cons c m ih =>
    rw [Memory.read_cons, if_neg (h c (by simp))]
    exact ih fun d hd => h d (by simp [hd])

theorem Memory.read_erase_same (m : Memory) (a : Nat) : (m.erase a).read a = 0 :=
  Memory.read_of_forall_ne fun c hc => by simpa using (List.mem_filter.mp hc).2

theorem Memory.read_erase_other {m : Memory} {a b : Nat} (h : b ≠ a) : (m.erase a).read b = m.read b := by
  induction m with
  | nil => rfl
  | cons c m ih =>
    simp only [Memory.erase, ne_eq, decide_not] at ih
    by_cases hc : c.1 = a
    · simp [Memory.erase, hc, Memory.read_cons, ih, Ne.symm h]
    · simp [Memory.erase, hc, Memory.read_cons, ih]

theorem Memory.read_insert_same (m : Memory) (a : Nat) (v : Byte) : (m.insert a v).read a = v := by
  induction m with
  | nil => simp [Memory.insert, Memory.read_cons]
  | cons c m ih =>
    unfold Memory.insert
    split
    · simp [Memory.read_cons]
    · split
      · simp [Memory.read_cons]
      · next h => rw [Memory.read_cons, if_neg (Ne.symm h), ih]

theorem Memory.read_insert_other {m : Memory} {a b : Nat} (v : Byte) (h : b ≠ a) :
    (m.insert a v).read b = m.read b := by
  induction m with
  | nil => simp [Memory.insert, Memory.read_cons, Ne.symm h]
  | cons c m ih =>
    unfold Memory.insert
    split
    · rw [Memory.read_cons, if_neg (Ne.symm h)]
    · split
      · next hc => simp [Memory.read_cons, ← hc, Ne.symm h]
      · simp [Memory.read_cons, ih]

/-- A read after a write to the same offset. -/
theorem Memory.read_write_same {m : Memory} {a : Nat} (v : Byte) (h : a < Config.maxFrame) :
    (m.write a v).read a = v := by
  unfold Memory.write
  rw [if_pos h]
  split
  · next hv => rw [Memory.read_erase_same, hv]
  · exact Memory.read_insert_same m a v

/-- A write leaves every other offset alone. -/
theorem Memory.read_write_other {m : Memory} {a b : Nat} (v : Byte) (h : b ≠ a) : (m.write a v).read b = m.read b := by
  unfold Memory.write
  split
  · split
    · exact Memory.read_erase_other h
    · exact Memory.read_insert_other v h
  · rfl

/-- Both at once, for an offset in the buffer. -/
theorem Memory.read_write {m : Memory} {a : Nat} (v : Byte) (b : Nat) (h : a < Config.maxFrame) :
    (m.write a v).read b = if b = a then v else m.read b := by
  split
  · next hb => rw [hb, Memory.read_write_same v h]
  · next hb => exact Memory.read_write_other v hb

/-! ### The canonical form -/

theorem Memory.wf_nil : Memory.wf [] := ⟨.nil, by simp⟩

theorem Memory.wf_erase {m : Memory} (a : Nat) (h : m.wf) : (m.erase a).wf :=
  ⟨h.1.filter _, fun c hc => h.2 c (List.mem_filter.mp hc).1⟩

theorem Memory.mem_insert {m : Memory} {a : Nat} {v : Byte} {c : Host.Cell} (h : c ∈ m.insert a v) :
    c = (a, v) ∨ c ∈ m := by
  induction m with
  | nil => simpa [Memory.insert] using h
  | cons d m ih =>
    unfold Memory.insert at h
    split at h
    · simpa using h
    · split at h
      · rcases List.mem_cons.mp h with h | h
        · exact .inl h
        · exact .inr (by simp [h])
      · rcases List.mem_cons.mp h with h | h
        · exact .inr (by simp [h])
        · exact (ih h).imp id fun h => by simp [h]

theorem Memory.wf_insert {m : Memory} {a : Nat} {v : Byte} (ha : a < Config.maxFrame) (hv : v ≠ 0) (h : m.wf) :
    (m.insert a v).wf := by
  refine ⟨?_, fun c hc => ?_⟩
  · induction m with
    | nil => simp [Memory.insert]
    | cons d m ih =>
      have hm : Memory.wf m := ⟨(List.pairwise_cons.mp h.1).2, fun c hc => h.2 c (by simp [hc])⟩
      have hd := (List.pairwise_cons.mp h.1).1
      unfold Memory.insert
      split
      · next hlt =>
        refine List.pairwise_cons.mpr ⟨fun c hc => ?_, h.1⟩
        rcases List.mem_cons.mp hc with rfl | hc
        · exact hlt
        · exact lt_trans hlt (hd c hc)
      · split
        · next heq =>
          exact List.pairwise_cons.mpr ⟨fun c hc => by simpa [heq] using hd c hc, hm.1⟩
        · next hlt hne =>
          refine List.pairwise_cons.mpr ⟨fun c hc => ?_, ih hm⟩
          rcases Memory.mem_insert hc with rfl | hc
          · show d.1 < a
            omega
          · exact hd c hc
  · rcases Memory.mem_insert hc with rfl | hc
    · exact ⟨ha, hv⟩
    · exact h.2 c hc

/-- A write keeps the canonical form. -/
theorem Memory.wf_write {m : Memory} (a : Nat) (v : Byte) (h : m.wf) : (m.write a v).wf := by
  unfold Memory.write
  split
  · split
    · exact Memory.wf_erase a h
    · next ha hv => exact Memory.wf_insert ha hv h
  · exact h

theorem Memory.wf_foldl_write (l : List Nat) (f : Nat → Byte) {m : Memory} (h : m.wf) :
    (l.foldl (fun m a => m.write a (f a)) m).wf := by
  induction l generalizing m with
  | nil => exact h
  | cons a l ih => exact ih (Memory.wf_write a (f a) h)

/-- The buffer built from fourteen bytes is in canonical form. -/
theorem Memory.wf_ofFunction (f : Nat → Byte) : (Memory.ofFunction f).wf := Memory.wf_foldl_write _ f Memory.wf_nil

/-- Past the buffer a canonical memory reads as 0x00. -/
theorem Memory.read_of_maxFrame_le {m : Memory} {a : Nat} (h : m.wf) (ha : Config.maxFrame ≤ a) : m.read a = 0 :=
  Memory.read_of_forall_ne fun c hc => by have := (h.2 c hc).1; omega

/-- Two canonical memories that read alike are equal. -/
theorem Memory.ext_read {m n : Memory} (hm : m.wf) (hn : n.wf) (h : ∀ a, m.read a = n.read a) : m = n := by
  induction m generalizing n with
  | nil =>
    cases n with
    | nil => rfl
    | cons d n =>
      have := h d.1
      simp only [Memory.read_nil, Memory.read_cons, if_true] at this
      exact absurd this.symm (hn.2 d (by simp)).2
  | cons c m ih =>
    have hm' : Memory.wf m := ⟨(List.pairwise_cons.mp hm.1).2, fun c hc => hm.2 c (by simp [hc])⟩
    have hc0 := (hm.2 c (by simp)).2
    cases n with
    | nil =>
      have := h c.1
      simp only [Memory.read_nil, Memory.read_cons, if_true] at this
      exact absurd this hc0
    | cons d n =>
      have hn' : Memory.wf n := ⟨(List.pairwise_cons.mp hn.1).2, fun c hc => hn.2 c (by simp [hc])⟩
      have hd0 := (hn.2 d (by simp)).2
      have hcm := (List.pairwise_cons.mp hm.1).1
      have hdn := (List.pairwise_cons.mp hn.1).1
      have hfst : c.1 = d.1 := by
        rcases lt_trichotomy c.1 d.1 with hlt | heq | hgt
        · have := h c.1
          simp only [Memory.read_cons, if_true] at this
          rw [if_neg (by omega), Memory.read_of_forall_ne fun e he => by have := hdn e he; omega] at this
          exact absurd this hc0
        · exact heq
        · have := h d.1
          simp only [Memory.read_cons, if_true] at this
          rw [if_neg (by omega), Memory.read_of_forall_ne fun e he => by have := hcm e he; omega] at this
          exact absurd this.symm hd0
      have hsnd : c.2 = d.2 := by simpa [Memory.read_cons, hfst] using h c.1
      have hcd : c = d := Prod.ext hfst hsnd
      subst hcd
      refine congrArg _ (ih hm' hn' fun a => ?_)
      by_cases ha : c.1 = a
      · rw [Memory.read_of_forall_ne fun e he => by have := hcm e he; omega,
          Memory.read_of_forall_ne fun e he => by have := hdn e he; omega]
      · simpa [Memory.read_cons, ha] using h a

@[simp] theorem Memory.length_bytes (m : Memory) (n : Nat) : (m.bytes n).length = n := by simp [Memory.bytes]

@[simp] theorem Memory.getElem_bytes (m : Memory) (n i : Nat) (h : i < (m.bytes n).length) :
    (m.bytes n)[i] = m.read i := by simp [Memory.bytes]

end Sys2Proof.Machine
end

