-- ==== Sys2Proof/Laws/State.lean ====
section
/-! SUPPORT. What each shared operation does to each field of the state: one lemma a field, true by rfl but for a branch. -/

namespace Sys2Proof.Machine

/-! ### `refuse` -/

@[simp] theorem refuse_params (s : State) (w : RefusalMark) : (refuse s w).params = s.params := rfl
@[simp] theorem refuse_out (s : State) (w : RefusalMark) : (refuse s w).out = s.out := rfl
@[simp] theorem refuse_snap (s : State) (w : RefusalMark) : (refuse s w).snap = s.snap := rfl
@[simp] theorem refuse_cfg (s : State) (w : RefusalMark) : (refuse s w).cfg = s.cfg := rfl
@[simp] theorem refuse_swc (s : State) (w : RefusalMark) : (refuse s w).swc = s.swc := rfl
@[simp] theorem refuse_fb (s : State) (w : RefusalMark) : (refuse s w).fb = s.fb := rfl
@[simp] theorem refuse_flen (s : State) (w : RefusalMark) : (refuse s w).flen = s.flen := rfl
@[simp] theorem refuse_pb (s : State) (w : RefusalMark) : (refuse s w).pb = s.pb := rfl
@[simp] theorem refuse_plen (s : State) (w : RefusalMark) : (refuse s w).plen = s.plen := rfl
@[simp] theorem refuse_dstat (s : State) (w : RefusalMark) : (refuse s w).dstat = s.dstat := rfl
@[simp] theorem refuse_cap (s : State) (w : RefusalMark) : (refuse s w).cap = s.cap := rfl
@[simp] theorem refuse_cur (s : State) (w : RefusalMark) : (refuse s w).cur = s.cur := rfl
@[simp] theorem refuse_log (s : State) (w : RefusalMark) : (refuse s w).log = s.log := rfl
@[simp] theorem refuse_txCalls (s : State) (w : RefusalMark) : (refuse s w).txCalls = s.txCalls := rfl
@[simp] theorem refuse_waiting (s : State) (w : RefusalMark) : (refuse s w).waiting = s.waiting := rfl
@[simp] theorem refuse_refused (s : State) (w : RefusalMark) : (refuse s w).refused = s.refused ++ [w] := rfl
@[simp] theorem refuse_draws (s : State) (w : RefusalMark) : (refuse s w).draws = s.draws := rfl
@[simp] theorem refuse_port (s : State) (w : RefusalMark) : (refuse s w).port = s.port := rfl

/-! ### `publish` -/

@[simp] theorem publish_params (s : State) : (publish s).params = s.params := rfl
@[simp] theorem publish_out (s : State) : (publish s).out = s.out := rfl
@[simp] theorem publish_snap (s : State) : (publish s).snap = s.snap := rfl
@[simp] theorem publish_cfg (s : State) : (publish s).cfg = s.cfg := rfl
@[simp] theorem publish_swc (s : State) : (publish s).swc = s.swc := rfl
@[simp] theorem publish_fb (s : State) : (publish s).fb = s.fb := rfl
@[simp] theorem publish_flen (s : State) : (publish s).flen = s.flen := rfl
@[simp] theorem publish_pb (s : State) : (publish s).pb = s.pb := rfl
@[simp] theorem publish_plen (s : State) : (publish s).plen = s.plen := rfl
@[simp] theorem publish_dstat (s : State) : (publish s).dstat = s.dstat := rfl
@[simp] theorem publish_cap (s : State) : (publish s).cap = s.cap := rfl
@[simp] theorem publish_cur (s : State) : (publish s).cur = s.cur := rfl
@[simp] theorem publish_log (s : State) : (publish s).log = s.log ++ [.publish s.out] := rfl
@[simp] theorem publish_txCalls (s : State) : (publish s).txCalls = s.txCalls := rfl
@[simp] theorem publish_waiting (s : State) : (publish s).waiting = s.waiting := rfl
@[simp] theorem publish_refused (s : State) : (publish s).refused = s.refused := rfl
@[simp] theorem publish_draws (s : State) : (publish s).draws = s.draws := rfl
@[simp] theorem publish_port (s : State) : (publish s).port = s.port := rfl

/-! ### `raise` -/

@[simp] theorem raise_params (s : State) (c : Cause) : (raise s c).params = s.params := rfl
@[simp] theorem raise_out (s : State) (c : Cause) : (raise s c).out = s.out := rfl
@[simp] theorem raise_snap (s : State) (c : Cause) : (raise s c).snap = s.snap := rfl
@[simp] theorem raise_cfg (s : State) (c : Cause) : (raise s c).cfg = s.cfg := rfl
@[simp] theorem raise_swc (s : State) (c : Cause) : (raise s c).swc = s.swc := rfl
@[simp] theorem raise_flen (s : State) (c : Cause) : (raise s c).flen = 0 := rfl
@[simp] theorem raise_pb (s : State) (c : Cause) : (raise s c).pb = s.pb := rfl
@[simp] theorem raise_plen (s : State) (c : Cause) : (raise s c).plen = s.plen := rfl
@[simp] theorem raise_dstat (s : State) (c : Cause) : (raise s c).dstat = Dstat.failure c := rfl
@[simp] theorem raise_cap (s : State) (c : Cause) : (raise s c).cap = s.cap := rfl
@[simp] theorem raise_log (s : State) (c : Cause) : (raise s c).log = s.log := rfl
@[simp] theorem raise_txCalls (s : State) (c : Cause) : (raise s c).txCalls = s.txCalls := rfl
@[simp] theorem raise_waiting (s : State) (c : Cause) : (raise s c).waiting = s.waiting := rfl
@[simp] theorem raise_refused (s : State) (c : Cause) : (raise s c).refused = s.refused := rfl
@[simp] theorem raise_draws (s : State) (c : Cause) : (raise s c).draws = s.draws + 1 := rfl
@[simp] theorem raise_port (s : State) (c : Cause) : (raise s c).port = s.port := rfl

/-! ### `resetBlock` -/

@[simp] theorem resetBlock_params (s : State) : (resetBlock s).params = s.params := rfl
@[simp] theorem resetBlock_snap (s : State) : (resetBlock s).snap = s.params.snapReset := rfl
@[simp] theorem resetBlock_fb (s : State) : (resetBlock s).fb = [] := rfl
@[simp] theorem resetBlock_flen (s : State) : (resetBlock s).flen = 0 := rfl
@[simp] theorem resetBlock_plen (s : State) : (resetBlock s).plen = 0 := rfl
@[simp] theorem resetBlock_dstat (s : State) : (resetBlock s).dstat = ⟨false, .none⟩ := rfl
@[simp] theorem resetBlock_cap (s : State) : (resetBlock s).cap = s.cap := rfl
@[simp] theorem resetBlock_cur (s : State) : (resetBlock s).cur = s.cur := rfl
@[simp] theorem resetBlock_log (s : State) : (resetBlock s).log = [] := rfl
@[simp] theorem resetBlock_txCalls (s : State) : (resetBlock s).txCalls = s.txCalls := rfl
@[simp] theorem resetBlock_waiting (s : State) : (resetBlock s).waiting = none := rfl
@[simp] theorem resetBlock_refused (s : State) : (resetBlock s).refused = s.refused := rfl
@[simp] theorem resetBlock_draws (s : State) : (resetBlock s).draws = s.draws + 1 := rfl
@[simp] theorem resetBlock_port (s : State) : (resetBlock s).port = s.port := rfl
@[simp] theorem resetBlock_cfg_valid (s : State) : (resetBlock s).cfg.valid = false := rfl

/-! ### `hostSet` -/

@[simp] theorem hostSet_params (s : State) (m f : Option (BitVec 3)) (t : Option Byte) (w : Option (BitVec 3)) : (hostSet s m f t w).params = s.params := rfl
@[simp] theorem hostSet_snap (s : State) (m f : Option (BitVec 3)) (t : Option Byte) (w : Option (BitVec 3)) : (hostSet s m f t w).snap = s.snap := rfl
@[simp] theorem hostSet_cfg (s : State) (m f : Option (BitVec 3)) (t : Option Byte) (w : Option (BitVec 3)) : (hostSet s m f t w).cfg = s.cfg := rfl
@[simp] theorem hostSet_swc (s : State) (m f : Option (BitVec 3)) (t : Option Byte) (w : Option (BitVec 3)) : (hostSet s m f t w).swc = s.swc := rfl
@[simp] theorem hostSet_fb (s : State) (m f : Option (BitVec 3)) (t : Option Byte) (w : Option (BitVec 3)) : (hostSet s m f t w).fb = s.fb := rfl
@[simp] theorem hostSet_flen (s : State) (m f : Option (BitVec 3)) (t : Option Byte) (w : Option (BitVec 3)) : (hostSet s m f t w).flen = s.flen := rfl
@[simp] theorem hostSet_pb (s : State) (m f : Option (BitVec 3)) (t : Option Byte) (w : Option (BitVec 3)) : (hostSet s m f t w).pb = s.pb := rfl
@[simp] theorem hostSet_plen (s : State) (m f : Option (BitVec 3)) (t : Option Byte) (w : Option (BitVec 3)) : (hostSet s m f t w).plen = s.plen := rfl
@[simp] theorem hostSet_dstat (s : State) (m f : Option (BitVec 3)) (t : Option Byte) (w : Option (BitVec 3)) : (hostSet s m f t w).dstat = s.dstat := rfl
@[simp] theorem hostSet_cap (s : State) (m f : Option (BitVec 3)) (t : Option Byte) (w : Option (BitVec 3)) : (hostSet s m f t w).cap = s.cap := rfl
@[simp] theorem hostSet_cur (s : State) (m f : Option (BitVec 3)) (t : Option Byte) (w : Option (BitVec 3)) : (hostSet s m f t w).cur = s.cur := rfl
@[simp] theorem hostSet_log (s : State) (m f : Option (BitVec 3)) (t : Option Byte) (w : Option (BitVec 3)) : (hostSet s m f t w).log = s.log := rfl
@[simp] theorem hostSet_txCalls (s : State) (m f : Option (BitVec 3)) (t : Option Byte) (w : Option (BitVec 3)) : (hostSet s m f t w).txCalls = s.txCalls := rfl
@[simp] theorem hostSet_waiting (s : State) (m f : Option (BitVec 3)) (t : Option Byte) (w : Option (BitVec 3)) : (hostSet s m f t w).waiting = s.waiting := rfl
@[simp] theorem hostSet_refused (s : State) (m f : Option (BitVec 3)) (t : Option Byte) (w : Option (BitVec 3)) : (hostSet s m f t w).refused = s.refused := rfl
@[simp] theorem hostSet_draws (s : State) (m f : Option (BitVec 3)) (t : Option Byte) (w : Option (BitVec 3)) : (hostSet s m f t w).draws = s.draws := rfl
@[simp] theorem hostSet_port (s : State) (m f : Option (BitVec 3)) (t : Option Byte) (w : Option (BitVec 3)) : (hostSet s m f t w).port = s.port := rfl

/-! ### `hostCapture` -/

@[simp] theorem hostCapture_params (s : State) (ps : List MeasuredPair) : (hostCapture s ps).params = s.params := rfl
@[simp] theorem hostCapture_out (s : State) (ps : List MeasuredPair) : (hostCapture s ps).out = s.out := rfl
@[simp] theorem hostCapture_snap (s : State) (ps : List MeasuredPair) : (hostCapture s ps).snap = s.snap := rfl
@[simp] theorem hostCapture_cfg (s : State) (ps : List MeasuredPair) : (hostCapture s ps).cfg = s.cfg := rfl
@[simp] theorem hostCapture_swc (s : State) (ps : List MeasuredPair) : (hostCapture s ps).swc = s.swc := rfl
@[simp] theorem hostCapture_fb (s : State) (ps : List MeasuredPair) : (hostCapture s ps).fb = s.fb := rfl
@[simp] theorem hostCapture_flen (s : State) (ps : List MeasuredPair) : (hostCapture s ps).flen = s.flen := rfl
@[simp] theorem hostCapture_pb (s : State) (ps : List MeasuredPair) : (hostCapture s ps).pb = s.pb := rfl
@[simp] theorem hostCapture_plen (s : State) (ps : List MeasuredPair) : (hostCapture s ps).plen = s.plen := rfl
@[simp] theorem hostCapture_dstat (s : State) (ps : List MeasuredPair) : (hostCapture s ps).dstat = s.dstat := rfl
@[simp] theorem hostCapture_cap (s : State) (ps : List MeasuredPair) : (hostCapture s ps).cap = ps := rfl
@[simp] theorem hostCapture_cur (s : State) (ps : List MeasuredPair) : (hostCapture s ps).cur = 0 := rfl
@[simp] theorem hostCapture_log (s : State) (ps : List MeasuredPair) : (hostCapture s ps).log = s.log := rfl
@[simp] theorem hostCapture_txCalls (s : State) (ps : List MeasuredPair) : (hostCapture s ps).txCalls = s.txCalls := rfl
@[simp] theorem hostCapture_waiting (s : State) (ps : List MeasuredPair) : (hostCapture s ps).waiting = s.waiting := rfl
@[simp] theorem hostCapture_refused (s : State) (ps : List MeasuredPair) : (hostCapture s ps).refused = s.refused := rfl
@[simp] theorem hostCapture_draws (s : State) (ps : List MeasuredPair) : (hostCapture s ps).draws = s.draws := rfl
@[simp] theorem hostCapture_port (s : State) (ps : List MeasuredPair) : (hostCapture s ps).port = s.port := rfl

/-! ### `finalize` -/

@[simp] theorem finalize_params (s : State) (dl : Nat) : (finalize s dl).params = s.params := rfl
@[simp] theorem finalize_out (s : State) (dl : Nat) : (finalize s dl).out = s.out := rfl
@[simp] theorem finalize_snap (s : State) (dl : Nat) : (finalize s dl).snap = s.snap := rfl
@[simp] theorem finalize_cfg (s : State) (dl : Nat) : (finalize s dl).cfg = s.cfg := rfl
@[simp] theorem finalize_swc (s : State) (dl : Nat) : (finalize s dl).swc = s.swc := rfl
@[simp] theorem finalize_flen (s : State) (dl : Nat) : (finalize s dl).flen = BitVec.ofNat 4 (6 + dl) := rfl
@[simp] theorem finalize_pb (s : State) (dl : Nat) : (finalize s dl).pb = s.pb := rfl
@[simp] theorem finalize_plen (s : State) (dl : Nat) : (finalize s dl).plen = s.plen := rfl
@[simp] theorem finalize_dstat (s : State) (dl : Nat) : (finalize s dl).dstat = s.dstat := rfl
@[simp] theorem finalize_cap (s : State) (dl : Nat) : (finalize s dl).cap = s.cap := rfl
@[simp] theorem finalize_cur (s : State) (dl : Nat) : (finalize s dl).cur = s.cur := rfl
@[simp] theorem finalize_log (s : State) (dl : Nat) : (finalize s dl).log = s.log := rfl
@[simp] theorem finalize_txCalls (s : State) (dl : Nat) : (finalize s dl).txCalls = s.txCalls := rfl
@[simp] theorem finalize_waiting (s : State) (dl : Nat) : (finalize s dl).waiting = s.waiting := rfl
@[simp] theorem finalize_refused (s : State) (dl : Nat) : (finalize s dl).refused = s.refused := rfl
@[simp] theorem finalize_draws (s : State) (dl : Nat) : (finalize s dl).draws = s.draws := rfl
@[simp] theorem finalize_port (s : State) (dl : Nat) : (finalize s dl).port = s.port := rfl

/-! ### `buildDefault` -/

@[simp] theorem buildDefault_params (s : State) : (buildDefault s).params = s.params := rfl
@[simp] theorem buildDefault_out (s : State) : (buildDefault s).out = s.out := rfl
@[simp] theorem buildDefault_snap (s : State) : (buildDefault s).snap = s.snap := rfl
@[simp] theorem buildDefault_cfg (s : State) : (buildDefault s).cfg = s.cfg := rfl
@[simp] theorem buildDefault_swc (s : State) : (buildDefault s).swc = s.swc := rfl
@[simp] theorem buildDefault_flen (s : State) : (buildDefault s).flen = 9 := rfl
@[simp] theorem buildDefault_pb (s : State) : (buildDefault s).pb = s.pb := rfl
@[simp] theorem buildDefault_plen (s : State) : (buildDefault s).plen = s.plen := rfl
@[simp] theorem buildDefault_dstat (s : State) : (buildDefault s).dstat = s.dstat := rfl
@[simp] theorem buildDefault_cap (s : State) : (buildDefault s).cap = s.cap := rfl
@[simp] theorem buildDefault_cur (s : State) : (buildDefault s).cur = s.cur := rfl
@[simp] theorem buildDefault_log (s : State) : (buildDefault s).log = s.log := rfl
@[simp] theorem buildDefault_txCalls (s : State) : (buildDefault s).txCalls = s.txCalls := rfl
@[simp] theorem buildDefault_waiting (s : State) : (buildDefault s).waiting = s.waiting := rfl
@[simp] theorem buildDefault_refused (s : State) : (buildDefault s).refused = s.refused := rfl
@[simp] theorem buildDefault_draws (s : State) : (buildDefault s).draws = s.draws := rfl
@[simp] theorem buildDefault_port (s : State) : (buildDefault s).port = s.port := rfl

/-! ### `buildMotion` -/

@[simp] theorem buildMotion_params (s : State) : (buildMotion s).params = s.params := rfl
@[simp] theorem buildMotion_out (s : State) : (buildMotion s).out = s.out := rfl
@[simp] theorem buildMotion_snap (s : State) : (buildMotion s).snap = s.snap := rfl
@[simp] theorem buildMotion_cfg (s : State) : (buildMotion s).cfg = s.cfg := rfl
@[simp] theorem buildMotion_swc (s : State) : (buildMotion s).swc = s.swc := rfl
@[simp] theorem buildMotion_flen (s : State) : (buildMotion s).flen = 7 := rfl
@[simp] theorem buildMotion_pb (s : State) : (buildMotion s).pb = s.pb := rfl
@[simp] theorem buildMotion_plen (s : State) : (buildMotion s).plen = s.plen := rfl
@[simp] theorem buildMotion_dstat (s : State) : (buildMotion s).dstat = s.dstat := rfl
@[simp] theorem buildMotion_cap (s : State) : (buildMotion s).cap = s.cap := rfl
@[simp] theorem buildMotion_cur (s : State) : (buildMotion s).cur = s.cur := rfl
@[simp] theorem buildMotion_log (s : State) : (buildMotion s).log = s.log := rfl
@[simp] theorem buildMotion_txCalls (s : State) : (buildMotion s).txCalls = s.txCalls := rfl
@[simp] theorem buildMotion_waiting (s : State) : (buildMotion s).waiting = s.waiting := rfl
@[simp] theorem buildMotion_refused (s : State) : (buildMotion s).refused = s.refused := rfl
@[simp] theorem buildMotion_draws (s : State) : (buildMotion s).draws = s.draws := rfl
@[simp] theorem buildMotion_port (s : State) : (buildMotion s).port = s.port := rfl

/-! ### `encodeFrame` -/

@[simp] theorem encodeFrame_params (s : State) : (encodeFrame s).params = s.params := rfl
@[simp] theorem encodeFrame_out (s : State) : (encodeFrame s).out = s.out := rfl
@[simp] theorem encodeFrame_snap (s : State) : (encodeFrame s).snap = s.snap := rfl
@[simp] theorem encodeFrame_cfg (s : State) : (encodeFrame s).cfg = s.cfg := rfl
@[simp] theorem encodeFrame_swc (s : State) : (encodeFrame s).swc = s.swc := rfl
@[simp] theorem encodeFrame_fb (s : State) : (encodeFrame s).fb = s.fb := rfl
@[simp] theorem encodeFrame_flen (s : State) : (encodeFrame s).flen = s.flen := rfl
@[simp] theorem encodeFrame_dstat (s : State) : (encodeFrame s).dstat = s.dstat := rfl
@[simp] theorem encodeFrame_cap (s : State) : (encodeFrame s).cap = s.cap := rfl
@[simp] theorem encodeFrame_cur (s : State) : (encodeFrame s).cur = s.cur := rfl
@[simp] theorem encodeFrame_log (s : State) : (encodeFrame s).log = s.log := rfl
@[simp] theorem encodeFrame_txCalls (s : State) : (encodeFrame s).txCalls = s.txCalls := rfl
@[simp] theorem encodeFrame_waiting (s : State) : (encodeFrame s).waiting = s.waiting := rfl
@[simp] theorem encodeFrame_refused (s : State) : (encodeFrame s).refused = s.refused := rfl
@[simp] theorem encodeFrame_draws (s : State) : (encodeFrame s).draws = s.draws := rfl
@[simp] theorem encodeFrame_port (s : State) : (encodeFrame s).port = s.port := rfl

/-! ### `awaitReturn` -/

@[simp] theorem awaitReturn_params (c : TransmitCall) (s : State) : (awaitReturn c s).params = s.params := by unfold awaitReturn; split <;> rfl
@[simp] theorem awaitReturn_out (c : TransmitCall) (s : State) : (awaitReturn c s).out = s.out := by unfold awaitReturn; split <;> rfl
@[simp] theorem awaitReturn_snap (c : TransmitCall) (s : State) : (awaitReturn c s).snap = s.snap := by unfold awaitReturn; split <;> rfl
@[simp] theorem awaitReturn_cfg (c : TransmitCall) (s : State) : (awaitReturn c s).cfg = s.cfg := by unfold awaitReturn; split <;> rfl
@[simp] theorem awaitReturn_swc (c : TransmitCall) (s : State) : (awaitReturn c s).swc = s.swc := by unfold awaitReturn; split <;> rfl
@[simp] theorem awaitReturn_fb (c : TransmitCall) (s : State) : (awaitReturn c s).fb = s.fb := by unfold awaitReturn; split <;> rfl
@[simp] theorem awaitReturn_flen (c : TransmitCall) (s : State) : (awaitReturn c s).flen = s.flen := by unfold awaitReturn; split <;> rfl
@[simp] theorem awaitReturn_pb (c : TransmitCall) (s : State) : (awaitReturn c s).pb = s.pb := by unfold awaitReturn; split <;> rfl
@[simp] theorem awaitReturn_plen (c : TransmitCall) (s : State) : (awaitReturn c s).plen = s.plen := by unfold awaitReturn; split <;> rfl
@[simp] theorem awaitReturn_dstat (c : TransmitCall) (s : State) : (awaitReturn c s).dstat = s.dstat := by unfold awaitReturn; split <;> rfl
@[simp] theorem awaitReturn_cap (c : TransmitCall) (s : State) : (awaitReturn c s).cap = s.cap := by unfold awaitReturn; split <;> rfl
@[simp] theorem awaitReturn_cur (c : TransmitCall) (s : State) : (awaitReturn c s).cur = s.cur := by unfold awaitReturn; split <;> rfl
@[simp] theorem awaitReturn_log (c : TransmitCall) (s : State) : (awaitReturn c s).log = s.log := by unfold awaitReturn; split <;> rfl
@[simp] theorem awaitReturn_refused (c : TransmitCall) (s : State) : (awaitReturn c s).refused = s.refused := by unfold awaitReturn; split <;> rfl
@[simp] theorem awaitReturn_draws (c : TransmitCall) (s : State) : (awaitReturn c s).draws = s.draws := by unfold awaitReturn; split <;> rfl
@[simp] theorem awaitReturn_port (c : TransmitCall) (s : State) : (awaitReturn c s).port = s.port := by unfold awaitReturn; split <;> rfl

/-! ### `transmit` -/

@[simp] theorem transmit_params (c : TransmitCall) (s : State) : (transmit c s).params = s.params := awaitReturn_params _ _
@[simp] theorem transmit_out (c : TransmitCall) (s : State) : (transmit c s).out = s.out := awaitReturn_out _ _
@[simp] theorem transmit_snap (c : TransmitCall) (s : State) : (transmit c s).snap = s.snap := awaitReturn_snap _ _
@[simp] theorem transmit_cfg (c : TransmitCall) (s : State) : (transmit c s).cfg = s.cfg := awaitReturn_cfg _ _
@[simp] theorem transmit_swc (c : TransmitCall) (s : State) : (transmit c s).swc = s.swc := awaitReturn_swc _ _
@[simp] theorem transmit_fb (c : TransmitCall) (s : State) : (transmit c s).fb = s.fb := awaitReturn_fb _ _
@[simp] theorem transmit_flen (c : TransmitCall) (s : State) : (transmit c s).flen = s.flen := awaitReturn_flen _ _
@[simp] theorem transmit_pb (c : TransmitCall) (s : State) : (transmit c s).pb = s.pb := awaitReturn_pb _ _
@[simp] theorem transmit_plen (c : TransmitCall) (s : State) : (transmit c s).plen = s.plen := awaitReturn_plen _ _
@[simp] theorem transmit_dstat (c : TransmitCall) (s : State) : (transmit c s).dstat = s.dstat := awaitReturn_dstat _ _
@[simp] theorem transmit_cap (c : TransmitCall) (s : State) : (transmit c s).cap = s.cap := awaitReturn_cap _ _
@[simp] theorem transmit_cur (c : TransmitCall) (s : State) : (transmit c s).cur = s.cur := awaitReturn_cur _ _
@[simp] theorem transmit_log (c : TransmitCall) (s : State) : (transmit c s).log = s.log ++ [.transmit ⟨38000, s.pb.take s.plen.toNat⟩] := awaitReturn_log _ _
@[simp] theorem transmit_refused (c : TransmitCall) (s : State) : (transmit c s).refused = s.refused := awaitReturn_refused _ _
@[simp] theorem transmit_draws (c : TransmitCall) (s : State) : (transmit c s).draws = s.draws := awaitReturn_draws _ _
@[simp] theorem transmit_port (c : TransmitCall) (s : State) : (transmit c s).port = s.port := awaitReturn_port _ _

/-! ### `recordSnapshot` -/

@[simp] theorem recordSnapshot_params (s : State) : (recordSnapshot s).params = s.params := rfl
@[simp] theorem recordSnapshot_out (s : State) : (recordSnapshot s).out = s.out := rfl
@[simp] theorem recordSnapshot_snap (s : State) : (recordSnapshot s).snap = s.out := rfl
@[simp] theorem recordSnapshot_cfg (s : State) : (recordSnapshot s).cfg = s.cfg := rfl
@[simp] theorem recordSnapshot_swc (s : State) : (recordSnapshot s).swc = s.swc := rfl
@[simp] theorem recordSnapshot_fb (s : State) : (recordSnapshot s).fb = s.fb := rfl
@[simp] theorem recordSnapshot_flen (s : State) : (recordSnapshot s).flen = s.flen := rfl
@[simp] theorem recordSnapshot_pb (s : State) : (recordSnapshot s).pb = s.pb := rfl
@[simp] theorem recordSnapshot_plen (s : State) : (recordSnapshot s).plen = s.plen := rfl
@[simp] theorem recordSnapshot_dstat (s : State) : (recordSnapshot s).dstat = s.dstat := rfl
@[simp] theorem recordSnapshot_cap (s : State) : (recordSnapshot s).cap = s.cap := rfl
@[simp] theorem recordSnapshot_cur (s : State) : (recordSnapshot s).cur = s.cur := rfl
@[simp] theorem recordSnapshot_log (s : State) : (recordSnapshot s).log = s.log := rfl
@[simp] theorem recordSnapshot_txCalls (s : State) : (recordSnapshot s).txCalls = s.txCalls := rfl
@[simp] theorem recordSnapshot_waiting (s : State) : (recordSnapshot s).waiting = s.waiting := rfl
@[simp] theorem recordSnapshot_refused (s : State) : (recordSnapshot s).refused = s.refused := rfl
@[simp] theorem recordSnapshot_draws (s : State) : (recordSnapshot s).draws = s.draws := rfl
@[simp] theorem recordSnapshot_port (s : State) : (recordSnapshot s).port = s.port := rfl

/-! ### `mapMotion` -/

@[simp] theorem mapMotion_params (s : State) : (mapMotion s).params = s.params := rfl
@[simp] theorem mapMotion_cfg (s : State) : (mapMotion s).cfg = s.cfg := rfl
@[simp] theorem mapMotion_swc (s : State) : (mapMotion s).swc = s.swc := rfl
@[simp] theorem mapMotion_fb (s : State) : (mapMotion s).fb = s.fb := rfl
@[simp] theorem mapMotion_flen (s : State) : (mapMotion s).flen = s.flen := rfl
@[simp] theorem mapMotion_pb (s : State) : (mapMotion s).pb = s.pb := rfl
@[simp] theorem mapMotion_plen (s : State) : (mapMotion s).plen = s.plen := rfl
@[simp] theorem mapMotion_dstat (s : State) : (mapMotion s).dstat = s.dstat := rfl
@[simp] theorem mapMotion_cap (s : State) : (mapMotion s).cap = s.cap := rfl
@[simp] theorem mapMotion_cur (s : State) : (mapMotion s).cur = s.cur := rfl
@[simp] theorem mapMotion_log (s : State) : (mapMotion s).log = s.log := rfl
@[simp] theorem mapMotion_txCalls (s : State) : (mapMotion s).txCalls = s.txCalls := rfl
@[simp] theorem mapMotion_waiting (s : State) : (mapMotion s).waiting = s.waiting := rfl
@[simp] theorem mapMotion_refused (s : State) : (mapMotion s).refused = s.refused := rfl
@[simp] theorem mapMotion_draws (s : State) : (mapMotion s).draws = s.draws := rfl
@[simp] theorem mapMotion_port (s : State) : (mapMotion s).port = s.port := rfl

/-! ### `mapDefault` -/

@[simp] theorem mapDefault_params (s : State) : (mapDefault s).params = s.params := rfl
@[simp] theorem mapDefault_cfg (s : State) : (mapDefault s).cfg = s.cfg := rfl
@[simp] theorem mapDefault_swc (s : State) : (mapDefault s).swc = s.swc := rfl
@[simp] theorem mapDefault_fb (s : State) : (mapDefault s).fb = s.fb := rfl
@[simp] theorem mapDefault_flen (s : State) : (mapDefault s).flen = s.flen := rfl
@[simp] theorem mapDefault_pb (s : State) : (mapDefault s).pb = s.pb := rfl
@[simp] theorem mapDefault_plen (s : State) : (mapDefault s).plen = s.plen := rfl
@[simp] theorem mapDefault_dstat (s : State) : (mapDefault s).dstat = s.dstat := rfl
@[simp] theorem mapDefault_cap (s : State) : (mapDefault s).cap = s.cap := rfl
@[simp] theorem mapDefault_cur (s : State) : (mapDefault s).cur = s.cur := rfl
@[simp] theorem mapDefault_log (s : State) : (mapDefault s).log = s.log := rfl
@[simp] theorem mapDefault_txCalls (s : State) : (mapDefault s).txCalls = s.txCalls := rfl
@[simp] theorem mapDefault_waiting (s : State) : (mapDefault s).waiting = s.waiting := rfl
@[simp] theorem mapDefault_refused (s : State) : (mapDefault s).refused = s.refused := rfl
@[simp] theorem mapDefault_draws (s : State) : (mapDefault s).draws = s.draws := rfl
@[simp] theorem mapDefault_port (s : State) : (mapDefault s).port = s.port := rfl

/-! ### `pushMove` -/

@[simp] theorem pushMove_params (m : HostMove) (s : State) : (pushMove m s).params = s.params := rfl
@[simp] theorem pushMove_out (m : HostMove) (s : State) : (pushMove m s).out = s.out := rfl
@[simp] theorem pushMove_snap (m : HostMove) (s : State) : (pushMove m s).snap = s.snap := rfl
@[simp] theorem pushMove_cfg (m : HostMove) (s : State) : (pushMove m s).cfg = s.cfg := rfl
@[simp] theorem pushMove_swc (m : HostMove) (s : State) : (pushMove m s).swc = s.swc := rfl
@[simp] theorem pushMove_fb (m : HostMove) (s : State) : (pushMove m s).fb = s.fb := rfl
@[simp] theorem pushMove_flen (m : HostMove) (s : State) : (pushMove m s).flen = s.flen := rfl
@[simp] theorem pushMove_pb (m : HostMove) (s : State) : (pushMove m s).pb = s.pb := rfl
@[simp] theorem pushMove_plen (m : HostMove) (s : State) : (pushMove m s).plen = s.plen := rfl
@[simp] theorem pushMove_dstat (m : HostMove) (s : State) : (pushMove m s).dstat = s.dstat := rfl
@[simp] theorem pushMove_cap (m : HostMove) (s : State) : (pushMove m s).cap = s.cap := rfl
@[simp] theorem pushMove_cur (m : HostMove) (s : State) : (pushMove m s).cur = s.cur := rfl
@[simp] theorem pushMove_log (m : HostMove) (s : State) : (pushMove m s).log = s.log := rfl
@[simp] theorem pushMove_txCalls (m : HostMove) (s : State) : (pushMove m s).txCalls = s.txCalls := rfl
@[simp] theorem pushMove_waiting (m : HostMove) (s : State) : (pushMove m s).waiting = s.waiting := rfl
@[simp] theorem pushMove_refused (m : HostMove) (s : State) : (pushMove m s).refused = s.refused := rfl
@[simp] theorem pushMove_draws (m : HostMove) (s : State) : (pushMove m s).draws = s.draws := rfl
@[simp] theorem pushMove_port (m : HostMove) (s : State) : (pushMove m s).port = m :: s.port := rfl

end Sys2Proof.Machine
end

