-- ==== Sys2Proof/Laws/Codes.lean ====
section
/-! SUPPORT. The code maps are inverse to each other where the parameters are well-formed (R169), the fields of a byte,
and the Receiver's tolerance (R7(f)). -/

namespace Sys2Proof.Machine

/-! ### Fields of a byte -/

@[simp] theorem highNibble_joinNibbles (h l : Nibble) : highNibble (joinNibbles h l) = h := by
  revert h l; decide

@[simp] theorem lowNibble_joinNibbles (h l : Nibble) : lowNibble (joinNibbles h l) = l := by
  revert h l; decide

theorem lowNibble_eq_setWidth (b : Byte) : lowNibble b = b.setWidth 4 := by revert b; decide

theorem highNibble_eq_shift (b : Byte) : highNibble b = (b >>> 4).setWidth 4 := by revert b; decide

theorem zext_highNibble (b : Byte) : (highNibble b).setWidth 8 = b >>> 4 := by revert b; decide

theorem joinNibbles_eq_or (h l : Nibble) : joinNibbles h l = h.setWidth 8 <<< 4 ||| l.setWidth 8 := by
  revert h l; decide

@[simp] theorem Mode.ofBits_bits (m : Mode) : Mode.ofBits m.bits = m := by cases m <;> rfl
@[simp] theorem Mode.bits_ofBits (b : BitVec 3) : (Mode.ofBits b).bits = b := by revert b; decide
@[simp] theorem Fan.ofBits_bits (f : Fan) : Fan.ofBits f.bits = f := by cases f <;> rfl
@[simp] theorem Fan.bits_ofBits (b : BitVec 3) : (Fan.ofBits b).bits = b := by revert b; decide
@[simp] theorem Swing.ofBits_bits (s : Swing) : Swing.ofBits s.bits = s := by cases s <;> rfl
@[simp] theorem Swing.bits_ofBits (b : BitVec 3) : (Swing.ofBits b).bits = b := by revert b; decide

/-! ### Codes there and back (R169) -/

theorem modeOfCode_modeCode {c : ModeCodes} (h : c.toList.Nodup) {m : Mode} (hm : m.recognised) :
    modeOfCode c (modeCode c m) = m := by
  simp only [ModeCodes.toList, List.nodup_cons, List.mem_cons, not_or] at h
  cases m <;> simp_all [modeOfCode, modeCode, Mode.recognised, eq_comm]

theorem fanOfCode_fanCode {c : FanCodes} (h : c.toList.Nodup) {f : Fan} (hf : f.recognised) :
    fanOfCode c (fanCode c f) = f := by
  simp only [FanCodes.toList, List.nodup_cons, List.mem_cons, not_or] at h
  cases f <;> simp_all [fanOfCode, fanCode, Fan.recognised, eq_comm]

theorem swingOfCode_swingCode {c : SwingCodes} (h : c.toList.Nodup) {s : Swing} (hs : s.recognised) :
    swingOfCode c (swingCode c s) = s := by
  simp only [SwingCodes.toList, List.nodup_cons, List.mem_cons, not_or] at h
  cases s <;> simp_all [swingOfCode, swingCode, Swing.recognised, eq_comm]

theorem modeOfCode_recognised (c : ModeCodes) (m : Nibble) : (modeOfCode c m).recognised := by
  unfold modeOfCode; split_ifs <;> rfl

theorem fanOfCode_recognised (c : FanCodes) (f : Nibble) : (fanOfCode c f).recognised := by
  unfold fanOfCode; split_ifs <;> rfl

theorem swingOfCode_recognised (c : SwingCodes) (s : Nibble) : (swingOfCode c s).recognised := by
  unfold swingOfCode; split_ifs <;> rfl

/-- Under R7(c) the resolved mode is fan-only exactly when the mode is (R164). -/
theorem modeCode_eq_fanOnly {c : ModeCodes} (h : c.toList.Nodup) (m : Mode) :
    modeCode c m = c.fanOnly ↔ m = .fanOnly := by
  simp only [ModeCodes.toList, List.nodup_cons, List.mem_cons, not_or] at h
  cases m <;> simp_all [modeCode, eq_comm]

/-! ### What well-formed parameters give -/

theorem Params.wellFormed_iff (p : Params) :
    p.wellFormed = true ↔ p.boundsOk = true ∧ p.fanOnlyOk = true ∧ p.modesOk = true ∧ p.fansOk = true ∧
      p.swingsOk = true ∧ p.variantsOk = true ∧ p.nearOk = true := by
  simp [Params.wellFormed, and_assoc]

theorem Params.bounds {p : Params} (h : p.wellFormed) :
    p.tempMin ≤ p.tempMax ∧ p.tempMax ≤ p.tempMin + 15 ∧ p.tempMin ≤ 22 ∧ 22 ≤ p.tempMin + 15 := by
  have h := (Params.wellFormed_iff p).mp h
  have ha := h.1
  have hb := h.2.1
  simp only [Params.boundsOk, Bool.and_eq_true, decide_eq_true_eq] at ha
  simp only [Params.fanOnlyOk, Bool.and_eq_true, decide_eq_true_eq] at hb
  simp only [Config.fanOnlyTemp] at hb
  omega

theorem Params.modes_nodup {p : Params} (h : p.wellFormed) : p.modeCode.toList.Nodup := by
  simpa [Params.modesOk] using ((Params.wellFormed_iff p).mp h).2.2.1

theorem Params.fans_nodup {p : Params} (h : p.wellFormed) : p.fanCode.toList.Nodup := by
  simpa [Params.fansOk] using ((Params.wellFormed_iff p).mp h).2.2.2.1

theorem Params.swings_nodup {p : Params} (h : p.wellFormed) {c : SwingCodes} (hc : c ∈ p.swingCodes) :
    c.toList.Nodup := by
  have := ((Params.wellFormed_iff p).mp h).2.2.2.2.1
  simp only [Params.swingsOk, List.all_eq_true] at this
  simpa using this c hc

/-! ### The tolerance -/

/-- A measured duration lies in the window iff it lies between its ends. -/
theorem Window.holds_iff (w : Window) (x : Nat) : w.holds x = true ↔ w.lo ≤ x ∧ ∀ hi, w.hi = some hi → x ≤ hi := by
  unfold Window.holds
  cases w.hi <;> simp

/-- Two windows share a measured duration iff they share the greater of their lower ends. -/
theorem Window.disjoint_iff (a b : Window) :
    a.disjoint b = true ↔ ∀ x, ¬ (a.holds x = true ∧ b.holds x = true) := by
  rw [Window.disjoint, Bool.not_eq_true', ← Bool.not_eq_true, Bool.and_eq_true]
  refine ⟨fun h x hx => h ?_, fun h => h _⟩
  simp only [Window.holds_iff] at *
  exact ⟨⟨le_max_left .., fun p hp => (max_le hx.1.1 hx.2.1).trans (hx.1.2 p hp)⟩,
    ⟨le_max_right .., fun p hp => (max_le hx.1.1 hx.2.1).trans (hx.2.2 p hp)⟩⟩

theorem near_windows {p : Params} {ws : List Window} (h : p.tolerance = .windows ws) (x e : Nat) :
    near p x e = (windowsFor ws e).any fun w => w.holds x := by simp [near, h]

theorem near_admitted {p : Params} {n : Nat} (h : p.tolerance = .admitted n) :
    near p = admittedNear (Config.freeNear n) := by funext x e; simp [near, h]

@[simp] theorem admittedNear_self (f : Nat → Nat → Bool) (x : Nat) : admittedNear f x x = true := by simp [admittedNear]

/-- Of two different durations `admittedNear` says what `f` says, but for the two exceptions. -/
theorem admittedNear_iff {f : Nat → Nat → Bool} {x e : Nat} (h : x ≠ e) :
    admittedNear f x e = true ↔ f x e = true ∧
      ¬ (e = Config.zeroSpace ∧ (x = Config.oneSpace ∨ f x Config.oneSpace = true)) ∧
      ¬ (e = Config.oneSpace ∧ x = Config.zeroSpace) := by
  rw [admittedNear, beq_false_of_ne h, Bool.false_or, Bool.and_eq_true, Bool.and_eq_true, Bool.not_eq_true',
    Bool.not_eq_true', ← Bool.not_eq_true, ← Bool.not_eq_true, Bool.and_eq_true, Bool.and_eq_true, Bool.or_eq_true,
    beq_iff_eq, beq_iff_eq, beq_iff_eq, beq_iff_eq, and_assoc]

/-- `admittedNear` satisfies the second half of R7(f). -/
theorem admittedNear_disjoint (f : Nat → Nat → Bool) (x : Nat) :
    ¬ (admittedNear f x Config.oneSpace = true ∧ admittedNear f x Config.zeroSpace = true) := by
  rintro ⟨h1, h0⟩
  by_cases hz : x = Config.zeroSpace
  · exact ((admittedNear_iff (by subst hz; decide)).mp h1).2.2 ⟨rfl, hz⟩
  · have h0 := ((admittedNear_iff hz).mp h0).2.1
    by_cases ho : x = Config.oneSpace
    · exact h0 ⟨rfl, .inl ho⟩
    · exact h0 ⟨rfl, .inr ((admittedNear_iff ho).mp h1).1⟩

/-- Every predicate that satisfies R7(f) is one of those that `admittedNear` gives. -/
theorem admittedNear_eq {f : Nat → Nat → Bool} (hr : ∀ x, f x x = true)
    (hd : ∀ x, ¬ (f x Config.oneSpace = true ∧ f x Config.zeroSpace = true)) : admittedNear f = f := by
  funext x e
  by_cases hx : x = e
  · subst hx; rw [admittedNear_self, hr]
  rw [Bool.eq_iff_iff, admittedNear_iff hx]
  refine ⟨fun h => h.1, fun h => ⟨h, ?_, ?_⟩⟩
  · rintro ⟨rfl, rfl | h1⟩
    · exact hd _ ⟨hr _, h⟩
    · exact hd _ ⟨h1, h⟩
  · rintro ⟨rfl, rfl⟩
    exact hd _ ⟨h, hr _⟩

@[simp] theorem near_self (p : Params) (x : Nat) : near p x x = true := by
  cases h : p.tolerance with
  | windows ws => simp [near_windows h, windowsFor, Window.holds]
  | admitted n => simp [near_admitted h]

/-- What `nearOk` checks is the second half of R7(f). -/
theorem nearOk_iff (p : Params) :
    p.nearOk = true ↔ ∀ x, ¬ (near p x Config.oneSpace = true ∧ near p x Config.zeroSpace = true) := by
  cases h : p.tolerance with
  | windows ws =>
    simp only [Params.nearOk, h, near_windows h, List.all_eq_true, List.any_eq_true, Window.disjoint_iff]
    exact ⟨fun h x ⟨⟨a, ha, hax⟩, ⟨b, hb, hbx⟩⟩ => h a ha b hb x ⟨hax, hbx⟩,
      fun h a ha b hb x ⟨hax, hbx⟩ => h x ⟨⟨a, ha, hax⟩, ⟨b, hb, hbx⟩⟩⟩
  | admitted n => simpa only [Params.nearOk, h, near_admitted h, true_iff] using admittedNear_disjoint _

/-- R7(f): no space is near both a one and a zero. -/
theorem not_near_one_and_zero {p : Params} (h : p.wellFormed) {x : Nat} (h1 : near p x Config.oneSpace) :
    near p x Config.zeroSpace = false := by
  have hn := (nearOk_iff p).mp ((Params.wellFormed_iff p).mp h).2.2.2.2.2.2 x
  simpa [h1] using hn

theorem near_one_zeroSpace {p : Params} (h : p.wellFormed) : near p Config.zeroSpace Config.oneSpace = false := by
  by_contra h1
  have := not_near_one_and_zero h (x := Config.zeroSpace) (by simpa using h1)
  simp at this

/-! ### Temperature (R78, R163, R164, R207) -/

theorem clamp_bounds {v lo hi : Nat} (h : lo ≤ hi) : lo ≤ clamp v lo hi ∧ clamp v lo hi ≤ hi := by
  unfold clamp; split_ifs <;> omega

theorem clamp_of_mem {v lo hi : Nat} (h1 : lo ≤ v) (h2 : v ≤ hi) : clamp v lo hi = v := by
  unfold clamp; split_ifs <;> omega

theorem tempField_toNat {p : Params} {t : Nat} (h1 : p.tempMin ≤ t) (h2 : t ≤ p.tempMin + 15) :
    (tempField p t).toNat = t - p.tempMin := by
  have : ((t : Int) - (p.tempMin : Int)) = ((t - p.tempMin : Nat) : Int) := by omega
  rw [tempField, this, BitVec.ofInt_natCast, BitVec.toNat_ofNat, Nat.mod_eq_of_lt (by omega)]

theorem tempOfField_toNat {p : Params} (h : p.tempMin ≤ 240) (t : Nibble) :
    (tempOfField p t).toNat = t.toNat + p.tempMin := by
  have := t.isLt
  simp only [tempOfField, BitVec.toNat_add, BitVec.toNat_setWidth, BitVec.toNat_ofNat]
  omega

theorem tempOfField_tempField {p : Params} (hp : p.tempMin ≤ 240) {t : Nat} (h1 : p.tempMin ≤ t)
    (h2 : t ≤ p.tempMin + 15) : tempOfField p (tempField p t) = BitVec.ofNat 8 t := by
  apply BitVec.eq_of_toNat_eq
  rw [tempOfField_toNat hp, tempField_toNat h1 h2, BitVec.toNat_ofNat, Nat.mod_eq_of_lt (by omega)]
  omega

end Sys2Proof.Machine
end

