-- ==== Sys2Proof/Laws/Codec.lean ====
section
/-! SUPPORT. Exclusive or over bytes, the two checksums, and what `FINALIZE` leaves (R110, R111, R114). -/

namespace Sys2Proof

theorem foldl_xor_init (l : List Byte) (b : Byte) : l.foldl (· ^^^ ·) b = b ^^^ l.foldl (· ^^^ ·) 0 := by
  induction l generalizing b with
  | nil => simp
  | cons x l ih => rw [List.foldl_cons, ih, List.foldl_cons, ih (0 ^^^ x)]; simp [BitVec.xor_assoc]

@[simp] theorem xorAll_nil : xorAll [] = 0 := rfl

theorem xorAll_cons (b : Byte) (l : List Byte) : xorAll (b :: l) = b ^^^ xorAll l := by
  simp only [xorAll, List.foldl_cons]
  rw [foldl_xor_init]; simp

theorem xorAll_append (l m : List Byte) : xorAll (l ++ m) = xorAll l ^^^ xorAll m := by
  induction l with
  | nil => simp
  | cons b l ih => rw [List.cons_append, xorAll_cons, xorAll_cons, ih, BitVec.xor_assoc]

/-- The exclusive or of pointwise exclusive ors. -/
theorem xorAll_map_xor {α : Type} (l : List α) (f g : α → Byte) :
    xorAll (l.map fun a => f a ^^^ g a) = xorAll (l.map f) ^^^ xorAll (l.map g) := by
  induction l with
  | nil => simp
  | cons a l ih =>
    simp only [List.map_cons, xorAll_cons, ih]
    ac_rfl

end Sys2Proof

namespace Sys2Proof.Machine

/-- `cs2` reads offsets 4 .. l - 2 and no other (R110). -/
theorem cs2_congr {m n : Memory} {l : Nat} (h : ∀ a, 4 ≤ a → a < l - 1 → m.read a = n.read a) : cs2 m l = cs2 n l := by
  unfold cs2
  congr 1
  refine List.map_congr_left fun a ha => ?_
  have := List.mem_range'_1.mp ha
  exact h a (by omega) (by omega)

/-- The bytes `FINALIZE dl` leaves in `FB`, for `dl` at most 8 (R111). -/
theorem read_finalize (s : State) {dl : Nat} (h : dl ≤ 8) (a : Nat) :
    (finalize s dl).fb.read a =
      if a = 5 + dl then cs2 s.fb (6 + dl)
      else if a = 3 then s.params.header0 ^^^ s.params.header1 ^^^ BitVec.ofNat 8 dl
      else if a = 2 then BitVec.ofNat 8 dl
      else if a = 1 then s.params.header1
      else if a = 0 then s.params.header0
      else s.fb.read a := by
  simp only [finalize]
  have h5 : 6 + dl - 1 = 5 + dl := by omega
  rw [h5, Memory.read_write _ _ (by simp [Config.maxFrame]; omega)]
  split
  · refine cs2_congr fun b hb _ => ?_
    rw [Memory.read_write_other _ (by omega), Memory.read_write_other _ (by omega),
      Memory.read_write_other _ (by omega), Memory.read_write_other _ (by omega)]
  · simp (disch := decide) only [Memory.read_write, cs1]
    simp

theorem cs1_finalize (s : State) {dl : Nat} (h : dl ≤ 8) : (finalize s dl).fb.read 3 = cs1 (finalize s dl).fb := by
  have e (a : Nat) (ha : a ≤ 3) : (a = 5 + dl) = False := eq_false (by omega)
  simp [cs1, read_finalize s h, e]

theorem cs2_finalize (s : State) {dl : Nat} (h : dl ≤ 8) :
    (finalize s dl).fb.read (5 + dl) = cs2 (finalize s dl).fb (6 + dl) := by
  rw [read_finalize s h, if_pos rfl]
  refine cs2_congr fun a h1 h2 => ?_
  rw [read_finalize s h, if_neg (by omega), if_neg (by omega), if_neg (by omega), if_neg (by omega),
    if_neg (by omega)]

theorem wf_finalize {s : State} (h : s.fb.wf) (dl : Nat) : (finalize s dl).fb.wf :=
  Memory.wf_write _ _ (Memory.wf_write _ _ (Memory.wf_write _ _ (Memory.wf_write _ _ (Memory.wf_write _ _ h))))

/-- A finalized buffer holds a valid frame (R114). -/
theorem holdsFrame_finalize (s : State) {dl : Nat} (h : dl ≤ 8) : (finalize s dl).fb.holdsFrame (6 + dl) := by
  refine ⟨by simp [Config.minFrame], by simp [Config.maxFrame]; omega, ?_, cs1_finalize s h, ?_⟩
  · rw [read_finalize s h, if_neg (by omega), if_neg (by omega), if_pos rfl, BitVec.toNat_ofNat,
      Nat.mod_eq_of_lt (by omega)]
  · rw [show 6 + dl - 1 = 5 + dl by omega]
    exact cs2_finalize s h

theorem flen_finalize_toNat (s : State) {dl : Nat} (h : dl ≤ 8) : (finalize s dl).flen.toNat = 6 + dl := by
  rw [finalize_flen, BitVec.toNat_ofNat, Nat.mod_eq_of_lt (by omega)]

/-- Running `FINALIZE dl` again changes nothing (R111, corner cases). -/
theorem finalize_idempotent {s : State} (hw : s.fb.wf) {dl : Nat} (h : dl ≤ 8) :
    finalize (finalize s dl) dl = finalize s dl := by
  have hfb : (finalize (finalize s dl) dl).fb = (finalize s dl).fb := by
    refine Memory.ext_read (wf_finalize (wf_finalize hw dl) dl) (wf_finalize hw dl) fun a => ?_
    rw [read_finalize _ h a]
    split_ifs with h1 h2 h3 h4 h5
    · rw [h1, cs2_finalize s h]
    all_goals first | rfl | (rw [read_finalize s h, if_neg h1]; simp [*])
  change { finalize s dl with fb := (finalize (finalize s dl) dl).fb } = finalize s dl
  rw [hfb]

/-! ### Checksums as sums over the covered bytes and the checksum (R114, R115) -/

/-- Two lists of bytes have sums that agree in a bit column exactly when they differ in that column an even number of
times. -/
theorem getLsbD_xorAll_map_iff {α : Type} (l : List α) (f g : α → Byte) (k : Nat) :
    (xorAll (l.map f)).getLsbD k = (xorAll (l.map g)).getLsbD k ↔
      (l.countP fun a => (f a).getLsbD k != (g a).getLsbD k) % 2 = 0 := by
  induction l with
  | nil => simp
  | cons a l ih =>
    simp only [List.map_cons, xorAll_cons, BitVec.getLsbD_xor, List.countP_cons]
    cases hf : (f a).getLsbD k <;> cases hg : (g a).getLsbD k <;>
      cases h1 : (xorAll (l.map f)).getLsbD k <;> cases h2 : (xorAll (l.map g)).getLsbD k <;>
      simp [h1, h2] at ih ⊢ <;> omega

theorem header_sum_iff (fb : Memory) : fb.read 3 = cs1 fb ↔ xorAll ((List.range 4).map fb.read) = 0 := by
  rw [show List.range 4 = [0, 1, 2, 3] from rfl]
  simp only [List.map_cons, List.map_nil, xorAll_cons, xorAll_nil, ← BitVec.xor_assoc, cs1]
  rw [show ∀ x : Byte, x ^^^ 0 = x by intro x; simp]
  constructor
  · intro h; rw [h]; simp
  · intro h; exact (BitVec.xor_eq_zero_iff.mp h).symm

theorem payload_sum_iff (fb : Memory) {l : Nat} (h : 6 ≤ l) :
    fb.read (l - 1) = cs2 fb l ↔ xorAll ((List.range' 4 (l - 4)).map fb.read) = 0 := by
  rw [show l - 4 = (l - 5) + 1 by omega, List.range'_concat, List.map_append, xorAll_append]
  simp only [List.map_cons, List.map_nil, xorAll_cons, xorAll_nil]
  rw [show ∀ x : Byte, x ^^^ 0 = x by intro x; simp]
  rw [show 4 + 1 * (l - 5) = l - 1 by omega]
  exact Iff.trans eq_comm BitVec.xor_eq_zero_iff.symm

end Sys2Proof.Machine
end

