-- ==== Sys2Proof/Laws/Pulses.lean ====
section
/-! SUPPORT. The pulse train pair by pair: its length (R89), where its symbols stand (R132), and how long it lasts
(R284). -/

namespace Sys2Proof.Machine

@[simp] theorem length_bytePulses (b : Byte) : (bytePulses b).length = 8 := rfl

theorem length_flatMap_bytePulses (bytes : List Byte) : (bytes.flatMap bytePulses).length = 8 * bytes.length := by
  induction bytes with
  | nil => rfl
  | cons b l ih => simp [ih]; omega

@[simp] theorem length_repetition (bytes : List Byte) : (repetition bytes).length = 8 * bytes.length + 2 := by
  simp only [repetition, List.length_append, List.length_cons, length_flatMap_bytePulses, List.length_nil]

theorem train_eq (bytes : List Byte) : train bytes = repetition bytes ++ repetition bytes := by
  simp [train, Config.repeats, List.replicate]

@[simp] theorem length_train (bytes : List Byte) : (train bytes).length = 16 * bytes.length + 4 := by
  simp [train_eq]; omega

theorem getElem?_bytePulses (b : Byte) {k : Nat} (h : k < 8) :
    (bytePulses b)[k]? = some (bitSymbol (b.getLsbD (7 - k))) := by
  simp only [bytePulses, bitsMsbFirst]
  interval_cases k <;> rfl

/-- Bit `k` of the serial stream (R51). -/
theorem getElem?_flatMap_bytePulses (bytes : List Byte) {k : Nat} (h : k < 8 * bytes.length) :
    (bytes.flatMap bytePulses)[k]? = some (bitSymbol ((bytes.getD (k / 8) 0).getLsbD (7 - k % 8))) := by
  induction bytes generalizing k with
  | nil => simp at h
  | cons b l ih =>
    rw [List.flatMap_cons]
    by_cases hk : k < 8
    · rw [List.getElem?_append_left (by simpa using hk), getElem?_bytePulses b hk]
      simp [Nat.div_eq_of_lt hk, Nat.mod_eq_of_lt hk]
    · rw [List.getElem?_append_right (by simpa using hk), length_bytePulses,
        ih (by simp only [List.length_cons] at h; omega)]
      obtain ⟨j, rfl⟩ : ∃ j, k = j + 8 := ⟨k - 8, by omega⟩
      simp

theorem getElem?_repetition_zero (bytes : List Byte) : (repetition bytes)[0]? = some symbolHdr := rfl

theorem getElem?_repetition_bit (bytes : List Byte) {k : Nat} (h : k < 8 * bytes.length) :
    (repetition bytes)[1 + k]? = some (bitSymbol ((bytes.getD (k / 8) 0).getLsbD (7 - k % 8))) := by
  simp only [repetition]
  rw [List.cons_append, Nat.add_comm, List.getElem?_cons_succ,
    List.getElem?_append_left (by rw [length_flatMap_bytePulses]; exact h)]
  exact getElem?_flatMap_bytePulses bytes h

theorem getElem?_repetition_trail (bytes : List Byte) :
    (repetition bytes)[8 * bytes.length + 1]? = some symbolTrail := by
  rw [repetition, List.cons_append, List.getElem?_cons_succ,
    List.getElem?_append_right (by rw [length_flatMap_bytePulses]), length_flatMap_bytePulses]
  simp

/-- The train is its first repetition and then, `8L + 2` further, the second (R132). -/
theorem getElem?_train_first (bytes : List Byte) {k : Nat} (h : k < 8 * bytes.length + 2) :
    (train bytes)[k]? = (repetition bytes)[k]? := by
  rw [train_eq, List.getElem?_append_left (by simpa using h)]

theorem getElem?_train_second (bytes : List Byte) (k : Nat) :
    (train bytes)[8 * bytes.length + 2 + k]? = (repetition bytes)[k]? := by
  rw [train_eq, List.getElem?_append_right (by simp)]
  simp

end Sys2Proof.Machine
end

