-- ==== Sys2Proof/Laws/Capture.lean ====
section
/-! SUPPORT. DECODE read pair by pair: each stage's outcome in terms of the pairs of the capture (R136, R137, R139,
R248). The callers cite `decodeCapture_timing_header` to `decodeCapture_success` and never unfold the decoder. -/

namespace Sys2Proof.Machine

theorem matchPair_eq (s : State) (m w : Nat) :
    matchPair s m w = if pairNear s.params s.cap s.cur m w then some { s with cur := s.cur + 1 } else none := by
  unfold matchPair pairNear
  cases s.cap[s.cur]? <;> simp

theorem takeBit_eq (s : State) :
    takeBit s = (capturedBit s.params s.cap s.cur).map fun b => (b, { s with cur := s.cur + 1 }) := by
  simp only [takeBit, matchPair_eq, capturedBit]
  cases pairNear s.params s.cap s.cur Config.bitMark Config.oneSpace <;>
    cases pairNear s.params s.cap s.cur Config.bitMark Config.zeroSpace <;> rfl

/-- Shifting eight bits in, first bit first, puts each at its place. -/
theorem shiftIn_eight (a b c d e f g h : Bool) :
    [a, b, c, d, e, f, g, h].foldl (fun (acc : Byte) (x : Bool) => acc <<< 1 ||| (BitVec.ofBool x).setWidth 8) 0 =
      ([(a, 7), (b, 6), (c, 5), (d, 4), (e, 3), (f, 2), (g, 1), (h, 0)] : List (Bool × Nat)).foldl
        (fun (acc : Byte) x => acc ||| (BitVec.ofBool x.1).setWidth 8 <<< x.2) 0 := by
  revert a b c d e f g h; decide

theorem takeBits_some {n : Nat} {acc : Byte} {s : State} (h : ∀ j < n, (capturedBit s.params s.cap (s.cur + j)).isSome) :
    takeBits n acc s =
      some (((List.range n).map fun j => (capturedBit s.params s.cap (s.cur + j)).getD false).foldl
        (fun (acc : Byte) (x : Bool) => acc <<< 1 ||| (BitVec.ofBool x).setWidth 8) acc, { s with cur := s.cur + n }) := by
  induction n generalizing acc s with
  | zero => rfl
  | succ n ih =>
    obtain ⟨b, hb⟩ := Option.isSome_iff_exists.mp (by simpa using h 0 (by omega) : (capturedBit s.params s.cap s.cur).isSome)
    have hnext : ∀ j < n, (capturedBit s.params s.cap (s.cur + 1 + j)).isSome := fun j hj => by
      have := h (j + 1) (by omega)
      rwa [show s.cur + (j + 1) = s.cur + 1 + j by omega] at this
    simp only [takeBits, takeBit_eq, hb, Option.map_some]
    rw [ih hnext, List.range_succ_eq_map]
    simp only [List.map_cons, List.map_map, List.foldl_cons, Nat.add_zero, hb, Option.getD_some]
    congr 2
    · congr 1
      refine List.map_congr_left fun j _ => ?_
      simp only [Function.comp, Nat.succ_eq_add_one, show s.cur + (j + 1) = s.cur + 1 + j by omega]
    · simp only [State.mk.injEq, true_and, and_true]; omega

theorem takeBits_none {n : Nat} {acc : Byte} {s : State} (h : ∃ j < n, capturedBit s.params s.cap (s.cur + j) = none) :
    takeBits n acc s = none := by
  induction n generalizing acc s with
  | zero => obtain ⟨j, hj, _⟩ := h; omega
  | succ n ih =>
    simp only [takeBits, takeBit_eq]
    cases hb : capturedBit s.params s.cap s.cur with
    | none => rfl
    | some b =>
      simp only [Option.map_some]
      obtain ⟨j, hj, hn⟩ := h
      obtain _ | j := j
      · simp [hb] at hn
      · refine ih ⟨j, by omega, ?_⟩
        show capturedBit s.params s.cap (s.cur + 1 + j) = none
        rwa [show s.cur + 1 + j = s.cur + (j + 1) by omega]

theorem takeByte_some {s : State} (h : ∀ j < 8, (capturedBit s.params s.cap (s.cur + j)).isSome) :
    takeBits 8 0 s = some (capturedByte s.params s.cap s.cur, { s with cur := s.cur + 8 }) := by
  rw [takeBits_some h]
  congr 2
  exact shiftIn_eight _ _ _ _ _ _ _ _

/-- `n` bytes written from offset `i` on. -/
def writeFrom (m : Memory) (i n : Nat) (f : Nat → Byte) : Memory :=
  match n with
  | 0 => m
  | n + 1 => writeFrom (m.write i (f 0)) (i + 1) n fun j => f (j + 1)

theorem wf_writeFrom {m : Memory} (h : m.wf) (i n : Nat) (f : Nat → Byte) : (writeFrom m i n f).wf := by
  induction n generalizing m i f with
  | zero => exact h
  | succ n ih => exact ih (Memory.wf_write _ _ h) _ _

theorem read_writeFrom {m : Memory} {i n : Nat} (f : Nat → Byte) (h : i + n ≤ Config.maxFrame) (a : Nat) :
    (writeFrom m i n f).read a = if i ≤ a ∧ a < i + n then f (a - i) else m.read a := by
  induction n generalizing m i f with
  | zero => rw [if_neg (by omega)]; rfl
  | succ n ih =>
    rw [writeFrom, ih _ (by omega), Memory.read_write _ _ (by omega)]
    by_cases h1 : i + 1 ≤ a ∧ a < i + 1 + n
    · rw [if_pos h1, if_pos (by omega), show a - (i + 1) + 1 = a - i by omega]
    · rw [if_neg h1]
      by_cases h2 : a = i
      · rw [if_pos h2, if_pos (by omega), h2, Nat.sub_self]
      · rw [if_neg h2, if_neg (by omega)]

theorem takeBytes_some {n i : Nat} {s : State} (h : ∀ j < 8 * n, (capturedBit s.params s.cap (s.cur + j)).isSome) :
    takeBytes n i s =
      some { s with
        cur := s.cur + 8 * n
        fb := writeFrom s.fb i n fun j => capturedByte s.params s.cap (s.cur + 8 * j) } := by
  induction n generalizing i s with
  | zero => rfl
  | succ n ih =>
    have hnext : ∀ j < 8 * n,
        (capturedBit s.params s.cap (s.cur + 8 + j)).isSome :=
      fun j hj => by
        have := h (j + 8) (by omega)
        rwa [show s.cur + (j + 8) = s.cur + 8 + j by omega] at this
    simp only [takeBytes]
    rw [takeByte_some fun j hj => h j (by omega)]
    show takeBytes n (i + 1) { s with cur := s.cur + 8, fb := s.fb.write i (capturedByte s.params s.cap s.cur) } = _
    rw [ih hnext]
    simp only [Option.some.injEq, State.mk.injEq, true_and, and_true]
    refine ⟨?_, by omega⟩
    rw [writeFrom]
    congr 1
    funext j
    rw [show s.cur + 8 + 8 * j = s.cur + 8 * (j + 1) by omega]

theorem takeBytes_none {n i : Nat} {s : State} (h : ∃ j < 8 * n, capturedBit s.params s.cap (s.cur + j) = none) :
    takeBytes n i s = none := by
  induction n generalizing i s with
  | zero => obtain ⟨j, hj, _⟩ := h; omega
  | succ n ih =>
    simp only [takeBytes]
    by_cases h8 : ∃ j < 8, capturedBit s.params s.cap (s.cur + j) = none
    · rw [takeBits_none h8]
    · push Not at h8
      rw [takeByte_some fun j hj => Option.isSome_iff_ne_none.mpr (h8 j hj)]
      obtain ⟨j, hj, hn⟩ := h
      have : 8 ≤ j := by by_contra hlt; exact h8 j (by omega) hn
      refine ih ⟨j - 8, by omega, ?_⟩
      show capturedBit s.params s.cap (s.cur + 8 + (j - 8)) = none
      rwa [show s.cur + 8 + (j - 8) = s.cur + j by omega]

/-! ### DECODE, stage by stage -/

theorem not_bitsReadable {s : State} {n : Nat} (h : ¬ s.bitsReadable n) :
    ∃ j < n, capturedBit s.params s.cap (s.cur + 1 + j) = none := by
  simp only [State.bitsReadable] at h
  push Not at h
  obtain ⟨j, hj, hn⟩ := h
  exact ⟨j, hj, by simpa using hn⟩

/-- The state after the header pair and the first four bytes. -/
def afterHeader (s : State) : State :=
  { s with flen := 0, cur := s.cur + 33, fb := writeFrom [] 0 4 fun j => s.frameByte j }

theorem read_afterHeader (s : State) (a : Nat) :
    (afterHeader s).fb.read a = if a < 4 then s.frameByte a else 0 := by
  simp only [afterHeader]
  rw [read_writeFrom _ (by decide)]
  simp

theorem decodeStages_after_header {s : State} (hh : s.headerAtCursor)
    (h32 : s.bitsReadable 32) :
    decodeStages { s with fb := [], flen := 0 } =
      (let t := afterHeader s
       if t.fb.read 3 ≠ cs1 t.fb then .error .headerSum
       else if Config.maxFrame < 6 + (t.fb.read 2).toNat then .error .length
       else
        let l := 6 + (t.fb.read 2).toNat
        match takeBytes (l - 4) 4 t with
        | none => .error .timing
        | some s =>
          if s.fb.read (l - 1) ≠ cs2 s.fb l then .error .payloadSum
          else .ok { s with flen := BitVec.ofNat 4 l, dstat := Dstat.success }) := by
  have h : matchPair { s with fb := [], flen := 0 } Config.headerMark Config.headerSpace =
      some { s with fb := [], flen := 0, cur := s.cur + 1 } := by
    rw [matchPair_eq, if_pos (show pairNear s.params s.cap s.cur _ _ = true from hh)]
  simp only [decodeStages, h]
  rw [takeBytes_some (n := 4) (i := 0) (s := { s with fb := [], flen := 0, cur := s.cur + 1 }) fun j hj => h32 j hj]
  rfl

theorem decodeCapture_timing_header {s : State} (h : ¬ s.headerAtCursor) :
    decodeCapture s = raise s .timing := by
  have : matchPair { s with fb := [], flen := 0 } Config.headerMark Config.headerSpace = none := by
    rw [matchPair_eq, if_neg (show ¬ pairNear s.params s.cap s.cur _ _ = true from h)]
  simp only [decodeCapture, decodeStages, this]

theorem decodeCapture_timing_prefix {s : State} (hh : s.headerAtCursor)
    (h : ¬ s.bitsReadable 32) : decodeCapture s = raise s .timing := by
  have hm : matchPair { s with fb := [], flen := 0 } Config.headerMark Config.headerSpace =
      some { s with fb := [], flen := 0, cur := s.cur + 1 } := by
    rw [matchPair_eq, if_pos (show pairNear s.params s.cap s.cur _ _ = true from hh)]
  have hn : takeBytes 4 0 { s with fb := [], flen := 0, cur := s.cur + 1 } = none :=
    takeBytes_none (not_bitsReadable h)
  simp only [decodeCapture, decodeStages, hm, hn]

theorem cs1_afterHeader (s : State) :
    cs1 (afterHeader s).fb = s.frameByte 0 ^^^ s.frameByte 1 ^^^ s.frameByte 2 := by
  simp [cs1, read_afterHeader]

theorem decodeCapture_headerSum {s : State} (hh : s.headerAtCursor)
    (h32 : s.bitsReadable 32)
    (hc : s.frameByte 3 ≠ s.frameByte 0 ^^^ s.frameByte 1 ^^^ s.frameByte 2) :
    decodeCapture s = raise s .headerSum := by
  rw [decodeCapture, decodeStages_after_header hh h32]
  simp only [cs1_afterHeader, read_afterHeader]
  rw [if_pos (by simpa using hc)]

theorem decodeCapture_length {s : State} (hh : s.headerAtCursor)
    (h32 : s.bitsReadable 32)
    (hc : s.frameByte 3 = s.frameByte 0 ^^^ s.frameByte 1 ^^^ s.frameByte 2)
    (hl : 8 < (s.frameByte 2).toNat) : decodeCapture s = raise s .length := by
  rw [decodeCapture, decodeStages_after_header hh h32]
  simp only [cs1_afterHeader, read_afterHeader]
  rw [if_neg (by simpa using hc), if_pos (by simp [Config.maxFrame]; omega)]

theorem decodeCapture_timing_payload {s : State} (hh : s.headerAtCursor)
    (h32 : s.bitsReadable 32)
    (hc : s.frameByte 3 = s.frameByte 0 ^^^ s.frameByte 1 ^^^ s.frameByte 2)
    (hl : (s.frameByte 2).toNat ≤ 8) (h : ¬ s.bitsReadable (8 * (6 + (s.frameByte 2).toNat))) :
    decodeCapture s = raise s .timing := by
  obtain ⟨j, hj, hn⟩ := not_bitsReadable h
  have h4 : 32 ≤ j := by
    by_contra hlt
    have := h32 j (by omega)
    simp [hn] at this
  rw [decodeCapture, decodeStages_after_header hh h32]
  simp only [cs1_afterHeader, read_afterHeader]
  rw [if_neg (by simpa using hc), if_neg (by simp [Config.maxFrame]; omega),
    takeBytes_none ⟨j - 32, by simp; omega, ?_⟩]
  show capturedBit s.params s.cap (s.cur + 33 + (j - 32)) = none
  rwa [show s.cur + 33 + (j - 32) = s.cur + 1 + j by omega]

/-- The state after all bytes of a frame of length `l`. -/
def afterFrame (s : State) (l : Nat) : State :=
  { s with
    flen := 0
    cur := s.cur + (1 + 8 * l)
    fb := writeFrom (writeFrom [] 0 4 fun j => s.frameByte j) 4 (l - 4) fun j => s.frameByte (4 + j) }

theorem read_afterFrame {s : State} {l : Nat} (h4 : 4 ≤ l) (hl : l ≤ 14) (a : Nat) :
    (afterFrame s l).fb.read a = if a < l then s.frameByte a else 0 := by
  simp only [afterFrame]
  rw [read_writeFrom _ (by simp [Config.maxFrame]; omega), read_writeFrom _ (by decide)]
  split_ifs with h1 h2 h3 <;> first | omega | rfl | (congr 1; omega)

theorem wf_afterFrame (s : State) (l : Nat) : (afterFrame s l).fb.wf :=
  wf_writeFrom (wf_writeFrom Memory.wf_nil _ _ _) _ _ _

theorem takeBytes_afterHeader {s : State} {l : Nat} (h4 : 4 ≤ l) (h : s.bitsReadable (8 * l)) :
    takeBytes (l - 4) 4 (afterHeader s) = some (afterFrame s l) := by
  rw [takeBytes_some fun j hj => ?_]
  · simp only [afterFrame, afterHeader, Option.some.injEq, State.mk.injEq, true_and, and_true]
    refine ⟨?_, by omega⟩
    congr 1
    funext j
    rw [State.frameByte]
    congr 1; omega
  · show (capturedBit s.params s.cap (s.cur + 33 + j)).isSome
    rw [show s.cur + 33 + j = s.cur + 1 + (32 + j) by omega]
    exact h (32 + j) (by omega)

theorem cs2_afterFrame {s : State} {n : Nat} (h : n ≤ 8) :
    cs2 (afterFrame s (6 + n)).fb (6 + n) = s.frameXor 4 (n + 1) := by
  unfold cs2 State.frameXor
  rw [show 6 + n - 5 = n + 1 by omega]
  congr 1
  refine List.map_congr_left fun a ha => ?_
  have := List.mem_range'_1.mp ha
  rw [read_afterFrame (by omega) (by omega), if_pos (by omega)]

theorem decodeCapture_payloadSum {s : State} (hh : s.headerAtCursor)
    (hc : s.frameByte 3 = s.frameByte 0 ^^^ s.frameByte 1 ^^^ s.frameByte 2)
    (hl : (s.frameByte 2).toNat ≤ 8) (h : s.bitsReadable (8 * (6 + (s.frameByte 2).toNat)))
    (hp : s.frameByte (5 + (s.frameByte 2).toNat) ≠ s.frameXor 4 ((s.frameByte 2).toNat + 1)) :
    decodeCapture s = raise s .payloadSum := by
  have h32 : s.bitsReadable 32 := fun j hj => h j (by omega)
  rw [decodeCapture, decodeStages_after_header hh h32]
  simp only [cs1_afterHeader, read_afterHeader]
  rw [if_neg (by simpa using hc), if_neg (by simp [Config.maxFrame]; omega)]
  simp only [Nat.reduceLT, if_true]
  rw [takeBytes_afterHeader (by omega) h]
  simp only
  rw [if_pos]
  rw [read_afterFrame (by omega) (by omega), if_pos (by omega), cs2_afterFrame hl]
  rwa [show 6 + (s.frameByte 2).toNat - 1 = 5 + (s.frameByte 2).toNat by omega]

theorem decodeCapture_success {s : State} (hh : s.headerAtCursor)
    (hc : s.frameByte 3 = s.frameByte 0 ^^^ s.frameByte 1 ^^^ s.frameByte 2)
    (hl : (s.frameByte 2).toNat ≤ 8) (h : s.bitsReadable (8 * (6 + (s.frameByte 2).toNat)))
    (hp : s.frameByte (5 + (s.frameByte 2).toNat) = s.frameXor 4 ((s.frameByte 2).toNat + 1)) :
    decodeCapture s =
      { afterFrame s (6 + (s.frameByte 2).toNat) with
        flen := BitVec.ofNat 4 (6 + (s.frameByte 2).toNat)
        dstat := Dstat.success } := by
  have h32 : s.bitsReadable 32 := fun j hj => h j (by omega)
  rw [decodeCapture, decodeStages_after_header hh h32]
  simp only [cs1_afterHeader, read_afterHeader]
  rw [if_neg (by simpa using hc), if_neg (by simp [Config.maxFrame]; omega)]
  simp only [Nat.reduceLT, if_true]
  rw [takeBytes_afterHeader (by omega) h]
  simp only
  rw [if_neg]
  rw [read_afterFrame (by omega) (by omega), if_pos (by omega), cs2_afterFrame hl]
  rw [show 6 + (s.frameByte 2).toNat - 1 = 5 + (s.frameByte 2).toNat by omega]
  exact not_not.mpr hp

/-- The two kinds of outcome of DECODE: a failure, or a valid frame in `FB` (R136, R249). -/
theorem decodeCapture_cases (s : State) :
    (∃ c, c ≠ .none ∧ decodeCapture s = raise s c) ∨
    (∃ l, 6 ≤ l ∧ l ≤ 14 ∧ s.bitsReadable (8 * l) ∧ (afterFrame s l).fb.holdsFrame l ∧
      decodeCapture s = { afterFrame s l with flen := BitVec.ofNat 4 l, dstat := Dstat.success }) := by
  by_cases hh : s.headerAtCursor
  · by_cases h32 : s.bitsReadable 32
    · by_cases hc : s.frameByte 3 = s.frameByte 0 ^^^ s.frameByte 1 ^^^ s.frameByte 2
      · by_cases hl : (s.frameByte 2).toNat ≤ 8
        · by_cases h : s.bitsReadable (8 * (6 + (s.frameByte 2).toNat))
          · by_cases hp : s.frameByte (5 + (s.frameByte 2).toNat) =
                s.frameXor 4 ((s.frameByte 2).toNat + 1)
            · refine .inr ⟨6 + (s.frameByte 2).toNat, by omega, by omega, h, ⟨by simp [Config.minFrame],
                by simp [Config.maxFrame]; omega, ?_, ?_, ?_⟩, decodeCapture_success hh hc hl h hp⟩
              · rw [read_afterFrame (by omega) (by omega), if_pos (by omega)]
              · simp only [cs1]
                rw [read_afterFrame (by omega) (by omega), if_pos (by omega), read_afterFrame (by omega) (by omega),
                  if_pos (by omega), read_afterFrame (by omega) (by omega), if_pos (by omega),
                  read_afterFrame (by omega) (by omega), if_pos (by omega)]
                exact hc
              · rw [read_afterFrame (by omega) (by omega), if_pos (by omega), cs2_afterFrame hl, ← hp]
                congr 1; omega
            · exact .inl ⟨_, by decide, decodeCapture_payloadSum hh hc hl h hp⟩
          · exact .inl ⟨_, by decide, decodeCapture_timing_payload hh h32 hc hl h⟩
        · exact .inl ⟨_, by decide, decodeCapture_length hh h32 hc (by omega)⟩
      · exact .inl ⟨_, by decide, decodeCapture_headerSum hh h32 hc⟩
    · exact .inl ⟨_, by decide, decodeCapture_timing_prefix hh h32⟩
  · exact .inl ⟨_, by decide, decodeCapture_timing_header hh⟩

end Sys2Proof.Machine
end

