-- ==== Sys2Proof/Laws/Received.lean ====
section
/-! SUPPORT. What the decoder reads from a capture that holds a pulse train exactly as it was encoded (R142). -/

namespace Sys2Proof.Machine

/-- A byte is its eight bits, each at its place. -/
theorem byte_of_bits (b : Byte) :
    (List.range 8).foldl (fun acc j => acc ||| (BitVec.ofBool (b.getLsbD (7 - j))).setWidth 8 <<< (7 - j)) 0 = b := by
  revert b; decide

theorem pairNear_of_getElem {p : Params} {cap : List MeasuredPair} {k m w : Nat} (h : cap[k]? = some ⟨m, w⟩) :
    pairNear p cap k m w = true := by
  simp [pairNear, h]

theorem capturedBit_of_bit1 {p : Params} {cap : List MeasuredPair} {k : Nat}
    (h : cap[k]? = some ⟨Config.bitMark, Config.oneSpace⟩) : capturedBit p cap k = some true := by
  simp [capturedBit, pairNear_of_getElem h]

theorem capturedBit_of_bit0 {p : Params} (hp : p.wellFormed) {cap : List MeasuredPair} {k : Nat}
    (h : cap[k]? = some ⟨Config.bitMark, Config.zeroSpace⟩) : capturedBit p cap k = some false := by
  have h1 : pairNear p cap k Config.bitMark Config.oneSpace = false := by
    simp [pairNear, h, near_one_zeroSpace hp]
  simp [capturedBit, h1, pairNear_of_getElem h]

theorem capturedBit_of_symbol {p : Params} (hp : p.wellFormed) {cap : List MeasuredPair} {k : Nat} {b : Bool}
    (h : cap[k]? = some (bitSymbol b).measured) : capturedBit p cap k = some b := by
  cases b
  · exact capturedBit_of_bit0 hp h
  · exact capturedBit_of_bit1 h

theorem capturedByte_of_bits {p : Params} {cap : List MeasuredPair} {k : Nat} {b : Byte}
    (h : ∀ j < 8, capturedBit p cap (k + j) = some (b.getLsbD (7 - j))) : capturedByte p cap k = b := by
  have h' : ∀ j ∈ List.range 8, (capturedBit p cap (k + j)).getD false = b.getLsbD (7 - j) := fun j hj => by
    rw [h j (List.mem_range.mp hj)]; rfl
  have : capturedByte p cap k =
      (List.range 8).foldl (fun acc j => acc ||| (BitVec.ofBool (b.getLsbD (7 - j))).setWidth 8 <<< (7 - j)) 0 := by
    unfold capturedByte
    exact List.foldl_ext _ _ _ fun acc j hj => by rw [h' j hj]
  rw [this, byte_of_bits]

/-- A capture that holds, from index `start` on, one repetition of `bytes`. -/
abbrev HoldsRepetition (cap : List MeasuredPair) (start : Nat) (bytes : List Byte) : Prop :=
  ∀ k < 8 * bytes.length + 1, cap[start + k]? = ((repetition bytes)[k]?).map PulsePair.measured

theorem holdsRepetition_of_train (bytes : List Byte) (more : List MeasuredPair) {start : Nat}
    (h : start = 0 ∨ start = 8 * bytes.length + 2) :
    HoldsRepetition ((train bytes).map PulsePair.measured ++ more) start bytes := by
  intro k hk
  rw [List.getElem?_append_left (by simp; omega), List.getElem?_map]
  rcases h with rfl | rfl
  · rw [Nat.zero_add, getElem?_train_first bytes (by omega)]
  · rw [getElem?_train_second]

theorem holdsRepetition_train (bytes : List Byte) :
    HoldsRepetition ((train bytes).map PulsePair.measured) 0 bytes := by
  simpa using holdsRepetition_of_train bytes [] (.inl rfl)

section
variable {s : State} {bytes : List Byte}

theorem headerAtCursor_of_repetition (h : HoldsRepetition s.cap s.cur bytes) : s.headerAtCursor :=
  pairNear_of_getElem (by have := h 0 (by omega); rw [getElem?_repetition_zero] at this; exact this)

theorem capturedBit_of_repetition (hp : s.params.wellFormed) (h : HoldsRepetition s.cap s.cur bytes) {k : Nat}
    (hk : k < 8 * bytes.length) :
    capturedBit s.params s.cap (s.cur + 1 + k) = some ((bytes.getD (k / 8) 0).getLsbD (7 - k % 8)) := by
  refine capturedBit_of_symbol hp ?_
  rw [Nat.add_assoc, h (1 + k) (by omega), getElem?_repetition_bit bytes hk]
  rfl

theorem bitsReadable_of_repetition (hp : s.params.wellFormed) (h : HoldsRepetition s.cap s.cur bytes) {n : Nat}
    (hn : n ≤ 8 * bytes.length) : s.bitsReadable n := fun j hj => by
  rw [capturedBit_of_repetition hp h (by omega)]; rfl

theorem frameByte_of_repetition (hp : s.params.wellFormed) (h : HoldsRepetition s.cap s.cur bytes) {i : Nat}
    (hi : i < bytes.length) : s.frameByte i = bytes.getD i 0 := by
  refine capturedByte_of_bits fun j hj => ?_
  rw [show s.cur + 1 + 8 * i + j = s.cur + 1 + (8 * i + j) by omega, capturedBit_of_repetition hp h (by omega),
    show (8 * i + j) / 8 = i by omega, show (8 * i + j) % 8 = j by omega]

/-- The exclusive or of captured bytes is that of the bytes. -/
theorem frameXor_of_repetition (hp : s.params.wellFormed) (h : HoldsRepetition s.cap s.cur bytes) {a n : Nat}
    (hn : a + n ≤ bytes.length) : s.frameXor a n = xorAll ((List.range' a n).map fun i => bytes.getD i 0) := by
  unfold State.frameXor
  congr 1
  refine List.map_congr_left fun i hi => ?_
  have := List.mem_range'_1.mp hi
  exact frameByte_of_repetition hp h (by omega)

end

/-- Bytes that are a valid frame: the length is 6 to 14 and is the one the third byte states, and both checksums hold
(R71). -/
structure ValidFrame (bytes : List Byte) : Prop where
  length : bytes.length = 6 + (bytes.getD 2 0).toNat
  short : (bytes.getD 2 0).toNat ≤ 8
  headerSum : bytes.getD 3 0 = bytes.getD 0 0 ^^^ bytes.getD 1 0 ^^^ bytes.getD 2 0
  payloadSum : bytes.getD (bytes.length - 1) 0 =
    xorAll ((List.range' 4 (bytes.length - 5)).map fun i => bytes.getD i 0)

/-- DECODE of a captured valid frame (R142). -/
theorem decodeCapture_of_validFrame {s : State} {bytes : List Byte} (hp : s.params.wellFormed)
    (h : HoldsRepetition s.cap s.cur bytes) (hv : ValidFrame bytes) :
    ∃ fb : Memory, decodeCapture s =
        { s with
          fb := fb
          flen := BitVec.ofNat 4 bytes.length
          cur := s.cur + (1 + 8 * bytes.length)
          dstat := Dstat.success } ∧
      fb.wf ∧ (∀ a, fb.read a = bytes.getD a 0) ∧ fb.holdsFrame bytes.length := by
  have hl := hv.length
  have hs := hv.short
  have byte (i : Nat) (hi : i < bytes.length) := frameByte_of_repetition hp h hi
  have b2 : (s.frameByte 2).toNat = (bytes.getD 2 0).toNat := by rw [byte 2 (by omega)]
  have hn : 6 + (s.frameByte 2).toNat = bytes.length := by omega
  have hc : s.frameByte 3 = s.frameByte 0 ^^^ s.frameByte 1 ^^^ s.frameByte 2 := by
    rw [byte 0 (by omega), byte 1 (by omega), byte 2 (by omega), byte 3 (by omega)]
    exact hv.headerSum
  have hr : s.bitsReadable (8 * (6 + (s.frameByte 2).toNat)) := bitsReadable_of_repetition hp h (by omega)
  have hx : s.frameByte (5 + (s.frameByte 2).toNat) = s.frameXor 4 ((s.frameByte 2).toNat + 1) := by
    rw [byte _ (by omega), frameXor_of_repetition hp h (by omega)]
    have := hv.payloadSum
    rwa [show bytes.length - 1 = 5 + (s.frameByte 2).toNat by omega,
      show bytes.length - 5 = (s.frameByte 2).toNat + 1 by omega] at this
  have key := decodeCapture_success (headerAtCursor_of_repetition h) hc (by omega) hr hx
  rw [hn] at key
  have hread : ∀ a, (afterFrame s bytes.length).fb.read a = bytes.getD a 0 := fun a => by
    rw [read_afterFrame (by omega) (by omega)]
    split
    · next ha => exact byte a ha
    · next ha => rw [List.getD_eq_getElem?_getD, List.getElem?_eq_none (by omega)]; rfl
  refine ⟨(afterFrame s bytes.length).fb, key, wf_afterFrame _ _, hread, ?_, ?_, ?_, ?_, ?_⟩
  · simp [Config.minFrame]; omega
  · simp [Config.maxFrame]; omega
  · rw [hread]; omega
  · simp only [cs1, hread]; exact hv.headerSum
  · rw [hread, hv.payloadSum]
    unfold cs2
    congr 1
    exact (List.map_congr_left fun a _ => (hread a).symm)

end Sys2Proof.Machine
end

