-- ==== Sys2Proof/Laws/Frames.lean ====
section
/-! SUPPORT. The bytes of a frame: their layout, that they are a valid frame, and what decodes to what (R70, R71, R82). -/

namespace Sys2Proof.Machine

@[simp] theorem length_frameBytes (c : Byte) (b : FrameBody) : (frameBytes c b).length = 6 + b.payload.length := by
  simp [frameBytes]; omega

theorem getD_frameBytes_payload (c : Byte) (b : FrameBody) {i : Nat} (h : i < b.payload.length) :
    (frameBytes c b).getD (5 + i) 0 = b.payload.getD i 0 := by
  simp only [frameBytes, List.getD_eq_getElem?_getD]
  rw [List.append_assoc, List.getElem?_append_right (by simp), List.getElem?_append_left (by simpa using h)]
  simp

theorem getD_frameBytes_last (c : Byte) (b : FrameBody) :
    (frameBytes c b).getD (5 + b.payload.length) 0 = xorAll (c :: b.payload) := by
  simp only [frameBytes, List.getD_eq_getElem?_getD]
  rw [List.getElem?_append_right (by simp; omega)]
  simp only [List.length_append, List.length_cons, List.length_nil]
  rw [show 5 + b.payload.length - (0 + 1 + 1 + 1 + 1 + 1 + b.payload.length) = 0 by omega]
  rfl

theorem getD_frameBytes_four (c : Byte) (b : FrameBody) : (frameBytes c b).getD 4 0 = c := rfl

/-- The bytes at offsets 4 .. 4 + n of a frame are the command and the payload. -/
theorem covered_frameBytes (c : Byte) (b : FrameBody) :
    (List.range' 4 (b.payload.length + 1)).map (fun i => (frameBytes c b).getD i 0) = c :: b.payload := by
  apply List.ext_getElem
  · simp
  · intro i h1 h2
    simp only [List.getElem_map, List.getElem_range', Nat.one_mul]
    obtain _ | i := i
    · rfl
    · have hi : i < b.payload.length := by simpa using h2
      rw [show 4 + (i + 1) = 5 + i by omega, getD_frameBytes_payload c b hi, List.getElem_cons_succ,
        List.getD_eq_getElem _ _ hi]

/-- An encoded frame is a valid frame (R114 on the encoder). -/
theorem validFrame_frameBytes (c : Byte) (b : FrameBody) (h : b.payload.length ≤ 8) : ValidFrame (frameBytes c b) := by
  have h2 : ((frameBytes c b).getD 2 0).toNat = b.payload.length := by
    show (BitVec.ofNat 8 b.payload.length).toNat = _
    rw [BitVec.toNat_ofNat, Nat.mod_eq_of_lt (by omega)]
  refine ⟨by rw [length_frameBytes, h2], by omega, rfl, ?_⟩
  rw [length_frameBytes, show 6 + b.payload.length - 1 = 5 + b.payload.length by omega, getD_frameBytes_last,
    show 6 + b.payload.length - 5 = b.payload.length + 1 by omega, covered_frameBytes]

theorem decodeFrame_frameBytes (c : Byte) (b : FrameBody) (h : b.payload.length ≤ 8) :
    decodeFrame (frameBytes c b) = .ok (frameOfCommand c b) := by
  have hn : (BitVec.ofNat 8 b.payload.length).toNat = b.payload.length := by
    rw [BitVec.toNat_ofNat, Nat.mod_eq_of_lt (by omega)]
  simp only [frameBytes, List.cons_append, List.nil_append, decodeFrame]
  rw [if_neg (by simp), if_neg (by rw [hn]; simp [Config.maxData]; omega), if_neg (by rw [hn]; simp),
    if_neg (by simp)]
  simp

/-- What decodes as a frame is the encoding of its command and body (R71). -/
theorem frameBytes_of_decodeFrame {bytes : List Byte} {i : Instr} (h : decodeFrame bytes = .ok i) :
    ∃ c b, b.payload.length ≤ 8 ∧ bytes = frameBytes c b ∧ i = frameOfCommand c b := by
  unfold decodeFrame at h
  split at h
  · next h0 h1 n c1 c rest =>
    split_ifs at h with e1 e2 e3 e4
    have e1 : c1 = h0 ^^^ h1 ^^^ n := not_not.mp e1
    have e2 : n.toNat ≤ 8 := by simpa [Config.maxData] using e2
    have e3 : rest.length = n.toNat + 1 := not_not.mp e3
    have e4 : rest.getLastD 0 = xorAll (c :: rest.dropLast) := not_not.mp e4
    have hne : rest ≠ [] := by rintro rfl; simp at e3
    have hlen : rest.dropLast.length = n.toNat := by simp [e3]
    have hlast : rest.getLast hne = rest.getLastD 0 := by
      rw [List.getLastD_eq_getLast?, List.getLast?_eq_getLast_of_ne_nil hne]; rfl
    refine ⟨c, ⟨h0, h1, rest.dropLast⟩, by simpa [hlen] using e2, ?_, ?_⟩
    · have hr : rest = rest.dropLast ++ [xorAll (c :: rest.dropLast)] := by
        conv_lhs => rw [← List.dropLast_append_getLast hne, hlast, e4]
      have hn : BitVec.ofNat 8 rest.dropLast.length = n := by rw [hlen]; simp
      simp only [frameBytes, hn, List.cons_append, List.nil_append]
      rw [e1, ← hr]
    · exact (Except.ok.inj h).symm
  · exact absurd h (by simp)

/-- The encoding of what a command and a body make. -/
theorem encode_frameOfCommand (c : Byte) (b : FrameBody) : encode (frameOfCommand c b) = .frame (frameBytes c b) := by
  unfold frameOfCommand
  split_ifs with h1 h2 h3 h4 h5 <;> simp [encode, *]

theorem wellFormed_frameOfCommand (c : Byte) (b : FrameBody) (h : b.payload.length ≤ 8) :
    (frameOfCommand c b).wellFormed = true := by
  have hb : b.wellFormed = true := decide_eq_true h
  unfold frameOfCommand
  split_ifs <;> simp_all [Instr.wellFormed, namedCommands]

theorem exec_frameOfCommand (c : Byte) (b : FrameBody) (s : State) :
    exec (frameOfCommand c b) s = receiveBytes (frameBytes c b) s := by
  unfold frameOfCommand
  split_ifs with h1 h2 h3 h4 h5 <;>
    simp [exec, execDefaultFrame, execMotionFrame, execTimerFrame, execPowerFrame, execComfortSleepFrame,
      execOtherFrame, *]

/-- RECEIVE of a valid frame from the pulse train it was encoded as. -/
theorem receiveBytes_of_validFrame {s : State} {bytes : List Byte} (hp : s.params.wellFormed) (hs : s.cfg.valid = true)
    (hv : ValidFrame bytes) :
    ∃ fb : Memory, receiveBytes bytes s = .next (mapFrame
        { s with
          cap := (train bytes).map PulsePair.measured
          cur := 0 + (1 + 8 * bytes.length)
          fb := fb
          flen := BitVec.ofNat 4 bytes.length
          dstat := Dstat.success }) ∧
      fb.wf ∧ (∀ a, fb.read a = bytes.getD a 0) ∧ fb.holdsFrame bytes.length := by
  obtain ⟨fb, hd, h⟩ := decodeCapture_of_validFrame
    (s := hostCapture s ((train bytes).map PulsePair.measured)) hp (holdsRepetition_train bytes) hv
  refine ⟨fb, ?_, h⟩
  simp only [receiveBytes, hostCapture_cfg, hs, if_true, receive, hd]
  rfl

end Sys2Proof.Machine
end

