-- ==== Sys2Proof/Laws/Operations.lean ====
section
/-! SUPPORT. One lemma for each shared operation that says all it can do: the builders, the encoder, the mapper, the
reception and the transmission. Provers cite these and do not unfold the operations. -/

namespace Sys2Proof.Machine

/-! ### Frames held in FB -/

theorem validFrame_bytes {fb : Memory} {l : Nat} (h : fb.holdsFrame l) : ValidFrame (fb.bytes l) := by
  obtain ⟨h6, h14, hl, hc, hp⟩ := h
  simp only [Config.minFrame, Config.maxFrame] at h6 h14
  have get (a : Nat) (ha : a < l) : (fb.bytes l).getD a 0 = fb.read a := by
    rw [List.getD_eq_getElem _ _ (by simpa using ha), Memory.getElem_bytes]
  refine ⟨?_, ?_, ?_, ?_⟩
  · rw [Memory.length_bytes, get 2 (by omega)]; exact hl
  · rw [get 2 (by omega)]; omega
  · rw [get 0 (by omega), get 1 (by omega), get 2 (by omega), get 3 (by omega)]; exact hc
  · rw [Memory.length_bytes, get _ (by omega), hp, cs2]
    congr 1
    refine List.map_congr_left fun a ha => ?_
    have := List.mem_range'_1.mp ha
    exact (get a (by omega)).symm

theorem getD_bytes (fb : Memory) {l a : Nat} (h : a < l) : (fb.bytes l).getD a 0 = fb.read a := by
  rw [List.getD_eq_getElem _ _ (by simpa using h), Memory.getElem_bytes]

/-! ### The builders -/

theorem wf_buildDefault (s : State) : (buildDefault s).fb.wf := by
  refine wf_finalize ?_ _
  dsimp only
  exact Memory.wf_write _ _ (Memory.wf_write _ _ (Memory.wf_write _ _ (Memory.wf_write _ _ Memory.wf_nil)))

theorem holdsFrame_buildDefault (s : State) : (buildDefault s).fb.holdsFrame 9 :=
  holdsFrame_finalize _ (by decide : Config.lenDefault ≤ 8)

/-- The fourteen bytes BUILD_DEFAULT leaves (R77, R160). -/
theorem bytes_buildDefault (s : State) :
    (buildDefault s).fb.bytes 14 =
      (let p0 := joinNibbles (temperatureOf s.params s.out.mode s.out.temp) 0
       let p1 := joinNibbles (fanCode s.params.fanCode s.out.fan) (modeCode s.params.modeCode s.out.mode)
       [s.params.header0, s.params.header1, 0x03, s.params.header0 ^^^ s.params.header1 ^^^ 0x03, 0x01, p0, p1, 0x00,
        0x01 ^^^ p0 ^^^ p1 ^^^ 0x00, 0, 0, 0, 0, 0]) := by
  have hr (p0 p1 : Byte) (a : Nat) : Memory.read ((((Memory.write [] 4 1#8).write 5 p0).write 6 p1).write 7 0#8) a =
      if a = 7 then 0#8 else if a = 6 then p1 else if a = 5 then p0 else if a = 4 then 1#8 else 0#8 := by
    simp (disch := decide) only [Memory.read_write, Memory.read_nil]
    rfl
  simp only [Memory.bytes, show List.range 14 = [0, 1, 2, 3, 4, 5, 6, 7, 8, 9, 10, 11, 12, 13] from rfl, List.map_cons,
    List.map_nil, buildDefault, Config.lenDefault, Config.cmdDefault]
  generalize joinNibbles (temperatureOf _ _ _) 0 = p0
  generalize joinNibbles (fanCode _ _) _ = p1
  simp only [List.cons.injEq]
  refine ⟨?_, ?_, ?_, ?_, ?_, ?_, ?_, ?_, ?_, ?_, ?_, ?_, ?_, ?_, trivial⟩ <;>
    rw [read_finalize _ (by decide)] <;> dsimp only <;>
    simp [hr, cs2, xorAll, List.range'_succ]

theorem wf_buildMotion (s : State) : (buildMotion s).fb.wf := by
  refine wf_finalize ?_ _
  dsimp only
  exact Memory.wf_write _ _ (Memory.wf_write _ _ Memory.wf_nil)

theorem holdsFrame_buildMotion (s : State) : (buildMotion s).fb.holdsFrame 7 :=
  holdsFrame_finalize _ (by decide : Config.lenMotion ≤ 8)

/-- The fourteen bytes BUILD_MOTION leaves (R81, R166). -/
theorem bytes_buildMotion (s : State) :
    (buildMotion s).fb.bytes 14 =
      (let p0 := joinNibbles 0 (swingCode s.swc s.out.swing)
       [s.params.header0, s.params.header1, 0x01, s.params.header0 ^^^ s.params.header1 ^^^ 0x01, 0x21, p0, 0x21 ^^^ p0,
        0, 0, 0, 0, 0, 0, 0]) := by
  have hr (p0 : Byte) (a : Nat) : Memory.read ((Memory.write [] 4 33#8).write 5 p0) a =
      if a = 5 then p0 else if a = 4 then 33#8 else 0#8 := by
    simp (disch := decide) only [Memory.read_write, Memory.read_nil]
    rfl
  simp only [Memory.bytes, show List.range 14 = [0, 1, 2, 3, 4, 5, 6, 7, 8, 9, 10, 11, 12, 13] from rfl, List.map_cons,
    List.map_nil, buildMotion, Config.lenMotion, Config.cmdMotion]
  generalize joinNibbles 0 _ = p0
  simp only [List.cons.injEq]
  refine ⟨?_, ?_, ?_, ?_, ?_, ?_, ?_, ?_, ?_, ?_, ?_, ?_, ?_, ?_, trivial⟩ <;>
    rw [read_finalize _ (by decide)] <;> dsimp only <;>
    simp [hr, cs2, xorAll, List.range'_succ]

/-- A read from the list of the buffer's bytes. -/
theorem read_of_bytes {fb : Memory} {l : List Byte} {n : Nat} (h : fb.bytes n = l) {a : Nat} (ha : a < n) :
    fb.read a = l.getD a 0 := by
  rw [← h, getD_bytes fb ha]

/-! ### The encoder -/

theorem train_length_le {s : State} (h : s.flen.toNat ≤ 14) :
    (train (s.fb.bytes s.flen.toNat)).length ≤ Config.pbSize := by
  simp [Config.pbSize, Config.repeats, Config.maxFrame]; omega

theorem plen_encodeFrame {s : State} (h : s.flen.toNat ≤ 14) : (encodeFrame s).plen.toNat = 16 * s.flen.toNat + 4 := by
  simp only [encodeFrame, length_train, Memory.length_bytes, BitVec.toNat_ofNat]
  omega

theorem take_pb_encodeFrame {s : State} (h : s.flen.toNat ≤ 14) :
    (encodeFrame s).pb.take (encodeFrame s).plen.toNat = train (s.fb.bytes s.flen.toNat) := by
  rw [plen_encodeFrame h]
  simp only [encodeFrame]
  rw [List.take_append_of_le_length (by simp)]
  exact List.take_of_length_le (by simp)

theorem length_pb_encodeFrame {s : State} (h : s.flen.toNat ≤ 14) (hb : s.pb.length = Config.pbSize) :
    (encodeFrame s).pb.length = Config.pbSize := by
  have := train_length_le h
  simp only [encodeFrame, List.length_append, List.length_drop, hb]
  omega

theorem execEncode_of_frame {s : State} (hs : s.cfg.valid = true) (h6 : 6 ≤ s.flen.toNat) (h14 : s.flen.toNat ≤ 14) :
    execEncode s = .next (encodeFrame s) := by
  simp only [execEncode, afterSetup, hs, if_true]
  rw [if_neg (by simp [Config.minFrame, Config.maxFrame]; omega)]

theorem train_buildDefault (s : State) :
    (encodeFrame (buildDefault s)).pb.take (encodeFrame (buildDefault s)).plen.toNat =
      train ((buildDefault s).fb.bytes 9) :=
  take_pb_encodeFrame (s := buildDefault s) (by rw [buildDefault_flen]; decide)

theorem train_buildMotion (s : State) :
    (encodeFrame (buildMotion s)).pb.take (encodeFrame (buildMotion s)).plen.toNat =
      train ((buildMotion s).fb.bytes 7) :=
  take_pb_encodeFrame (s := buildMotion s) (by rw [buildMotion_flen]; decide)

/-! ### The mapper and the reception -/

/-- MAP_FRAME writes `OUT`, `SNAP` and one log entry, which is `OUT` as it is then; `SNAP.temp` is not written. -/
theorem mapFrame_frame (s : State) :
    mapFrame s = { s with out := (mapFrame s).out, snap := (mapFrame s).snap,
                          log := s.log ++ [.publish (mapFrame s).out] } ∧
    (mapFrame s).snap.temp = s.snap.temp := by
  unfold mapFrame
  split_ifs <;> exact ⟨rfl, rfl⟩

theorem mapFrame_other {s : State} (h1 : s.fb.read 4 ≠ Config.cmdMotion) (h2 : s.fb.read 4 ≠ Config.cmdDefault) :
    mapFrame s = { s with log := s.log ++ [.publish s.out] } := by
  unfold mapFrame
  rw [if_neg h1, if_neg h2]
  rfl

/-- RECEIVE fails with DECODE's failure, or maps the frame DECODE left (R205). -/
theorem receive_cases (s : State) :
    (∃ c, c ≠ .none ∧ receive s = raise s c ∧ decodeCapture s = raise s c) ∨
    (∃ l, 6 ≤ l ∧ l ≤ 14 ∧ s.bitsReadable (8 * l) ∧ (afterFrame s l).fb.holdsFrame l ∧
      decodeCapture s = { afterFrame s l with flen := BitVec.ofNat 4 l, dstat := Dstat.success } ∧
      receive s = mapFrame { afterFrame s l with flen := BitVec.ofNat 4 l, dstat := Dstat.success }) := by
  rcases decodeCapture_cases s with ⟨c, hc, h⟩ | ⟨l, h6, h14, hr, hf, h⟩
  · exact .inl ⟨c, hc, by simp [receive, h, Dstat.failure], h⟩
  · exact .inr ⟨l, h6, h14, hr, hf, h, by simp [receive, h, Dstat.success]⟩

/-! ### The transmit cycle -/

/-- A call that the Transmitter completes returns, and is counted. -/
theorem awaitReturn_of_completes {s : State} (call : TransmitCall) (h : s.txCalls ≠ some 0) :
    awaitReturn call s = { s with waiting := none, txCalls := s.txCalls.map (· - 1) } := if_neg h

/-- A call that the Transmitter does not complete is waited in. -/
theorem awaitReturn_of_blocked {s : State} (call : TransmitCall) (h : s.txCalls = some 0) :
    awaitReturn call s = { s with waiting := some call } := if_pos h

theorem transmit_of_completes {s : State} (call : TransmitCall) (h : s.txCalls ≠ some 0) :
    transmit call s = { s with log := s.log ++ [.transmit ⟨38000, s.pb.take s.plen.toNat⟩], waiting := none,
                               txCalls := s.txCalls.map (· - 1) } := awaitReturn_of_completes call h

theorem transmit_of_blocked {s : State} (call : TransmitCall) (h : s.txCalls = some 0) :
    transmit call s = { s with log := s.log ++ [.transmit ⟨38000, s.pb.take s.plen.toNat⟩], waiting := some call } :=
  awaitReturn_of_blocked call h

/-- A `Transmit` writes the log, the count of calls and whether the block waits, and nothing else. -/
theorem transmit_frame (call : TransmitCall) (s : State) :
    transmit call s = { s with log := (transmit call s).log, waiting := (transmit call s).waiting,
                               txCalls := (transmit call s).txCalls } := by
  by_cases h : s.txCalls = some 0
  · rw [transmit_of_blocked call h]
  · rw [transmit_of_completes call h]

theorem whenReturned_of_none {s : State} (h : s.waiting = none) (f : State → State) : whenReturned s f = f s := if_pos h

theorem whenReturned_of_waiting {s : State} (h : s.waiting ≠ none) (f : State → State) : whenReturned s f = s := if_neg h

end Sys2Proof.Machine
end

