-- ==== Sys2Proof/Laws/Controller.lean ====
section
/-! SUPPORT. The transmit cycle, step by step: when a step completes, and all it can do if it does (R181 to R187). -/

namespace Sys2Proof.Machine

/-! ### The frames a cycle sends -/

theorem execEncode_buildDefault {s : State} (hs : s.cfg.valid = true) :
    execEncode (buildDefault s) = .next (encodeFrame (buildDefault s)) :=
  execEncode_of_frame hs (by rw [buildDefault_flen]; decide) (by rw [buildDefault_flen]; decide)

theorem execEncode_buildMotion {s : State} (hs : s.cfg.valid = true) :
    execEncode (buildMotion s) = .next (encodeFrame (buildMotion s)) :=
  execEncode_of_frame hs (by rw [buildMotion_flen]; decide) (by rw [buildMotion_flen]; decide)

/-- The motion frame depends on the parameters, `SWC` and `OUT.swing` only (R166). -/
theorem buildMotion_fb_congr {s u : State} (h1 : s.params = u.params) (h2 : s.swc = u.swc)
    (h3 : s.out.swing = u.out.swing) : (buildMotion s).fb = (buildMotion u).fb := by
  refine Memory.ext_read (wf_buildMotion s) (wf_buildMotion u) fun a => ?_
  by_cases ha : a < 14
  · rw [read_of_bytes (bytes_buildMotion s) ha, read_of_bytes (bytes_buildMotion u) ha, h1, h2, h3]
  · have h14 : Config.maxFrame ≤ a := by simp [Config.maxFrame]; omega
    rw [Memory.read_of_maxFrame_le (wf_buildMotion s) h14, Memory.read_of_maxFrame_le (wf_buildMotion u) h14]

theorem transmitted_buildMotion_congr {s u : State} (h : (buildMotion s).fb = (buildMotion u).fb) :
    (encodeFrame (buildMotion s)).pb.take (encodeFrame (buildMotion s)).plen.toNat =
      (encodeFrame (buildMotion u)).pb.take (encodeFrame (buildMotion u)).plen.toNat := by
  rw [train_buildMotion, train_buildMotion, h]

/-! ### Step 1 -/

/-- Step 1 with nothing to send does nothing. -/
theorem defaultStep_of_equal {s : State} (h : defaultDiffers s = false) : defaultStep s = s := by simp [defaultStep, h]

/-- Step 1 with something to send and a Transmitter that completes the call: the default frame is built, encoded and
transmitted, then the override (R181 to R183). -/
theorem defaultStep_of_returned {s : State} (hd : defaultDiffers s = true) (h : s.txCalls ≠ some 0) :
    let d := encodeFrame (buildDefault s)
    let out : Thermo := if s.snap.mode = .off then { s.out with swing := .vertical } else s.out
    defaultStep s = { d with
      out := out
      log := s.log ++ [.transmit ⟨38000, d.pb.take d.plen.toNat⟩] ++ (if s.snap.mode = .off then [.publish out] else [])
      txCalls := s.txCalls.map (· - 1)
      waiting := none } := by
  intro d out
  rw [defaultStep, if_pos hd, transmit_of_completes _ (by simpa using h), whenReturned_of_none rfl, overrideSwing]
  by_cases ho : s.snap.mode = .off
  · rw [if_pos (by simpa using ho)]
    simp only [out, if_pos ho]
    rfl
  · rw [if_neg (by simpa using ho)]
    simp only [out, if_neg ho, List.append_nil]
    rfl

/-- Step 1 with something to send and a Transmitter that does not complete the call: the cycle waits in it (R282). -/
theorem defaultStep_of_blocked {s : State} (hd : defaultDiffers s = true) (h : s.txCalls = some 0) :
    let d := encodeFrame (buildDefault s)
    defaultStep s = { d with
      log := s.log ++ [.transmit ⟨38000, d.pb.take d.plen.toNat⟩], waiting := some .defaultFrame } := by
  intro d
  rw [defaultStep, if_pos hd, transmit_of_blocked _ (by simpa using h), whenReturned_of_waiting (by simp)]
  rfl

/-- What step 1 leaves alone. -/
theorem defaultStep_frame (s : State) :
    (let t := defaultStep s
     t = { s with out := t.out, log := t.log, fb := t.fb, flen := t.flen, pb := t.pb, plen := t.plen,
                  txCalls := t.txCalls, waiting := t.waiting }) ∧
    ((defaultStep s).out = s.out ∨ (defaultStep s).out = { s.out with swing := .vertical }) := by
  by_cases hd : defaultDiffers s = true
  · by_cases h : s.txCalls = some 0
    · rw [defaultStep_of_blocked hd h]; exact ⟨rfl, .inl rfl⟩
    · rw [defaultStep_of_returned hd h]
      refine ⟨rfl, ?_⟩
      dsimp only
      split_ifs <;> simp
  · rw [defaultStep_of_equal (by simpa using hd)]; exact ⟨rfl, .inl rfl⟩

/-! ### Step 2 -/

/-- Step 2 with nothing to send does nothing. -/
theorem motionStep_of_equal {s : State} (h : swingDiffers s = false) : motionStep s = s := by simp [motionStep, h]

/-- Step 2 with something to send and a Transmitter that completes the call (R181, R184). -/
theorem motionStep_of_returned {s : State} (hd : swingDiffers s = true) (h : s.txCalls ≠ some 0) :
    let m := encodeFrame (buildMotion s)
    motionStep s = { m with
      log := s.log ++ [.transmit ⟨38000, m.pb.take m.plen.toNat⟩]
      txCalls := s.txCalls.map (· - 1)
      waiting := none } := by
  intro m
  rw [motionStep, if_pos hd, transmit_of_completes _ (by simpa using h)]
  rfl

/-- Step 2 with something to send and a Transmitter that does not complete the call: the cycle waits in it (R282). -/
theorem motionStep_of_blocked {s : State} (hd : swingDiffers s = true) (h : s.txCalls = some 0) :
    let m := encodeFrame (buildMotion s)
    motionStep s = { m with
      log := s.log ++ [.transmit ⟨38000, m.pb.take m.plen.toNat⟩], waiting := some .motionFrame } := by
  intro m
  rw [motionStep, if_pos hd, transmit_of_blocked _ (by simpa using h)]
  rfl

/-- What step 2 leaves alone. -/
theorem motionStep_frame (s : State) :
    let t := motionStep s
    t = { s with log := t.log, fb := t.fb, flen := t.flen, pb := t.pb, plen := t.plen, txCalls := t.txCalls,
                 waiting := t.waiting } := by
  by_cases hd : swingDiffers s = true
  · by_cases h : s.txCalls = some 0
    · rw [motionStep_of_blocked hd h]; rfl
    · rw [motionStep_of_returned hd h]; rfl
  · rw [motionStep_of_equal (by simpa using hd)]

/-! ### The cycle -/

theorem execTransmitState_eq {s : State} (hs : s.cfg.valid = true) :
    execTransmitState s = .next (afterDefaultStep (defaultStep s)) := if_pos hs

/-- Nothing follows a step 1 that waits. -/
theorem afterDefaultStep_of_waiting {u : State} (h : u.waiting ≠ none) : afterDefaultStep u = u := by
  rw [afterDefaultStep, whenReturned_of_waiting h, whenReturned_of_waiting h]

theorem afterDefaultStep_of_none {u : State} (h : u.waiting = none) :
    afterDefaultStep u = whenReturned (motionStep u) recordSnapshot := by
  rw [afterDefaultStep, whenReturned_of_none h]

/-- A cycle whose call is still not completed goes on waiting in it (R282). -/
theorem resumeCycle_of_blocked {s : State} (call : TransmitCall) (h : s.txCalls = some 0) :
    resumeCycle call s = { s with waiting := some call } := by
  have hw : (awaitReturn call s).waiting ≠ none := by rw [awaitReturn_of_blocked call h]; simp
  cases call with
  | defaultFrame => rw [resumeCycle, whenReturned_of_waiting hw, afterDefaultStep_of_waiting hw, awaitReturn_of_blocked _ h]
  | motionFrame => rw [resumeCycle, whenReturned_of_waiting hw, awaitReturn_of_blocked _ h]

/-- What follows step 1: nothing while its call blocks; step 2, and nothing after it while its call blocks; else the
snapshot too (R181, R282). -/
theorem afterDefaultStep_cases (u : State) :
    (u.waiting ≠ none ∧ afterDefaultStep u = u) ∨
    (u.waiting = none ∧ (motionStep u).waiting ≠ none ∧ afterDefaultStep u = motionStep u) ∨
    (u.waiting = none ∧ (motionStep u).waiting = none ∧ afterDefaultStep u = recordSnapshot (motionStep u)) := by
  by_cases hu : u.waiting = none
  · rw [afterDefaultStep_of_none hu]
    by_cases hm : (motionStep u).waiting = none
    · exact .inr (.inr ⟨hu, hm, whenReturned_of_none hm _⟩)
    · exact .inr (.inl ⟨hu, hm, whenReturned_of_waiting hm _⟩)
  · exact .inl ⟨hu, afterDefaultStep_of_waiting hu⟩

/-- A step begins to wait only for a Transmitter that completes no call. -/
theorem defaultStep_waits {s : State} (hw : s.waiting = none) (h : (defaultStep s).waiting ≠ none) :
    defaultDiffers s = true ∧ s.txCalls = some 0 := by
  by_cases hd : defaultDiffers s = true
  · refine ⟨hd, ?_⟩
    by_contra hc
    rw [defaultStep_of_returned hd hc] at h
    exact h rfl
  · rw [defaultStep_of_equal (by simpa using hd)] at h; exact absurd hw h

theorem motionStep_waits {s : State} (hw : s.waiting = none) (h : (motionStep s).waiting ≠ none) :
    swingDiffers s = true ∧ s.txCalls = some 0 := by
  by_cases hd : swingDiffers s = true
  · refine ⟨hd, ?_⟩
    by_contra hc
    rw [motionStep_of_returned hd hc] at h
    exact h rfl
  · rw [motionStep_of_equal (by simpa using hd)] at h; exact absurd hw h

/-- A transmit cycle of equal `OUT` and `SNAP` has nothing to send. -/
theorem nothing_differs {s : State} (h : s.out = s.snap) : defaultDiffers s = false ∧ swingDiffers s = false := by
  simp [defaultDiffers, swingDiffers, h]

/-- A cycle that has begun to wait had a frame to send and too few calls of the Transmitter left, and `SNAP` is as on
entry (R282). -/
theorem transmitCycle_waits {s : State} (hw : s.waiting = none)
    (h : (afterDefaultStep (defaultStep s)).waiting ≠ none) :
    let t := afterDefaultStep (defaultStep s)
    s.out ≠ s.snap ∧ (s.txCalls = some 0 ∨ s.txCalls = some 1) ∧ t.txCalls = some 0 ∧ t.snap = s.snap := by
  intro t
  have hf := (defaultStep_frame s).1
  have hsnap : (defaultStep s).snap = s.snap := by rw [hf]
  rcases afterDefaultStep_cases (defaultStep s) with ⟨hu, ht⟩ | ⟨hu, hm, ht⟩ | ⟨_, hm, ht⟩
  · obtain ⟨hd, hc⟩ := defaultStep_waits hw hu
    refine ⟨fun he => by simp [(nothing_differs he).1] at hd, .inl hc, ?_, ?_⟩
    · simp only [t, ht, defaultStep_of_blocked hd hc]; exact hc
    · simp only [t, ht, hsnap]
  · obtain ⟨hd, hc⟩ := motionStep_waits hu hm
    have hts : t.snap = s.snap := by simp only [t, ht, motionStep_of_blocked hd hc]; exact hsnap
    have htc : t.txCalls = some 0 := by simp only [t, ht, motionStep_of_blocked hd hc]; exact hc
    by_cases h1 : defaultDiffers s = true
    · have hc0 : s.txCalls ≠ some 0 := fun hc0 => by rw [defaultStep_of_blocked h1 hc0] at hu; simp at hu
      refine ⟨fun he => by simp [(nothing_differs he).1] at h1, .inr ?_, htc, hts⟩
      rw [defaultStep_of_returned h1 hc0] at hc
      dsimp only at hc
      cases hn : s.txCalls with
      | none => simp [hn] at hc
      | some n =>
        simp only [hn, Option.map_some, Option.some.injEq, ne_eq] at hc hc0 ⊢
        omega
    · rw [defaultStep_of_equal (by simpa using h1)] at hd hc
      exact ⟨fun he => by simp [(nothing_differs he).2] at hd, .inl hc, htc, hts⟩
  · rw [ht] at h; exact absurd hm h

end Sys2Proof.Machine
end

