-- ==== Sys2Proof/Laws/Instructions.lean ====
section
/-! SUPPORT. What any one instruction can do at all: which fields it can write and what it can add to the log. -/

namespace Sys2Proof.Machine

/-- What no instruction but `SETUP` does otherwise: the parameters, the pending moves, `CFG` and `SWC` stay, the log only
grows, by at most `n` events, transmissions at 38 kHz among them only if `mayTransmit`, and only then are calls of the
Transmitter counted or waited in. -/
structure Leaves (n : Nat) (mayTransmit : Prop) (s t : State) : Prop where
  params : t.params = s.params
  port : t.port = s.port
  cfg : t.cfg = s.cfg
  swc : t.swc = s.swc
  calls : mayTransmit ∨ t.txCalls = s.txCalls ∧ t.waiting = s.waiting
  log : ∃ added, t.log = s.log ++ added ∧ added.length ≤ n ∧
    ∀ x, Event.transmit x ∈ added → x.hz = 38000 ∧ mayTransmit

section
variable {n m : Nat} {may : Prop} {s t u : State}

/-- Nothing is added to the log. -/
theorem Leaves.of_log_eq (h1 : t.params = s.params) (h2 : t.port = s.port) (h3 : t.txCalls = s.txCalls)
    (h4 : t.waiting = s.waiting) (h5 : t.cfg = s.cfg) (h6 : t.swc = s.swc) (h7 : t.log = s.log) : Leaves n may s t :=
  ⟨h1, h2, h5, h6, .inr ⟨h3, h4⟩, [], by simp [h7], by simp, by simp⟩

theorem Leaves.mono (h : Leaves n may s t) (hn : n ≤ m) : Leaves m may s t :=
  ⟨h.params, h.port, h.cfg, h.swc, h.calls, h.log.imp fun _ ⟨h1, h2, h3⟩ => ⟨h1, h2.trans hn, h3⟩⟩

theorem Leaves.trans (h : Leaves n may s t) (h' : Leaves m may t u) : Leaves (n + m) may s u := by
  obtain ⟨a, ha, hla, hta⟩ := h.log
  obtain ⟨b, hb, hlb, htb⟩ := h'.log
  refine ⟨h'.params.trans h.params, h'.port.trans h.port, h'.cfg.trans h.cfg, h'.swc.trans h.swc, ?_, a ++ b, ?_, ?_, ?_⟩
  · rcases h.calls with hc | ⟨hc, hw⟩
    · exact .inl hc
    · exact h'.calls.imp id fun ⟨hc', hw'⟩ => ⟨hc'.trans hc, hw'.trans hw⟩
  · rw [hb, ha, List.append_assoc]
  · rw [List.length_append]; omega
  · intro x hx
    exact (List.mem_append.mp hx).elim (hta x) (htb x)

theorem Leaves.refuse (s : State) (w : RefusalMark) : Leaves n may s (refuse s w) :=
  .of_log_eq rfl rfl rfl rfl rfl rfl rfl

theorem Leaves.publish (s : State) : Leaves 1 may s (publish s) :=
  ⟨rfl, rfl, rfl, rfl, .inr ⟨rfl, rfl⟩, _, rfl, by simp, by simp⟩

theorem decodeCapture_frame (s : State) : decodeCapture s =
    { s with fb := (decodeCapture s).fb, flen := (decodeCapture s).flen, dstat := (decodeCapture s).dstat,
             cur := (decodeCapture s).cur, draws := (decodeCapture s).draws } := by
  rcases decodeCapture_cases s with ⟨c, _, h⟩ | ⟨l, _, _, _, _, h⟩ <;> rw [h] <;> rfl

theorem Leaves.decodeCapture (s : State) : Leaves n may s (decodeCapture s) := by
  rw [decodeCapture_frame]; exact .of_log_eq rfl rfl rfl rfl rfl rfl rfl

theorem Leaves.mapFrame (s : State) : Leaves 1 may s (mapFrame s) := by
  have h := (mapFrame_frame s).1
  have hl : (Machine.mapFrame s).log = s.log ++ [.publish (Machine.mapFrame s).out] := by rw [h]
  exact ⟨by rw [h], by rw [h], by rw [h], by rw [h], .inr ⟨by rw [h], by rw [h]⟩, _, hl, by simp, by simp⟩

theorem Leaves.receive (s : State) : Leaves 1 may s (receive s) := by
  have hd := Leaves.decodeCapture (n := 0) (may := may) s
  unfold Machine.receive
  dsimp only
  split
  · exact (hd.trans (Leaves.mapFrame _)).mono (by decide)
  · exact hd.mono (by decide)

theorem Leaves.receiveBytes {bytes : List Byte} (h : receiveBytes bytes s = .next t) : Leaves 1 may s t := by
  unfold Machine.receiveBytes at h
  dsimp only at h
  have hc : Leaves 0 may s (hostCapture s ((train bytes).map PulsePair.measured)) :=
    .of_log_eq rfl rfl rfl rfl rfl rfl rfl
  split at h <;> have h := Host.Outcome.next.inj h <;> subst h
  · exact (hc.trans (Leaves.receive _)).mono (by decide)
  · exact (hc.trans (Leaves.refuse (n := 1) _ _)).mono (by decide)

theorem Leaves.askFor (symbol : PulsePair) (s : State) : Leaves n may s (askFor symbol s) := by
  unfold Machine.askFor matchPair
  split
  · split <;> exact .of_log_eq rfl rfl rfl rfl rfl rfl rfl
  · exact .of_log_eq rfl rfl rfl rfl rfl rfl rfl

/-! ### The transmit cycle -/

theorem Leaves.awaitReturn (hmay : may) (call : TransmitCall) (s : State) : Leaves n may s (awaitReturn call s) :=
  ⟨awaitReturn_params .., awaitReturn_port .., awaitReturn_cfg .., awaitReturn_swc .., .inl hmay, [],
    by rw [awaitReturn_log, List.append_nil], by simp, by simp⟩

theorem Leaves.transmit (hmay : may) (call : TransmitCall) (s : State) : Leaves 1 may s (transmit call s) :=
  ⟨transmit_params .., transmit_port .., transmit_cfg .., transmit_swc .., .inl hmay, _, transmit_log .., by simp,
    fun x hx => ⟨by simp at hx; rw [hx], hmay⟩⟩

theorem Leaves.whenReturned {f : State → State} (h : ∀ s, Leaves n may s (f s)) (s : State) :
    Leaves n may s (whenReturned s f) := by
  unfold Machine.whenReturned
  split
  · exact h s
  · exact .of_log_eq rfl rfl rfl rfl rfl rfl rfl

theorem Leaves.overrideSwing (s : State) : Leaves 1 may s (overrideSwing s) := by
  unfold Machine.overrideSwing
  split
  · have ho : Leaves 0 may s { s with out := { s.out with swing := .vertical } } :=
      .of_log_eq rfl rfl rfl rfl rfl rfl rfl
    exact ho.trans (.publish _)
  · exact .of_log_eq rfl rfl rfl rfl rfl rfl rfl

theorem Leaves.defaultStep (hmay : may) (s : State) : Leaves 2 may s (defaultStep s) := by
  unfold Machine.defaultStep
  split
  · have hd : Leaves 0 may s (encodeFrame (buildDefault s)) := .of_log_eq rfl rfl rfl rfl rfl rfl rfl
    exact (hd.trans (.transmit hmay _ _)).trans (.whenReturned .overrideSwing _)
  · exact .of_log_eq rfl rfl rfl rfl rfl rfl rfl

theorem Leaves.motionStep (hmay : may) (s : State) : Leaves 1 may s (motionStep s) := by
  unfold Machine.motionStep
  split
  · have hm : Leaves 0 may s (encodeFrame (buildMotion s)) := .of_log_eq rfl rfl rfl rfl rfl rfl rfl
    exact hm.trans (.transmit hmay _ _)
  · exact .of_log_eq rfl rfl rfl rfl rfl rfl rfl

theorem Leaves.recordSnapshot (s : State) : Leaves n may s (recordSnapshot s) := .of_log_eq rfl rfl rfl rfl rfl rfl rfl

theorem Leaves.afterDefaultStep (hmay : may) (s : State) : Leaves 1 may s (afterDefaultStep s) :=
  (Leaves.whenReturned (.motionStep hmay) s).trans (.whenReturned (n := 0) .recordSnapshot _)

/-- The whole cycle, at once. -/
theorem Leaves.transmitCycle (hmay : may) (s : State) : Leaves 3 may s (Machine.afterDefaultStep (Machine.defaultStep s)) :=
  (Leaves.defaultStep hmay s).trans (.afterDefaultStep hmay _)

/-- The rest of a cycle that waited. -/
theorem Leaves.resumeCycle (hmay : may) (call : TransmitCall) (s : State) : Leaves 2 may s (resumeCycle call s) := by
  unfold Machine.resumeCycle
  cases call with
  | defaultFrame =>
    exact ((Leaves.awaitReturn (n := 0) hmay _ s).trans (.whenReturned .overrideSwing _)).trans (.afterDefaultStep hmay _)
  | motionFrame =>
    exact ((Leaves.awaitReturn (n := 0) hmay _ s).trans (.whenReturned (n := 0) .recordSnapshot _)).mono (by decide)

/-- An operation that waits for `SETUP`: refused, or run. -/
theorem afterSetup_cases {f : State → Answer} (h : afterSetup s f = .next t) :
    (s.cfg.valid = false ∧ t = Machine.refuse s .notSetUp) ∨ (s.cfg.valid = true ∧ f s = .next t) := by
  unfold afterSetup at h
  split at h
  · next hs => exact .inr ⟨hs, h⟩
  · next hs => exact .inl ⟨by simpa using hs, (Host.Outcome.next.inj h).symm⟩

end

/-- `SETUP` leaves all but `CFG` and `SWC`, and these once `CFG.valid` = 1 (R228). -/
theorem execSetup_cases {v : Nat} {s t : State} (h : execSetup v s = .next t) :
    (∃ w, t = refuse s w) ∨
    (s.cfg.valid = false ∧ ∃ codes, s.params.swingCodes[v]? = some codes ∧
      t = { s with cfg := { valid := true, variant := v }, swc := codes }) := by
  unfold execSetup at h
  split at h
  · exact .inl ⟨_, (Host.Outcome.next.inj h).symm⟩
  · next hs =>
    split at h
    · exact .inl ⟨_, (Host.Outcome.next.inj h).symm⟩
    · next codes hc => exact .inr ⟨by simpa using hs, codes, hc, (Host.Outcome.next.inj h).symm⟩

/-- An instruction other than `SETUP` that answers a next state. -/
theorem exec_leaves {i : Instr} {s t : State} (h : exec i s = .next t) (hi : ∀ v, i ≠ .setup v) :
    Leaves 3 (i = .transmitState) s t := by
  cases i with
  | setup v => exact absurd rfl (hi v)
  | finalize dl =>
    unfold exec execFinalize at h
    rcases afterSetup_cases h with ⟨_, rfl⟩ | ⟨_, h⟩
    · exact .refuse _ _
    · split at h <;> have h := Host.Outcome.next.inj h <;> subst h
      · exact .refuse _ _
      · exact .of_log_eq rfl rfl rfl rfl rfl rfl rfl
  | validateHeader =>
    unfold exec execValidateHeader at h
    rcases afterSetup_cases h with ⟨_, rfl⟩ | ⟨_, h⟩
    · exact .refuse _ _
    · have h := Host.Outcome.next.inj h; subst h; exact .of_log_eq rfl rfl rfl rfl rfl rfl rfl
  | validatePayload len =>
    unfold exec execValidatePayload at h
    rcases afterSetup_cases h with ⟨_, rfl⟩ | ⟨_, h⟩
    · exact .refuse _ _
    · split at h <;> have h := Host.Outcome.next.inj h <;> subst h
      · exact .refuse _ _
      · exact .of_log_eq rfl rfl rfl rfl rfl rfl rfl
  | buildDefault =>
    unfold exec execBuildDefault at h
    rcases afterSetup_cases h with ⟨_, rfl⟩ | ⟨_, h⟩
    · exact .refuse _ _
    · have h := Host.Outcome.next.inj h; subst h; exact .of_log_eq rfl rfl rfl rfl rfl rfl rfl
  | buildMotion =>
    unfold exec execBuildMotion at h
    rcases afterSetup_cases h with ⟨_, rfl⟩ | ⟨_, h⟩
    · exact .refuse _ _
    · have h := Host.Outcome.next.inj h; subst h; exact .of_log_eq rfl rfl rfl rfl rfl rfl rfl
  | encode =>
    unfold exec execEncode at h
    rcases afterSetup_cases h with ⟨_, rfl⟩ | ⟨_, h⟩
    · exact .refuse _ _
    · split at h <;> have h := Host.Outcome.next.inj h <;> subst h
      · exact .refuse _ _
      · exact .of_log_eq rfl rfl rfl rfl rfl rfl rfl
  | decode =>
    unfold exec execDecode at h
    rcases afterSetup_cases h with ⟨_, rfl⟩ | ⟨_, h⟩
    · exact .refuse _ _
    · have h := Host.Outcome.next.inj h; subst h; exact .decodeCapture s
  | mapFrame =>
    unfold exec execMapFrame at h
    rcases afterSetup_cases h with ⟨_, rfl⟩ | ⟨_, h⟩
    · exact .refuse _ _
    · split at h <;> have h := Host.Outcome.next.inj h <;> subst h
      · exact .refuse _ _
      · exact (Leaves.mapFrame s).mono (by decide)
  | transmitState =>
    unfold exec execTransmitState at h
    rcases afterSetup_cases h with ⟨_, rfl⟩ | ⟨_, h⟩
    · exact .refuse _ _
    · have h := Host.Outcome.next.inj h; subst h; exact .transmitCycle rfl s
  | receive =>
    unfold exec execReceive at h
    rcases afterSetup_cases h with ⟨_, rfl⟩ | ⟨_, h⟩
    · exact .refuse _ _
    · have h := Host.Outcome.next.inj h; subst h; exact (Leaves.receive s).mono (by decide)
  | defaultFrame b => exact (Leaves.receiveBytes h).mono (by decide)
  | motionFrame b => exact (Leaves.receiveBytes h).mono (by decide)
  | timerFrame b => exact (Leaves.receiveBytes h).mono (by decide)
  | powerFrame b => exact (Leaves.receiveBytes h).mono (by decide)
  | comfortSleepFrame b => exact (Leaves.receiveBytes h).mono (by decide)
  | otherFrame c b => exact (Leaves.receiveBytes h).mono (by decide)
  | reservedOpB => have h := Host.Outcome.next.inj h; subst h; exact .refuse _ _
  | reservedOpC => have h := Host.Outcome.next.inj h; subst h; exact .refuse _ _
  | reservedOpD => have h := Host.Outcome.next.inj h; subst h; exact .refuse _ _
  | reservedOpE => have h := Host.Outcome.next.inj h; subst h; exact .refuse _ _
  | reservedOpF => have h := Host.Outcome.next.inj h; subst h; exact .refuse _ _
  | hdr => have h := Host.Outcome.next.inj h; subst h; exact .askFor _ s
  | bit0 => have h := Host.Outcome.next.inj h; subst h; exact .askFor _ s
  | bit1 => have h := Host.Outcome.next.inj h; subst h; exact .askFor _ s
  | trail => have h := Host.Outcome.next.inj h; subst h; exact .askFor _ s

/-- Every instruction completes, or, for a transmit cycle, answers the state that waits (R252, R282). -/
theorem exec_completes (i : Instr) (s : State) : ∃ t, exec i s = .next t := by
  have after {f : State → Answer} (hf : ∃ t, f s = .next t) : ∃ t, afterSetup s f = .next t := by
    unfold afterSetup; split
    · exact hf
    · exact ⟨_, rfl⟩
  have received (bytes : List Byte) : ∃ t, receiveBytes bytes s = .next t := by
    unfold receiveBytes; dsimp only; split <;> exact ⟨_, rfl⟩
  cases i with
  | setup v =>
    show ∃ t, execSetup v s = .next t
    unfold execSetup
    split
    · exact ⟨_, rfl⟩
    · split <;> exact ⟨_, rfl⟩
  | finalize dl => unfold exec execFinalize; exact after (by split <;> exact ⟨_, rfl⟩)
  | validatePayload len => unfold exec execValidatePayload; exact after (by split <;> exact ⟨_, rfl⟩)
  | encode => unfold exec execEncode; exact after (by split <;> exact ⟨_, rfl⟩)
  | mapFrame => unfold exec execMapFrame; exact after (by split <;> exact ⟨_, rfl⟩)
  | validateHeader => unfold exec execValidateHeader; exact after ⟨_, rfl⟩
  | buildDefault => unfold exec execBuildDefault; exact after ⟨_, rfl⟩
  | buildMotion => unfold exec execBuildMotion; exact after ⟨_, rfl⟩
  | decode => unfold exec execDecode; exact after ⟨_, rfl⟩
  | receive => unfold exec execReceive; exact after ⟨_, rfl⟩
  | transmitState => unfold exec execTransmitState; exact after ⟨_, rfl⟩
  | defaultFrame b => exact received _
  | motionFrame b => exact received _
  | timerFrame b => exact received _
  | powerFrame b => exact received _
  | comfortSleepFrame b => exact received _
  | otherFrame c b => exact received _
  | _ => exact ⟨_, rfl⟩

/-- Only a transmit cycle begins to wait (R282). -/
theorem exec_waits {i : Instr} {s t : State} (h : exec i s = .next t) (hs : s.waiting = none) (ht : t.waiting ≠ none) :
    i = .transmitState ∧ s.cfg.valid = true ∧ t = afterDefaultStep (defaultStep s) := by
  by_cases hi : ∃ v, i = .setup v
  · obtain ⟨v, rfl⟩ := hi
    obtain ⟨w, rfl⟩ | ⟨_, c, _, rfl⟩ := execSetup_cases h <;> exact absurd hs ht
  · rcases (exec_leaves h (by simpa using hi)).calls with rfl | ⟨_, hw⟩
    · unfold exec execTransmitState at h
      rcases afterSetup_cases h with ⟨_, rfl⟩ | ⟨hv, h⟩
      · exact absurd hs ht
      · exact ⟨rfl, hv, (Host.Outcome.next.inj h).symm⟩
    · exact absurd (hw.trans hs) ht

end Sys2Proof.Machine
end

