-- ==== Sys2Proof/Laws/PerInstr.lean ====
section
/-! SUPPORT. One family of statements per instruction: the word of every well-formed instruction is one that its
interface carries (R71, R87, R90). -/

namespace Sys2Proof.Laws

open Sys2Proof Sys2Proof.Machine

/-- The word of the instruction fits its interface: a request's operand fits the lines its row reads, a frame's bytes
are a valid frame, and a pair is one of the four symbols. -/
def WordFits.Statement (i : Instr) : Prop :=
  i.wellFormed = true →
    match encode i with
    | .request op operand => op = 0 ∨ operand < 16
    | .frame bytes => ValidFrame bytes
    | .pulse pair => pair ∈ [symbolHdr, symbolBit0, symbolBit1, symbolTrail]

theorem WordFits.setup (variant : Nat) : Statement (.setup variant) := fun _ => .inl rfl
theorem WordFits.finalize (dl : BitVec 4) : Statement (.finalize dl) := fun _ => .inr dl.isLt
theorem WordFits.validateHeader : Statement .validateHeader := fun _ => .inr (by decide)
theorem WordFits.validatePayload (len : BitVec 4) : Statement (.validatePayload len) := fun _ => .inr len.isLt
theorem WordFits.buildDefault : Statement .buildDefault := fun _ => .inr (by decide)
theorem WordFits.buildMotion : Statement .buildMotion := fun _ => .inr (by decide)
theorem WordFits.encode : Statement .encode := fun _ => .inr (by decide)
theorem WordFits.decode : Statement .decode := fun _ => .inr (by decide)
theorem WordFits.mapFrame : Statement .mapFrame := fun _ => .inr (by decide)
theorem WordFits.transmitState : Statement .transmitState := fun _ => .inr (by decide)
theorem WordFits.receive : Statement .receive := fun _ => .inr (by decide)
theorem WordFits.reservedOpB : Statement .reservedOpB := fun _ => .inr (by decide)
theorem WordFits.reservedOpC : Statement .reservedOpC := fun _ => .inr (by decide)
theorem WordFits.reservedOpD : Statement .reservedOpD := fun _ => .inr (by decide)
theorem WordFits.reservedOpE : Statement .reservedOpE := fun _ => .inr (by decide)
theorem WordFits.reservedOpF : Statement .reservedOpF := fun _ => .inr (by decide)
theorem WordFits.defaultFrame (body : FrameBody) : Statement (.defaultFrame body) := fun h =>
  validFrame_frameBytes _ body (of_decide_eq_true h)
theorem WordFits.motionFrame (body : FrameBody) : Statement (.motionFrame body) := fun h =>
  validFrame_frameBytes _ body (of_decide_eq_true h)
theorem WordFits.timerFrame (body : FrameBody) : Statement (.timerFrame body) := fun h =>
  validFrame_frameBytes _ body (of_decide_eq_true h)
theorem WordFits.powerFrame (body : FrameBody) : Statement (.powerFrame body) := fun h =>
  validFrame_frameBytes _ body (of_decide_eq_true h)
theorem WordFits.comfortSleepFrame (body : FrameBody) : Statement (.comfortSleepFrame body) := fun h =>
  validFrame_frameBytes _ body (of_decide_eq_true h)
theorem WordFits.otherFrame (command : Byte) (body : FrameBody) : Statement (.otherFrame command body) := fun h =>
  validFrame_frameBytes _ body (of_decide_eq_true ((Bool.and_eq_true _ _).mp h).2)
theorem WordFits.hdr : Statement .hdr := fun _ => by simp [Sys2Proof.encode]
theorem WordFits.bit0 : Statement .bit0 := fun _ => by simp [Sys2Proof.encode]
theorem WordFits.bit1 : Statement .bit1 := fun _ => by simp [Sys2Proof.encode]
theorem WordFits.trail : Statement .trail := fun _ => by simp [Sys2Proof.encode]

end Sys2Proof.Laws
end

