-- ==== Sys2Proof/Tests/Slice0.lean ====
section
/-! SUPPORT. The model's own tests: ill-formed terms refused, words written out from the spec's tables, one step per
instruction against the vectors of spec/95_test_vectors.md, and a witness for every statement with hypotheses. -/

namespace Sys2Proof.Tests

-- One proof at a time: the many small evaluations of this file are not worth a thread each.
set_option Elab.async false

open Sys2Proof Sys2Proof.Machine

/-! ### Small states -/

/-- `FB` that begins with these bytes. -/
def load (bytes : List Byte) : Memory := Memory.ofFunction fun a => bytes.getD a 0

/-- After `SETUP 0` of P0, with the `OUT` and `SNAP` that the vectors of sections 2.3 and 2.6 start from. -/
def ready : State :=
  { State.reset with
    out := ⟨.heat, .quiet, 25, .horizontal⟩
    snap := ⟨.off, .auto, 20, .off⟩
    cfg := ⟨true, 0⟩
    swc := ⟨0x3, 0x1, 0x2, 0x0⟩ }

/-- The same before `SETUP`. -/
def notReady : State := { ready with cfg := ⟨false, 0⟩ }

/-- With this frame in `FB`. -/
def holding (bytes : List Byte) : State := { ready with fb := load bytes, flen := BitVec.ofNat 4 bytes.length }

/-- With this desired state. -/
def wanting (mode : Mode) (fan : Fan) (temp : Byte) (swing : Swing) : State :=
  { ready with out := ⟨mode, fan, temp, swing⟩ }

/-- With these pairs captured. -/
def capturing (pairs : List MeasuredPair) : State := { ready with cap := pairs }

/-- With this move pending. -/
def pending (m : HostMove) : State := { ready with port := [m] }

/-- The captured train of these bytes. -/
def pulses (bytes : List Byte) : List MeasuredPair := (train bytes).map PulsePair.measured

/-- The frame of V-SRC-2. -/
def good : List Byte := [0xF2, 0x0D, 0x03, 0xFC, 0x01, 0x50, 0xC1, 0x00, 0x90]

/-- What is read off a next state; nothing off a stop. -/
def after {α : Type} (a : Answer) (f : State → α) : Option α :=
  match a with
  | .next s => some (f s)
  | .fault _ => none
  | .refused _ => none

/-! ### Ill-formed terms are refused -/

theorem test_payload_of_nine_bytes_refused : (FrameBody.mk 0xF2 0x0D (List.replicate 9 0)).wellFormed = false := by
  decide
theorem test_frame_with_long_payload_refused :
    (Instr.defaultFrame ⟨0xF2, 0x0D, List.replicate 9 0⟩).wellFormed = false := by decide
theorem test_other_frame_with_long_payload_refused :
    (Instr.otherFrame 0x7F ⟨0xF2, 0x0D, List.replicate 9 0⟩).wellFormed = false := by decide
theorem test_other_frame_with_named_command_refused :
    (Instr.otherFrame 0x21 ⟨0xF2, 0x0D, [0x01]⟩).wellFormed = false := by decide
theorem test_payload_of_eight_bytes_accepted :
    (Instr.otherFrame 0x7F ⟨0xF2, 0x0D, List.replicate 8 0⟩).wellFormed = true := by decide
theorem test_p0_accepted : Config.p0.wellFormed = true := by decide
theorem test_bounds_out_of_order_refused : { Config.p0 with tempMax := 16 }.boundsOk = false := by decide
theorem test_bounds_too_wide_refused : { Config.p0 with tempMax := 33 }.boundsOk = false := by decide
theorem test_fan_only_out_of_field_refused : { Config.p0 with tempMin := 6 }.fanOnlyOk = false := by decide
theorem test_equal_mode_codes_refused :
    { Config.p0 with modeCode := { Config.p0.modeCode with dry := 0x7 } }.modesOk = false := by decide
theorem test_equal_fan_codes_refused :
    { Config.p0 with fanCode := { Config.p0.fanCode with quiet := 0xC } }.fansOk = false := by decide
theorem test_equal_swing_codes_refused : { Config.p0 with swingCodes := [⟨3, 1, 2, 2⟩] }.swingsOk = false := by decide
theorem test_no_variant_refused : { Config.p0 with swingCodes := [] }.variantsOk = false := by decide
theorem test_overlapping_windows_refused :
    { Config.p0 with tolerance := .windows [⟨1620, 900, some 2000⟩, ⟨540, 300, some 1000⟩] }.nearOk = false := by decide
theorem test_separate_windows_accepted :
    { Config.p0 with tolerance := .windows [⟨1620, 1200, none⟩, ⟨540, 300, some 800⟩] }.wellFormed = true := by decide
theorem test_windows_without_upper_ends_overlap :
    { Config.p0 with tolerance := .windows [⟨1620, 1200, none⟩, ⟨540, 300, none⟩] }.nearOk = false := by decide
theorem test_window_without_upper_end_has_no_bound :
    near { Config.p0 with tolerance := .windows [⟨1620, 1200, none⟩] } 1000000 1620 = true := by decide
/-- R6 puts no upper bound on `N_VARIANTS`. -/
theorem test_three_hundred_variants_accepted :
    { Config.p0 with swingCodes := List.replicate 300 ⟨3, 1, 2, 0⟩ }.wellFormed = true := by decide +kernel
theorem test_setup_takes_variant_299 : after (exec (.setup 299) { State.reset with
    params := { Config.p0 with swingCodes := List.replicate 300 ⟨3, 1, 2, 0⟩ } }) (fun t => (t.cfg, t.refused)) =
    some (⟨true, 299⟩, []) := by decide +kernel
theorem test_ill_formed_parameters_stop_the_step :
    step { ready with params := { Config.p0 with tempMax := 16 } } = .refused .illFormedParameters := by rfl

/-! ### Words written out from the tables of R90, R70 and R87 -/

theorem test_decode_setup : decode (.request 0b0000 0b00000001) = .ok (.setup 1) := by decide
theorem test_decode_finalize : decode (.request 0b0001 0b00001000) = .ok (.finalize 8) := by decide
theorem test_decode_validate_header : decode (.request 0b0010 0) = .ok .validateHeader := by decide
theorem test_decode_validate_payload : decode (.request 0b0011 0b00001110) = .ok (.validatePayload 14) := by decide
theorem test_decode_build_default : decode (.request 0b0100 0) = .ok .buildDefault := by decide
theorem test_decode_build_motion : decode (.request 0b0101 0) = .ok .buildMotion := by decide
theorem test_decode_encode : decode (.request 0b0110 0) = .ok .encode := by decide
theorem test_decode_decode : decode (.request 0b0111 0) = .ok .decode := by decide
theorem test_decode_map_frame : decode (.request 0b1000 0) = .ok .mapFrame := by decide
theorem test_decode_transmit_state : decode (.request 0b1001 0) = .ok .transmitState := by decide
theorem test_decode_receive : decode (.request 0b1010 0) = .ok .receive := by decide
theorem test_decode_reserved_B : decode (.request 0b1011 0) = .ok .reservedOpB := by decide
theorem test_decode_reserved_C : decode (.request 0b1100 0) = .ok .reservedOpC := by decide
theorem test_decode_reserved_D : decode (.request 0b1101 0) = .ok .reservedOpD := by decide
theorem test_decode_reserved_E : decode (.request 0b1110 0) = .ok .reservedOpE := by decide
theorem test_decode_reserved_F : decode (.request 0b1111 0) = .ok .reservedOpF := by decide

theorem test_decode_default_frame :
    decode (.frame [0b11110010, 0b00001101, 0b00000011, 0b11111100, 0b00000001, 0b01010000, 0b11000001, 0b00000000,
      0b10010000]) = .ok (.defaultFrame ⟨0xF2, 0x0D, [0x50, 0xC1, 0x00]⟩) := by decide
theorem test_decode_motion_frame :
    decode (.frame [0b11110010, 0b00001101, 0b00000001, 0b11111110, 0b00100001, 0b00000001, 0b00100000]) =
      .ok (.motionFrame ⟨0xF2, 0x0D, [0x01]⟩) := by decide
theorem test_decode_timer_frame :
    decode (.frame [0xF2, 0x0D, 0x02, 0xFD, 0x03, 0xAA, 0x55, 0xFC]) = .ok (.timerFrame ⟨0xF2, 0x0D, [0xAA, 0x55]⟩) := by
  decide
theorem test_decode_power_frame :
    decode (.frame [0xF2, 0x0D, 0x01, 0xFE, 0x09, 0x03, 0x0A]) = .ok (.powerFrame ⟨0xF2, 0x0D, [0x03]⟩) := by decide
theorem test_decode_comfort_sleep_frame :
    decode (.frame [0xF2, 0x0D, 0x00, 0xFF, 0x0B, 0x0B]) = .ok (.comfortSleepFrame ⟨0xF2, 0x0D, []⟩) := by decide
theorem test_decode_other_frame :
    decode (.frame [0xF2, 0x0D, 0x00, 0xFF, 0x05, 0x05]) = .ok (.otherFrame 0x05 ⟨0xF2, 0x0D, []⟩) := by decide
theorem test_decode_rejects_header_checksum :
    decode (.frame [0xF2, 0x0C, 0x03, 0xFC, 0x01, 0x50, 0xC1, 0x00, 0x90]) = .error .headerChecksum := by decide
theorem test_decode_rejects_payload_checksum :
    decode (.frame [0xF2, 0x0D, 0x03, 0xFC, 0x21, 0x50, 0xC1, 0x00, 0x90]) = .error .payloadChecksum := by decide
theorem test_decode_rejects_length :
    decode (.frame [0xF2, 0x0D, 0x09, 0xF6, 0x01, 0x50, 0xC1, 0x00, 0x90]) = .error .lengthTooLong := by decide
theorem test_decode_rejects_byte_count :
    decode (.frame [0xF2, 0x0D, 0x03, 0xFC, 0x01, 0x50, 0xC1, 0x90]) = .error .wrongByteCount := by decide
theorem test_decode_rejects_short_frame : decode (.frame [0xF2, 0x0D, 0x00, 0xFF]) = .error .frameTooShort := by decide

theorem test_decode_hdr : decode (.pulse ⟨0x111C, 0x1112⟩) = .ok .hdr := by decide
theorem test_decode_bit0 : decode (.pulse ⟨0x021C, 0x021C⟩) = .ok .bit0 := by decide
theorem test_decode_bit1 : decode (.pulse ⟨0x021C, 0x0654⟩) = .ok .bit1 := by decide
theorem test_decode_trail : decode (.pulse ⟨0x021C, 0x1568⟩) = .ok .trail := by decide
theorem test_decode_rejects_pair : decode (.pulse ⟨0x021C, 0x03E8⟩) = .error .notASymbol := by decide

/-! ### One step per instruction, from the vectors -/

/-- V-REF-6. -/
theorem test_setup_takes_the_codes : after (exec (.setup 1) State.reset) (fun t => (t.cfg, t.swc)) =
    some (⟨true, 1⟩, ⟨0xC, 0x4, 0x8, 0x0⟩) := by decide
/-- V-REF-5. -/
theorem test_setup_refuses_a_third_variant : after (exec (.setup 2) State.reset) (fun t => (t.cfg.valid, t.refused)) =
    some (false, [.noSuchVariant]) := by decide

/-- V-COD-3. -/
theorem test_finalize_two : after (exec (.finalize 2) (holding [0, 0, 0, 0, 0x03, 0xAA, 0x55]))
    (fun t => (t.fb.bytes 9, t.flen)) = some ([0xF2, 0x0D, 0x02, 0xFD, 0x03, 0xAA, 0x55, 0xFC, 0x00], 8) := by
  decide +kernel
/-- After V-COD-4, `FINALIZE 1`. -/
theorem test_finalize_shorter : after (exec (.finalize 1) (holding good)) (fun t => t.fb.bytes 9) =
    some [0xF2, 0x0D, 0x01, 0xFE, 0x01, 0x50, 0x51, 0x00, 0x90] := by decide +kernel

/-- V-COD-13. -/
theorem test_validate_header_cancelling_flips :
    after (exec .validateHeader (holding [0xF3, 0x0C, 0x03, 0xFC])) (·.dstat) = some ⟨true, .none⟩ := by decide +kernel
/-- V-COD-10. -/
theorem test_validate_header_changed_length :
    after (exec .validateHeader (holding [0xF2, 0x0D, 0x01, 0xFC])) (·.dstat) = some ⟨false, .headerSum⟩ := by
  decide +kernel

/-- V-COD-18. -/
theorem test_validate_payload_undetected : after (exec (.validatePayload 9)
    (holding [0xF2, 0x0D, 0x03, 0xFC, 0x01, 0x40, 0xD1, 0x00, 0x90])) (·.dstat) = some ⟨true, .none⟩ := by
  decide +kernel
/-- V-COD-21. -/
theorem test_validate_payload_shorter : after (exec (.validatePayload 7) (holding good)) (·.dstat) =
    some ⟨false, .payloadSum⟩ := by decide +kernel

/-- V-BLD-1. -/
theorem test_build_default : after (exec .buildDefault (wanting .cool .level5 22 .off)) (fun t => t.fb.bytes 14) =
    some (good ++ [0, 0, 0, 0, 0]) := by decide +kernel
/-- V-SRC-3. -/
theorem test_build_default_fan_only : after (exec .buildDefault (wanting .fanOnly .level2 255 .off))
    (fun t => t.fb.bytes 9) = some [0xF2, 0x0D, 0x03, 0xFC, 0x01, 0x50, 0x64, 0x00, 0x35] := by decide +kernel

/-- V-BLD-23. -/
theorem test_build_motion : after (exec .buildMotion (wanting .cool .level5 22 .both)) (fun t => (t.fb.bytes 8, t.flen)) =
    some ([0xF2, 0x0D, 0x01, 0xFE, 0x21, 0x03, 0x22, 0x00], 7) := by decide +kernel
/-- V-BLD-24. -/
theorem test_build_motion_unrecognised : after (exec .buildMotion (wanting .cool .level5 22 .unrecognised5))
    (fun t => t.fb.read 5) = some 0x01 := by decide +kernel

/-- V-PT-1: the length, the header, the first two bits of offset 1 that differ, the trailing pair, the second header. -/
theorem test_encode : after (exec .encode (holding good)) (fun t => (t.plen, [0, 12, 13, 73, 74, 147].map (t.pb[·]?))) =
    some (148, [some ⟨4380, 4370⟩, some ⟨540, 540⟩, some ⟨540, 1620⟩, some ⟨540, 5480⟩, some ⟨4380, 4370⟩,
      some ⟨540, 5480⟩]) := by decide +kernel
/-- V-PT-8. -/
theorem test_encode_without_a_frame : after (exec .encode ready) (fun t => (t.plen, t.refused)) =
    some (0, [.noFrame]) := by decide

/-- V-DEC-3. -/
theorem test_decode_second_repetition : after (exec .decode (capturing ((pulses good).drop 74)))
    (fun t => (t.dstat, t.fb.bytes 9, t.flen, t.cur)) = some (⟨true, .none⟩, good, 9, 73) := by decide +kernel
/-- V-FAIL-7. -/
theorem test_decode_header_sum_before_length : after (exec .decode (capturing
    (pulses [0xF2, 0x0D, 0x09, 0xFC, 0x01, 0x50, 0xC1, 0x00, 0x90]))) (fun t => (t.dstat, t.flen)) =
    some (⟨false, .headerSum⟩, 0) := by decide +kernel

/-- V-DEC-6's frame mapped: an unknown fan nibble is auto. -/
theorem test_map_frame : after (exec .mapFrame (holding [0xF2, 0x0D, 0x03, 0xFC, 0x01, 0x40, 0xD1, 0x00, 0x90]))
    (fun t => (t.out, t.snap, t.publog)) = some (⟨.cool, .auto, 21, .horizontal⟩, ⟨.cool, .auto, 20, .off⟩,
    [⟨.cool, .auto, 21, .horizontal⟩]) := by decide +kernel
/-- V-REF-8. -/
theorem test_map_frame_without_a_frame : after (exec .mapFrame ready) (fun t => (t.out, t.refused)) =
    some (ready.out, [.noFrame]) := by decide

/-- V-DIFF-6. -/
theorem test_transmit_state_powers_on : after
    (exec .transmitState { wanting .cool .auto 22 .horizontal with snap := ⟨.off, .auto, 22, .off⟩ })
    (fun t => (t.txlog, t.publog, t.out, t.snap)) = some (
      [⟨38000, train [0xF2, 0x0D, 0x03, 0xFC, 0x01, 0x50, 0x01, 0x00, 0x50]⟩,
       ⟨38000, train [0xF2, 0x0D, 0x01, 0xFE, 0x21, 0x01, 0x20]⟩],
      [⟨.cool, .auto, 22, .vertical⟩], ⟨.cool, .auto, 22, .vertical⟩, ⟨.cool, .auto, 22, .vertical⟩) := by
  decide +kernel
/-- V-DIFF-11. -/
theorem test_transmit_state_swing_only : after
    (exec .transmitState { wanting .off .auto 22 .both with snap := ⟨.off, .auto, 22, .off⟩ })
    (fun t => (t.txlog, t.publog, t.snap.swing)) =
      some ([⟨38000, train [0xF2, 0x0D, 0x01, 0xFE, 0x21, 0x03, 0x22]⟩], [], .both) := by decide +kernel

/-- R282: the second call is not completed, so the override has happened, both calls are in `TXLOG`, and `SNAP` is as on
entry. -/
theorem test_transmit_state_waits_in_the_second_call : after
    (exec .transmitState { wanting .cool .auto 22 .horizontal with snap := ⟨.off, .auto, 22, .off⟩, txCalls := some 1 })
    (fun t => (t.waiting, t.txlog.length, t.publog, t.out, t.snap)) = some (some .motionFrame, 2,
      [⟨.cool, .auto, 22, .vertical⟩], ⟨.cool, .auto, 22, .vertical⟩, ⟨.off, .auto, 22, .off⟩) := by decide +kernel
/-- R282, R270, U8: while a cycle waits, a request is refused and RESET abandons it. -/
theorem test_moves_while_a_cycle_waits :
    after (step { pending (.word (.request 0x9 0)) with waiting := some .motionFrame, txCalls := some 0 })
      (fun t => (t.waiting, t.refused, t.log)) = some (some .motionFrame, [.operationInProgress], []) ∧
    after (step { pending .reset with waiting := some .motionFrame, txCalls := some 0 }) (fun t => (t.waiting, t.cfg.valid)) =
      some (none, false) := by decide +kernel

/-- V-DEC-1. -/
theorem test_receive : after (exec .receive (capturing (pulses good))) (fun t => (t.dstat, t.cur, t.out, t.snap, t.log)) =
    some (⟨true, .none⟩, 73, ⟨.cool, .level5, 22, .horizontal⟩, ⟨.cool, .level5, 20, .off⟩,
      [.publish ⟨.cool, .level5, 22, .horizontal⟩]) := by decide +kernel
/-- V-FAIL-5d. -/
theorem test_receive_last_bit_missing : after (exec .receive (capturing ((pulses good).take 72)))
    (fun t => (t.dstat, t.out, t.log)) = some (⟨false, .timing⟩, ready.out, []) := by decide +kernel

/-- V-REF-10. -/
theorem test_reserved_ops_refused :
    ([Instr.reservedOpB, .reservedOpC, .reservedOpD, .reservedOpE, .reservedOpF].map fun i =>
      after (exec i ready) (fun t => (t.refused, t.out))) =
      List.replicate 5 (some ([.reservedOp], ready.out)) := by decide

/-- V-MAP-32: the payload is short, and checksum_2 is read as mode and fan. -/
theorem test_default_frame_short : after (exec (.defaultFrame ⟨0xF2, 0x0D, [0x90]⟩) ready) (fun t => (t.out, t.snap)) =
    some (⟨.cool, .auto, 26, .horizontal⟩, ⟨.cool, .auto, 20, .off⟩) := by decide +kernel
/-- V-MAP-20. -/
theorem test_motion_frame : after (exec (.motionFrame ⟨0xF2, 0x0D, [0xF2]⟩) ready) (fun t => (t.out, t.snap, t.publog)) =
    some (⟨.heat, .quiet, 25, .horizontal⟩, ⟨.off, .auto, 20, .horizontal⟩, [⟨.heat, .quiet, 25, .horizontal⟩]) := by
  decide +kernel
/-- V-SRC-8: success, no state change, one `Publish`, for the other commands. -/
theorem test_unknown_frames : ([Instr.timerFrame ⟨0xF2, 0x0D, [0xAA, 0x55]⟩, .powerFrame ⟨0xF2, 0x0D, [0x03]⟩,
    .comfortSleepFrame ⟨0xF2, 0x0D, []⟩, .otherFrame 0x05 ⟨0xF2, 0x0D, []⟩].map fun i =>
      after (exec i ready) (fun t => (t.dstat, t.out, t.publog))) =
      List.replicate 4 (some (⟨true, .none⟩, ready.out, [ready.out])) := by decide +kernel

/-- R222: a pair is consumed by the symbol it is near and by no other. -/
theorem test_symbols_consume : ([(Instr.hdr, 4380, 4370), (.bit0, 540, 540), (.bit1, 540, 1620), (.trail, 540, 5480)].map
    fun x => after (exec x.1 (capturing [⟨x.2.1, x.2.2⟩])) (·.cur)) = List.replicate 4 (some 1) := by decide +kernel
theorem test_symbols_do_not_consume : ([Instr.hdr, .bit0, .bit1, .trail].map
    fun i => after (exec i (capturing [⟨540, 1000⟩])) (·.cur)) = List.replicate 4 (some 0) := by decide +kernel

/-- V-REF-12. -/
theorem test_reset : after (step (pending .reset)) (fun t => (t.cfg.valid, t.flen, t.plen, t.dstat)) =
    some (false, 0, 0, ⟨false, .none⟩) := by decide

/-- A table row's word reaches the decoder and is run by the next step. -/
theorem test_table_word : decodeTableWord 8 0x09 = some .transmitState ∧
    decodeTableWord 8 0x21 = some (.motionFrame ⟨0xF2, 0x0D, []⟩) ∧
    decodeTableWord 32 0x0654021C = some .bit1 := by decide
theorem test_with_fetch_word : after (step (State.reset.withFetchWord 8 0x0B)) (·.refused) = some [.reservedOp] := by
  decide

/-! ### A witness for every statement with hypotheses

Each theorem shows a state and operands that meet all hypotheses together; a statement with several clauses has one for
each, at the ends of their ranges. A hypothesis that an operation answers a next state is met by the tests above, or by
the equation stated here. -/

/-- What the good frame gives is one next state. -/
theorem encode_good : exec .encode (holding good) = .next (encodeFrame (holding good)) := by
  refine execEncode_of_frame ?_ ?_ ?_ <;> decide

theorem witness_SetupResolvesVariantOnce :
    (State.reset.cfg.valid = false ∧ State.reset.params.swingCodes[(1#8).toNat]? = some ⟨0xC, 0x4, 0x8, 0x0⟩) ∧
    ready.cfg.valid = true ∧
    (State.reset.cfg.valid = false ∧ State.reset.params.swingCodes.length ≤ (2#8).toNat) := by decide
theorem witness_ReservedOpCompletesChangingNothing :
    Instr.reservedOpB ∈ [Instr.reservedOpB, .reservedOpC, .reservedOpD, .reservedOpE, .reservedOpF] := by decide
theorem witness_OperationsRefusedBeforeSetup : State.reset.cfg.valid = false ∧
    Instr.receive ∈ [Instr.validateHeader, .buildDefault, .buildMotion, .encode, .decode, .mapFrame, .transmitState,
      .receive] := by decide
theorem witness_FinalizeSealsTheFrame :
    (ready.cfg.valid = true ∧ (0#4).toNat ≤ 8 ∧ (8#4).toNat ≤ 8) ∧ (ready.cfg.valid = true ∧ 8 < (9#4).toNat) ∧
    notReady.cfg.valid = false := by decide
theorem witness_ValidateHeaderReportsChecksumOne :
    ((holding good).cfg.valid = true ∧ (holding good).fb.read 3 =
      (holding good).fb.read 0 ^^^ (holding good).fb.read 1 ^^^ (holding good).fb.read 2) ∧
    ((holding [0xF2]).cfg.valid = true ∧ (holding [0xF2]).fb.read 3 ≠
      (holding [0xF2]).fb.read 0 ^^^ (holding [0xF2]).fb.read 1 ^^^ (holding [0xF2]).fb.read 2) ∧
    notReady.cfg.valid = false := by decide +kernel
theorem witness_ValidatePayloadReportsChecksumTwo :
    (ready.cfg.valid = true ∧ 6 ≤ (6#4).toNat ∧ (6#4).toNat ≤ 14 ∧
      ready.fb.read ((6#4).toNat - 1) = xorAll ((List.range' 4 ((6#4).toNat - 5)).map ready.fb.read)) ∧
    (ready.cfg.valid = true ∧ 6 ≤ (14#4).toNat ∧ (14#4).toNat ≤ 14 ∧
      ready.fb.read ((14#4).toNat - 1) = xorAll ((List.range' 4 ((14#4).toNat - 5)).map ready.fb.read)) ∧
    ((holding [0, 0, 0, 0, 1]).cfg.valid = true ∧ 6 ≤ (14#4).toNat ∧ (14#4).toNat ≤ 14 ∧
      (holding [0, 0, 0, 0, 1]).fb.read ((14#4).toNat - 1) ≠
        xorAll ((List.range' 4 ((14#4).toNat - 5)).map (holding [0, 0, 0, 0, 1]).fb.read)) ∧
    (ready.cfg.valid = true ∧ ((5#4).toNat < 6 ∨ 14 < (5#4).toNat) ∧ ((15#4).toNat < 6 ∨ 14 < (15#4).toNat)) ∧
    notReady.cfg.valid = false := by decide +kernel
theorem witness_FinalizedFramePassesBothChecks :
    ready.cfg.valid = true ∧ (8#4).toNat ≤ 8 ∧ (14#4).toNat = 6 + (8#4).toNat := by decide
theorem witness_ChecksumsMissExactlyEvenColumns :
    (holding good).cfg.valid = true ∧ 6 ≤ (9#4).toNat ∧ (9#4).toNat ≤ 14 ∧
    exec .validateHeader (holding good) = .next { holding good with dstat := ⟨true, .none⟩ } ∧
    exec (.validatePayload 9) (holding good) = .next { holding good with dstat := ⟨true, .none⟩ } ∧
    (8 < (9#4).toNat ∧ 7 < 8) :=
  ⟨by decide, by decide, by decide, by rfl, by rfl, by decide⟩
theorem witness_BuildDefaultWritesTheDefaultFrame : ready.cfg.valid = true := by decide
theorem witness_DefaultFrameTemperatureIsClampedOrPinned :
    (ready.params.wellFormed = true ∧ ready.cfg.valid = true) ∧
    (wanting .fanOnly .auto 30 .off).out.mode = .fanOnly ∧
    ((wanting .cool .auto 16 .off).out.mode ≠ .fanOnly ∧
      (wanting .cool .auto 16 .off).out.temp.toNat < ready.params.tempMin) ∧
    (ready.params.tempMin ≤ (wanting .cool .auto 17 .off).out.temp.toNat ∧
      (wanting .cool .auto 17 .off).out.temp.toNat ≤ ready.params.tempMax) ∧
    (ready.params.tempMin ≤ (wanting .cool .auto 30 .off).out.temp.toNat ∧
      (wanting .cool .auto 30 .off).out.temp.toNat ≤ ready.params.tempMax) ∧
    ready.params.tempMax < (wanting .cool .auto 31 .off).out.temp.toNat := by decide
theorem witness_BuildMotionWritesTheMotionFrame : ready.cfg.valid = true ∧ notReady.cfg.valid = false := by decide
theorem witness_EncodeLaysOutBothRepetitions :
    ((holding good).cfg.valid = true ∧ 6 ≤ (holding good).flen.toNat ∧ (holding good).flen.toNat ≤ 14) ∧
    (74 = 8 * (holding good).flen.toNat + 2 ∧ 71 < 8 * (holding good).flen.toNat) ∧
    (ready.cfg.valid = true ∧ (ready.flen.toNat < 6 ∨ 14 < ready.flen.toNat)) ∧
    ({ ready with flen := 15 }.flen.toNat < 6 ∨ 14 < { ready with flen := 15 }.flen.toNat) ∧
    notReady.cfg.valid = false := by decide
theorem witness_TransmissionLastsAsTheSpecCounts :
    (holding good).cfg.valid = true ∧ 6 ≤ (holding good).flen.toNat ∧ (holding good).flen.toNat ≤ 14 ∧
    exec .encode (holding good) = .next (encodeFrame (holding good)) :=
  ⟨by decide, by decide, by decide, encode_good⟩
theorem witness_SymbolConsumesOneMatchingPair :
    ((capturing [⟨540, 1620⟩]).cap[(capturing [⟨540, 1620⟩]).cur]? = some ⟨540, 1620⟩ ∧
      near ready.params 540 540 = true ∧ near ready.params 1620 1620 = true) ∧
    near ready.params 540 1620 = false ∧ ready.cap.length ≤ ready.cur := by decide

theorem witness_DecodeReportsTheFirstFailure_timing_header :
    (capturing []).cfg.valid = true ∧ ¬ (capturing []).headerAtCursor := by decide
theorem witness_DecodeReportsTheFirstFailure_timing_prefix :
    (capturing ((pulses good).take 32)).headerAtCursor ∧ ¬ (capturing ((pulses good).take 32)).bitsReadable 32 := by
  decide +kernel
theorem witness_DecodeReportsTheFirstFailure_header_sum :
    let s := capturing ((pulses [0xF2, 0x0D, 0x03, 0xFD]).take 33)
    s.headerAtCursor ∧ s.bitsReadable 32 ∧ ¬ s.frameByte 3 = s.frameByte 0 ^^^ s.frameByte 1 ^^^ s.frameByte 2 := by
  decide +kernel
theorem witness_DecodeReportsTheFirstFailure_length :
    let s := capturing (pulses [0xF2, 0x0D, 0x09, 0xF6])
    s.headerAtCursor ∧ s.bitsReadable 32 ∧ s.frameByte 3 = s.frameByte 0 ^^^ s.frameByte 1 ^^^ s.frameByte 2 ∧
    8 < (s.frameByte 2).toNat := by decide +kernel
theorem witness_DecodeReportsTheFirstFailure_timing_payload :
    let s := capturing ((pulses good).take 72)
    s.headerAtCursor ∧ s.bitsReadable 32 ∧ s.frameByte 3 = s.frameByte 0 ^^^ s.frameByte 1 ^^^ s.frameByte 2 ∧
    (s.frameByte 2).toNat ≤ 8 ∧ ¬ s.bitsReadable (8 * (6 + (s.frameByte 2).toNat)) := by decide +kernel
theorem witness_DecodeReportsTheFirstFailure_payload_sum :
    let s := capturing (pulses [0xF2, 0x0D, 0x03, 0xFC, 0x01, 0x40, 0xC1, 0x00, 0x90])
    s.headerAtCursor ∧ s.frameByte 3 = s.frameByte 0 ^^^ s.frameByte 1 ^^^ s.frameByte 2 ∧
    (s.frameByte 2).toNat ≤ 8 ∧ s.bitsReadable (8 * (6 + (s.frameByte 2).toNat)) ∧
    s.frameByte (5 + (s.frameByte 2).toNat) ≠ s.frameXor 4 ((s.frameByte 2).toNat + 1) := by decide +kernel
/-- With the largest `data_length` that passes. -/
theorem witness_DecodeReportsTheFirstFailure_success :
    let s := capturing (pulses [0xF2, 0x0D, 0x08, 0xF7, 0x7F, 1, 2, 3, 4, 5, 6, 7, 8, 0x77])
    s.headerAtCursor ∧ s.frameByte 3 = s.frameByte 0 ^^^ s.frameByte 1 ^^^ s.frameByte 2 ∧
    (s.frameByte 2).toNat ≤ 8 ∧ s.bitsReadable (8 * (6 + (s.frameByte 2).toNat)) ∧
    s.frameByte (5 + (s.frameByte 2).toNat) = s.frameXor 4 ((s.frameByte 2).toNat + 1) := by decide +kernel

theorem witness_EncodedFrameDecodesToItself :
    (holding good).params.wellFormed = true ∧ (holding good).cfg.valid = true ∧
    (holding good).fb.holdsFrame (holding good).flen.toNat ∧
    exec .encode (holding good) = .next (encodeFrame (holding good)) ∧ 74 = 8 * (holding good).flen.toNat + 2 :=
  ⟨by decide, by decide, by decide +kernel, encode_good, by decide⟩
/-- A predicate that satisfies R7(f) and is neither equality nor a finite union of windows; an admitted tolerance. -/
theorem witness_EveryAdmissibleToleranceIsModelled :
    ((∀ x, (fun m e => m == e || (e == 1620 && 1200 ≤ m && m % 2 == 0) : Nat → Nat → Bool) x x = true) ∧
      ∀ x, ¬ ((fun m e => m == e || (e == 1620 && 1200 ≤ m && m % 2 == 0) : Nat → Nat → Bool) x 1620 = true ∧
        (fun m e => m == e || (e == 1620 && 1200 ≤ m && m % 2 == 0) : Nat → Nat → Bool) x 540 = true)) ∧
    { Config.p0 with tolerance := .admitted 0 }.tolerance = .admitted 0 ∧
    Config.p0.tolerance = .windows [] := by
  refine ⟨⟨by simp, ?_⟩, rfl, rfl⟩
  intro x; simp; omega
theorem witness_NoPairIsBothOneAndZero : Config.p0.wellFormed = true ∧
    ([⟨540, 1620⟩, ⟨540, 540⟩] : List MeasuredPair)[0]? = some ⟨540, 1620⟩ ∧
    ([⟨540, 1620⟩, ⟨540, 540⟩] : List MeasuredPair)[1]? = some ⟨540, 540⟩ := by decide

theorem witness_MapFrameMapsMotion :
    let s := holding [0xF2, 0x0D, 0x01, 0xFE, 0x21, 0x03, 0x22]
    s.cfg.valid = true ∧ s.flen ≠ 0 ∧ s.fb.read 4 = 0x21 := by decide +kernel
theorem witness_MapFrameMapsDefault :
    (holding good).cfg.valid = true ∧ (holding good).flen ≠ 0 ∧ (holding good).fb.read 4 = 0x01 := by decide +kernel
theorem witness_MapFrameIgnoresOtherCommands :
    (let s := holding [0xF2, 0x0D, 0x00, 0xFF, 0x05, 0x05]
     s.cfg.valid = true ∧ s.flen ≠ 0 ∧ s.fb.read 4 ≠ 0x21 ∧ s.fb.read 4 ≠ 0x01) ∧
    (ready.cfg.valid = true ∧ ready.flen = 0) := by decide +kernel
theorem witness_DecodedTemperatureIsNotClamped :
    let s := holding [0xF2, 0x0D, 0x03, 0xFC, 0x01, 0xF0, 0xC1, 0x00, 0x30]
    s.params.wellFormed = true ∧ s.cfg.valid = true ∧ s.flen ≠ 0 ∧ s.fb.read 4 = 0x01 := by decide +kernel
/-- Both of R205's branches: a success and a failure. -/
theorem witness_ReceiveIsDecodeThenMap :
    (ready.cfg.valid = true ∧ after (exec .decode (capturing (pulses good))) (·.dstat.ok) = some true) ∧
    after (exec .decode (capturing [])) (·.dstat.ok) = some false ∧ notReady.cfg.valid = false := by decide +kernel
theorem witness_FailedDecodePublishesNothing :
    (capturing []).cfg.valid = true ∧ after (exec .decode (capturing [])) (·.dstat.ok) = some false ∧
    after (exec .receive (capturing [])) (·.dstat.ok) = some false := by decide +kernel
theorem witness_CorruptedFrameIsRejectedAtItsStage :
    ready.params.wellFormed = true ∧ ready.cfg.valid = true ∧
    decode (.frame good) = .ok (.defaultFrame ⟨0xF2, 0x0D, [0x50, 0xC1, 0x00]⟩) ∧
    (3 < good.length ∧ 3 < 4 ∧ 7 < 8) ∧ (8 < good.length ∧ 4 ≤ 8) := by decide
theorem witness_ReceivedDefaultFrameSetsState : ready.params.wellFormed = true ∧ ready.cfg.valid = true ∧
    (FrameBody.mk 0 0 []).payload.length ≤ 8 ∧ (FrameBody.mk 0 0 (List.replicate 8 0)).payload.length ≤ 8 := by decide
theorem witness_ReceivedMotionFrameSetsSwing : ready.params.wellFormed = true ∧ ready.cfg.valid = true ∧
    (FrameBody.mk 0 0 []).payload.length ≤ 8 ∧ (FrameBody.mk 0 0 (List.replicate 8 0)).payload.length ≤ 8 := by decide
theorem witness_ReceivedUnknownCommandChangesNoState : ready.params.wellFormed = true ∧ ready.cfg.valid = true ∧
    (FrameBody.mk 0 0 []).payload.length ≤ 8 ∧
    Instr.otherFrame 0x00 ⟨0, 0, []⟩ = .otherFrame 0x00 ⟨0, 0, []⟩ ∧ (0x00 : Byte) ≠ 0x01 ∧ (0x00 : Byte) ≠ 0x21 := by
  decide
theorem witness_BuiltStateIsReceivedBack : ready.params.wellFormed = true ∧ ready.cfg.valid = true ∧
    exec .buildDefault ready = .next (buildDefault ready) ∧
    exec .encode (buildDefault ready) = .next (encodeFrame (buildDefault ready)) :=
  ⟨by decide, by decide, by rfl, execEncode_buildDefault (by decide)⟩
theorem witness_BuiltSwingIsReceivedBack : ready.params.wellFormed = true ∧ ready.cfg.valid = true ∧
    ready.variantResolved ∧ exec .buildMotion ready = .next (buildMotion ready) ∧
    exec .encode (buildMotion ready) = .next (encodeFrame (buildMotion ready)) :=
  ⟨by decide, by decide, by decide, by rfl, execEncode_buildMotion (by decide)⟩
theorem witness_ReceivedFrameIsRefusedBeforeSetup : State.reset.cfg.valid = false ∧
    encode (.motionFrame ⟨0xF2, 0x0D, [0x01]⟩) = .frame [0xF2, 0x0D, 0x01, 0xFE, 0x21, 0x01, 0x20] := by decide

theorem completesCalls_ready (n : Nat) : ready.completesCalls n := fun _ h => by cases h
/-- With a Transmitter that completes every call, and with one that completes two. -/
theorem witness_TransmitStateSendsWhatChanged : ready.cfg.valid = true ∧ ready.waiting = none ∧ ready.completesCalls 2 ∧
    { ready with txCalls := some 2 }.completesCalls 2 :=
  ⟨by decide, by decide, completesCalls_ready 2, fun _ h => (Option.some.inj h).le⟩
theorem witness_SecondTransmitCycleSendsNothing : ready.cfg.valid = true ∧ ready.waiting = none ∧
    (after (exec .transmitState ready) (·.waiting)) = some none := by decide +kernel
theorem witness_OffToOnForcesVertical : ready.cfg.valid = true ∧ ready.waiting = none ∧ ready.completesCalls 2 ∧
    ready.snap.mode = .off ∧ ready.out.mode ≠ .off ∧ ready.snap.swing ≠ .vertical ∧
    { ready with snap := ⟨.off, .auto, 20, .vertical⟩ }.snap.swing = .vertical :=
  ⟨by decide, by decide, completesCalls_ready 2, by decide, by decide, by decide, by decide⟩
/-- The first call not completed; the only call, for swing, not completed; the second call not completed; nothing to
send. -/
theorem witness_BlockedTransmitterNeverReleasesTheCycle :
    (let s := { ready with txCalls := some 0 }
     s.cfg.valid = true ∧ s.waiting = none ∧ s.txCalls = some 0 ∧ s.out.mode ≠ s.snap.mode) ∧
    (let s := { ready with txCalls := some 0, snap := { ready.out with swing := .off } }
     s.cfg.valid = true ∧ s.waiting = none ∧ s.txCalls = some 0 ∧ s.out.mode = s.snap.mode ∧ s.out.fan = s.snap.fan ∧
     s.out.temp = s.snap.temp ∧ s.out.swing ≠ s.snap.swing) ∧
    (let s := { ready with txCalls := some 1 }
     s.cfg.valid = true ∧ s.waiting = none ∧ s.txCalls = some 1 ∧ s.out.mode ≠ s.snap.mode ∧ s.snap.mode = .off ∧
     { s.out with swing := .vertical }.swing ≠ s.snap.swing) ∧
    (let s := { ready with snap := ready.out }
     s.cfg.valid = true ∧ s.waiting = none ∧ s.out = s.snap) := by decide
theorem witness_WaitingCycleIsLeftByCompletionOrReset :
    let s := { ready with waiting := some .motionFrame, txCalls := some 0 }
    s.params.wellFormed = true ∧ s.waiting = some .motionFrame ∧ s.port = [] ∧
    { s with port := [.transmitter (some 0)] }.port = .transmitter (some 0) :: [] ∧
    { s with port := [.capture []] }.port = .capture [] :: [] ∧ { s with port := [.reset] }.port = .reset :: [] := by decide
/-- The second part: a cycle that waits in its second call. -/
theorem witness_WaitingCycleIsLeftByCompletionOrReset_resumed :
    let s := { ready with txCalls := some 1 }
    s.params.wellFormed = true ∧ s.cfg.valid = true ∧ s.waiting = none ∧
    after (exec .transmitState s) (·.waiting) = some (some .motionFrame) := by decide +kernel

theorem witness_DecodeOfEncodeIsTheInstruction :
    (Instr.otherFrame 0x7F ⟨0xF2, 0x0D, [1, 2, 3, 4, 5, 6, 7, 8]⟩).wellFormed = true ∧
    (Instr.finalize 15).wellFormed = true := by decide
theorem witness_DecodedWordsHaveOneMeaning :
    decode (.frame [0xF2, 0x0D, 0x00, 0xFF, 0x05, 0x05]) = .ok (.otherFrame 0x05 ⟨0xF2, 0x0D, []⟩) ∧
    decode (.pulse ⟨540, 5480⟩) = .ok .trail ∧ decode (.request 0x1 0xF8) = .ok (.finalize 8) := by decide
theorem witness_CommandByteSelectsTheFrame : (FrameBody.mk 0 0 (List.replicate 8 0)).payload.length ≤ 8 := by decide

theorem witness_StepRunsTheDecodedInstruction :
    let s := pending (.word (.request 0xA 0))
    s.params.wellFormed = true ∧ s.waiting = none ∧ s.port = .word (.request 0xA 0) :: [] ∧ decode (.request 0xA 0) = .ok .receive := by
  decide
theorem witness_FrameBytesAreReceivedThroughTheirTrain :
    let s := pending (.word (.frame [0xF2, 0x0C]))
    s.params.wellFormed = true ∧ s.cfg.valid = true ∧ s.waiting = none ∧ s.port = .word (.frame [0xF2, 0x0C]) :: [] := by
  decide
theorem witness_StepIsIdleOrRefusesParameters :
    { ready with params := { Config.p0 with tempMax := 16 } }.params.wellFormed = false ∧
    (ready.params.wellFormed = true ∧ ready.port = []) := by decide
/-- A step that begins to wait. -/
theorem witness_EveryStepCompletesUnlessTransmitterBlocks :
    let s := { pending (.word (.request 0x9 0)) with txCalls := some 0 }
    s.params.wellFormed = true ∧ s.waiting = none ∧ decode (.request 0x9 0) = .ok .transmitState ∧
    after (step s) (·.waiting) = some (some .defaultFrame) := by decide +kernel
theorem witness_ResetRestoresTheSpecifiedValues :
    (pending .reset).params.wellFormed = true ∧ (pending .reset).port = .reset :: [] := by decide
theorem witness_ResetAbandonsTheOperation :
    ((pending (.resetDuring 0x7)).params.wellFormed = true ∧
      (pending (.resetDuring 0x7)).port = .resetDuring 0x7 :: [] ∧
      (pending (.resetDuring 0x7)).cur ≤ (pending (.resetDuring 0x7)).cap.length) ∧
    ((0x9 : BitVec 4) ≠ 0x7 ∧ (0x9 : BitVec 4) ≠ 0xA) := by decide
theorem witness_HostSetWritesNamedFields :
    (pending (.set (some 6) none none (some 7))).params.wellFormed = true ∧
    (pending (.set (some 6) none none (some 7))).waiting = none ∧
    (pending (.set (some 6) none none (some 7))).port = .set (some 6) none none (some 7) :: [] := by decide
theorem witness_HostCaptureRewindsTheCursor :
    (pending (.capture [⟨540, 540⟩])).params.wellFormed = true ∧ (pending (.capture [⟨540, 540⟩])).waiting = none ∧
    (pending (.capture [⟨540, 540⟩])).port = .capture [⟨540, 540⟩] :: [] := by decide

/-- A state with a frame in `FB` and a valid variant meets the invariant. -/
theorem inv_holding_good : (holding good).Inv :=
  ⟨by decide +kernel, .inr (by decide +kernel), by simp [holding, ready, State.reset, State.resetWith], by decide, by decide,
    by decide, by decide, by decide⟩
theorem witness_StepKeepsTheInvariant : (holding good).Inv ∧
    step { holding good with port := [] } = .next { holding good with port := [] } := ⟨inv_holding_good, by rfl⟩
theorem witness_ParametersNeverChange : after (step (pending (.word (.request 0xA 0)))) (fun _ => true) = some true := by
  decide +kernel
theorem witness_VariantIsReadOnlyAfterSetup : (pending .reset).cfg.valid = true ∧
    after (step (pending .reset)) (fun t => decide (t.cfg.valid ≠ (pending .reset).cfg.valid)) = some true := by decide
theorem witness_OnlyTransmitWritesSnapshotTemperature :
    after (step (pending (.word (.request 0x9 0)))) (fun t => decide (t.snap.temp ≠ ready.snap.temp)) = some true := by
  decide +kernel
theorem witness_OnlyTransmitAndMappingWriteSnapshot : ready.params.wellFormed = true ∧
    (Instr.motionFrame ⟨0xF2, 0x0D, [0x03]⟩).wellFormed = true ∧
    after (exec (.motionFrame ⟨0xF2, 0x0D, [0x03]⟩) ready) (fun t => decide (t.snap ≠ ready.snap)) = some true := by
  decide +kernel
theorem witness_OnlyOverrideAndMappingWriteOutwardState : ready.params.wellFormed = true ∧
    Instr.transmitState.wellFormed = true ∧
    after (exec .transmitState ready) (fun t => decide (t.out ≠ ready.out)) = some true := by decide +kernel
theorem witness_OnlyChecksAndDecodesWriteStatus :
    after (exec .buildDefault ready) (fun _ => true) = some true ∧
    Instr.buildDefault ∈ [Instr.buildDefault, .buildMotion, .encode, .mapFrame, .transmitState] := by decide
theorem witness_MappingWritesRecognisedValues : ready.cfg.valid = true ∧
    after (exec .receive (capturing (pulses good))) (fun t =>
      decide (t.out.mode ≠ ready.out.mode ∧ t.out.fan ≠ ready.out.fan ∧
        t.snap.mode ≠ ready.snap.mode ∧ t.snap.fan ≠ ready.snap.fan)) = some true ∧
    after (exec .mapFrame (holding [0xF2, 0x0D, 0x01, 0xFE, 0x21, 0x03, 0x22])) (fun t =>
      decide (t.out.swing ≠ ready.out.swing ∧ t.snap.swing ≠ ready.snap.swing)) = some true := by decide +kernel
theorem witness_OnlyTransmitStateTransmits :
    after (step (pending (.word (.request 0x9 0)))) (fun t => t.log.length) = some 3 := by decide +kernel

end Sys2Proof.Tests
end

section
/-! PROOFS. The scope of the model (spec/00_scope.md): which parameter assignments are well-formed (R7), which tolerances
the Receiver may have (R6, R223), and what a step does without a move or without well-formed parameters (R270, R7). -/

namespace Sys2Proof.Machine

/-! ### The conditions of R7, one by one -/

theorem Params.boundsOk_iff (p : Params) :
    p.boundsOk = true ↔ p.tempMin ≤ p.tempMax ∧ p.tempMax - p.tempMin ≤ 15 := by
  simp [Params.boundsOk]

theorem Params.fanOnlyOk_iff (p : Params) :
    p.fanOnlyOk = true ↔ p.tempMin ≤ Config.fanOnlyTemp ∧ Config.fanOnlyTemp ≤ p.tempMin + 15 := by
  simp [Params.fanOnlyOk]

theorem Params.modesOk_iff (p : Params) : p.modesOk = true ↔ p.modeCode.toList.Nodup := decide_eq_true_iff

theorem Params.fansOk_iff (p : Params) : p.fansOk = true ↔ p.fanCode.toList.Nodup := decide_eq_true_iff

theorem Params.swingsOk_iff (p : Params) : p.swingsOk = true ↔ ∀ c ∈ p.swingCodes, c.toList.Nodup := by
  simp only [Params.swingsOk, List.all_eq_true, decide_eq_true_eq]

theorem Params.variantsOk_iff (p : Params) : p.variantsOk = true ↔ 0 < p.swingCodes.length := decide_eq_true_iff

/-- Settles O58: each condition of R7 is the check of that name, and `near(x, x)` holds of every tolerance. -/
theorem wellFormedParametersAreThoseOfTheSpec : Obligations.WellFormedParametersAreThoseOfTheSpec := by
  intro p
  simp only [Params.wellFormed_iff, Params.boundsOk_iff, Params.fanOnlyOk_iff, Params.modesOk_iff, Params.fansOk_iff,
    Params.swingsOk_iff, Params.variantsOk_iff, nearOk_iff, near_self, implies_true, true_and, and_assoc]
  rfl

/-! ### The Receiver's tolerance (R6, R7(f), R223) -/

/-- A tolerance given as windows accepts equality and the durations in a window. -/
theorem near_windows_iff {p : Params} {ws : List Window} (h : p.tolerance = .windows ws) (x e : Nat) :
    near p x e = true ↔
      x = e ∨ ∃ w ∈ ws, w.expected = e ∧ w.lo ≤ x ∧ ∀ hi, w.hi = some hi → x ≤ hi := by
  have own : (⟨e, e, some e⟩ : Window).holds x = true ↔ x = e := by
    rw [Window.holds_iff]
    simp only [Option.some.injEq, forall_eq']
    omega
  simp only [near_windows h, windowsFor, List.any_cons, Bool.or_eq_true, own, List.any_eq_true, List.mem_filter,
    beq_iff_eq, Window.holds_iff, and_assoc]

/-- Settles O59: `admittedNear` keeps what satisfies R7(f) and makes everything satisfy it. -/
theorem everyAdmissibleToleranceIsModelled : Obligations.EveryAdmissibleToleranceIsModelled :=
  ⟨fun _ reflexive disjoint => admittedNear_eq reflexive disjoint,
    fun f => ⟨admittedNear_self f, admittedNear_disjoint f⟩,
    fun _ _ h => near_admitted h,
    fun _ _ x e h => near_windows_iff h x e⟩

/-! ### Captured pairs -/

/-- A pair of the capture is near (mark, space) iff there is one at that index and both its durations are near. -/
theorem pairNear_iff {p : Params} {cap : List MeasuredPair} {k m w : Nat} :
    pairNear p cap k m w = true ↔ ∃ c, cap[k]? = some c ∧ near p c.mark m = true ∧ near p c.space w = true := by
  unfold pairNear
  cases cap[k]? <;> simp

/-- A pair is not near both `BIT1` and `BIT0`, because its space is not near both (R7(f)). -/
theorem not_pairNear_bit1_and_bit0 {p : Params} (hp : p.wellFormed) (cap : List MeasuredPair) (k : Nat) :
    ¬ (pairNear p cap k Config.bitMark Config.oneSpace = true ∧
      pairNear p cap k Config.bitMark Config.zeroSpace = true) := by
  simp only [pairNear_iff]
  rintro ⟨⟨c, hc, -, one⟩, ⟨d, hd, -, zero⟩⟩
  obtain rfl : c = d := Option.some.inj (hc.symm.trans hd)
  exact absurd zero (by simp [not_near_one_and_zero hp one])

/-- Settles O17, from R7(f) for the pair's space; an exact one is no zero for the same reason. -/
theorem noPairIsBothOneAndZero : Obligations.NoPairIsBothOneAndZero :=
  fun _ cap k hp => ⟨not_pairNear_bit1_and_bit0 hp cap k, capturedBit_of_bit1, capturedBit_of_bit0 hp⟩

/-! ### The step's two guards -/

/-- R7: with ill-formed parameters the step is refused. -/
theorem step_of_illFormed {s : State} (h : s.params.wellFormed = false) : step s = .refused .illFormedParameters := by
  simp [step, h]

theorem step_of_wellFormed {s : State} (h : s.params.wellFormed = true) : step s = runNext s := if_pos h

/-- R270, R282: with no pending move nothing changes. -/
theorem runNext_of_no_move {s : State} (h : s.port = []) : runNext s = .next s := by
  simp [runNext, h]

/-- Settles O40, by the two outcomes of the step's guard. -/
theorem stepIsIdleOrRefusesParameters : Obligations.StepIsIdleOrRefusesParameters :=
  ⟨fun _ => step_of_illFormed, fun _ hp hport => (step_of_wellFormed hp).trans (runNext_of_no_move hport)⟩

end Sys2Proof.Machine
end

section
/-! PROOFS. The state of the machine (spec/10_state.md): what an instruction, a move and a step can do to it, said once;
the invariant, which reset establishes and every step keeps; and which operations write the parameters, the variant,
`SNAP`, `OUT` and `DSTAT`. -/

namespace Sys2Proof.Machine

/-! ### What an instruction can do -/

/-- What `exec i s` can answer: one constructor for each way an instruction completes, with the guard it has passed; of
a refusal only that it changes nothing but the mark. `received` and `askedFor` speak of all instructions of a format,
which they tell by the word that encodes the instruction. -/
inductive Effect (s : State) : Instr → State → Prop where
  | refused (i : Instr) (why : RefusalMark) : Effect s i (refuse s why)
  | setup {v : Nat} {codes : SwingCodes} : s.cfg.valid = false → s.params.swingCodes[v]? = some codes →
      Effect s (.setup v) { s with cfg := { valid := true, variant := v }, swc := codes }
  | finalize {dl : BitVec 4} : s.cfg.valid = true → dl.toNat ≤ 8 → Effect s (.finalize dl) (finalize s dl.toNat)
  | validateHeader : s.cfg.valid = true →
      Effect s .validateHeader { s with dstat := Dstat.ofCheck (s.fb.read 3 == cs1 s.fb) .headerSum }
  | validatePayload {len : BitVec 4} : s.cfg.valid = true → 6 ≤ len.toNat → len.toNat ≤ 14 →
      Effect s (.validatePayload len)
        { s with dstat := Dstat.ofCheck (s.fb.read (len.toNat - 1) == cs2 s.fb len.toNat) .payloadSum }
  | buildDefault : s.cfg.valid = true → Effect s .buildDefault (buildDefault s)
  | buildMotion : s.cfg.valid = true → Effect s .buildMotion (buildMotion s)
  | encode : s.cfg.valid = true → 6 ≤ s.flen.toNat → s.flen.toNat ≤ 14 →
      Effect s .encode (encodeFrame s)
  | decode : s.cfg.valid = true → Effect s .decode (decodeCapture s)
  | mapFrame : s.cfg.valid = true → s.flen ≠ 0 → Effect s .mapFrame (mapFrame s)
  | transmitState : s.cfg.valid = true → Effect s .transmitState (afterDefaultStep (defaultStep s))
  | receive : s.cfg.valid = true → Effect s .receive (receive s)
  | received {i : Instr} {bytes : List Byte} {t : State} : Sys2Proof.encode i = .frame bytes →
      receiveBytes bytes s = .next t → Effect s i t
  | askedFor {i : Instr} {symbol : PulsePair} : Sys2Proof.encode i = .pulse symbol → Effect s i (askFor symbol s)

/-- An operation that waits for `SETUP` is refused, or has its own effect. -/
theorem effect_of_afterSetup {f : State → Answer} {i : Instr} {s t : State} (h : afterSetup s f = .next t)
    (own : s.cfg.valid = true → f s = .next t → Effect s i t) : Effect s i t := by
  obtain ⟨-, rfl⟩ | ⟨valid, h⟩ := afterSetup_cases h
  · exact .refused i _
  · exact own valid h

theorem effect_of_exec {i : Instr} {s t : State} (h : exec i s = .next t) : Effect s i t := by
  cases i with
  | setup v =>
    obtain ⟨why, rfl⟩ | ⟨fresh, codes, hc, rfl⟩ := execSetup_cases h
    · exact .refused _ why
    · exact .setup fresh hc
  | finalize dl =>
    unfold exec execFinalize at h
    refine effect_of_afterSetup h fun valid h => ?_
    split at h <;> cases h
    · exact .refused _ _
    · next hl => exact .finalize valid (Nat.le_of_not_lt hl)
  | validateHeader =>
    unfold exec execValidateHeader at h
    exact effect_of_afterSetup h fun valid h => by cases h; exact .validateHeader valid
  | validatePayload len =>
    unfold exec execValidatePayload at h
    refine effect_of_afterSetup h fun valid h => ?_
    split at h <;> cases h
    · exact .refused _ _
    · next bounds =>
      obtain ⟨low, high⟩ := not_or.mp bounds
      exact .validatePayload valid (Nat.le_of_not_lt low) (Nat.le_of_not_lt high)
  | buildDefault =>
    unfold exec execBuildDefault at h
    exact effect_of_afterSetup h fun valid h => by cases h; exact .buildDefault valid
  | buildMotion =>
    unfold exec execBuildMotion at h
    exact effect_of_afterSetup h fun valid h => by cases h; exact .buildMotion valid
  | encode =>
    unfold exec execEncode at h
    refine effect_of_afterSetup h fun valid h => ?_
    split at h <;> cases h
    · exact .refused _ _
    · next bounds =>
      obtain ⟨low, high⟩ := not_or.mp bounds
      exact .encode valid (Nat.le_of_not_lt low) (Nat.le_of_not_lt high)
  | decode =>
    unfold exec execDecode at h
    exact effect_of_afterSetup h fun valid h => by cases h; exact .decode valid
  | mapFrame =>
    unfold exec execMapFrame at h
    refine effect_of_afterSetup h fun valid h => ?_
    split at h <;> cases h
    · exact .refused _ _
    · next held => exact .mapFrame valid held
  | transmitState =>
    unfold exec execTransmitState at h
    exact effect_of_afterSetup h fun valid h => by cases h; exact .transmitState valid
  | receive =>
    unfold exec execReceive at h
    exact effect_of_afterSetup h fun valid h => by cases h; exact .receive valid
  | reservedOpB => cases h; exact .refused _ _
  | reservedOpC => cases h; exact .refused _ _
  | reservedOpD => cases h; exact .refused _ _
  | reservedOpE => cases h; exact .refused _ _
  | reservedOpF => cases h; exact .refused _ _
  | defaultFrame b => exact .received rfl h
  | motionFrame b => exact .received rfl h
  | timerFrame b => exact .received rfl h
  | powerFrame b => exact .received rfl h
  | comfortSleepFrame b => exact .received rfl h
  | otherFrame c b => exact .received rfl h
  | hdr => cases h; exact .askedFor rfl
  | bit0 => cases h; exact .askedFor rfl
  | bit1 => cases h; exact .askedFor rfl
  | trail => cases h; exact .askedFor rfl

/-- Bytes given to the Receiver as a frame are received, or the request is refused before `SETUP` (R205, R255(b)). -/
theorem receiveBytes_cases {bytes : List Byte} {s t : State} (h : receiveBytes bytes s = .next t) :
    let captured := hostCapture s ((train bytes).map PulsePair.measured)
    t = refuse captured .notSetUp ∨ t = receive captured := by
  unfold receiveBytes at h
  dsimp only at h
  split at h <;> cases h
  · exact .inr rfl
  · exact .inl rfl

/-! ### What a move and a step can do -/

/-- What a move of the outside world can leave: one constructor for each way it is taken. -/
inductive MoveEffect (s : State) : HostMove → State → Prop where
  | executed {w : PortWord} {i : Instr} {t : State} : s.waiting = none → decode w = .ok i → exec i s = .next t →
      MoveEffect s (.word w) t
  | received {bytes : List Byte} {t : State} : s.waiting = none → receiveBytes bytes s = .next t →
      MoveEffect s (.word (.frame bytes)) t
  | refused (m : HostMove) (why : RefusalMark) : MoveEffect s m (refuse s why)
  | set {mode fan swing : Option (BitVec 3)} {temp : Option Byte} : s.waiting = none →
      MoveEffect s (.set mode fan temp swing) (hostSet s mode fan temp swing)
  | capture {pairs : List MeasuredPair} : s.waiting = none → MoveEffect s (.capture pairs) (hostCapture s pairs)
  | reset : MoveEffect s .reset (resetBlock s)
  | resetDuring {op : BitVec 4} : s.waiting = none → MoveEffect s (.resetDuring op) (resetDuring s op)
  | cycleAbandoned {op : BitVec 4} : s.waiting ≠ none → MoveEffect s (.resetDuring op) (resetBlock s)
  | transmitter {calls : Option Nat} : s.waiting = none → MoveEffect s (.transmitter calls) { s with txCalls := calls }
  | cycleResumed {call : TransmitCall} {calls : Option Nat} : s.waiting = some call →
      MoveEffect s (.transmitter calls) (resumeCycle call { s with txCalls := calls })

theorem moveEffect_of_runWord {w : PortWord} {s t : State} (idle : s.waiting = none) (h : runWord w s = .next t) :
    MoveEffect s (.word w) t := by
  unfold runWord at h
  split at h
  · next hd => exact .executed idle hd h
  · cases w with
    | frame bytes => exact .received idle h
    | pulse pair => cases h; exact .refused _ _
    | request op operand => cases h; exact .refused _ _

theorem moveEffect_of_runMove {m : HostMove} {s t : State} (h : runMove m s = .next t) : MoveEffect s m t := by
  unfold runMove at h
  split at h
  · next idle =>
    cases m with
    | word w => exact moveEffect_of_runWord idle h
    | set mode fan temp swing => cases h; exact .set idle
    | capture pairs => cases h; exact .capture idle
    | reset => cases h; exact .reset
    | resetDuring op => cases h; exact .resetDuring idle
    | transmitter calls => cases h; exact .transmitter idle
  · next call waits =>
    cases h
    cases m with
    | word w => exact .refused _ _
    | set mode fan temp swing => exact .refused _ _
    | capture pairs => exact .refused _ _
    | reset => exact .reset
    | resetDuring op => exact .cycleAbandoned (by simp [waits])
    | transmitter calls => exact .cycleResumed waits

/-- A step that answers a next state has no move and changes nothing, or takes the first move off the port. -/
theorem step_cases {s t : State} (h : step s = .next t) :
    (s.port = [] ∧ t = s) ∨ ∃ m rest, s.port = m :: rest ∧ MoveEffect { s with port := rest } m t := by
  unfold step at h
  split at h
  · unfold runNext at h
    split at h
    · next hport => cases h; exact .inl ⟨hport, rfl⟩
    · next m rest hport => exact .inr ⟨m, rest, hport, moveEffect_of_runMove h⟩
  · cases h

/-! ### Operations keep the invariant -/

theorem inv_refuse {s : State} (h : s.Inv) (why : RefusalMark) : (refuse s why).Inv := { h with }

theorem inv_raise {s : State} (h : s.Inv) (c : Cause) : (raise s c).Inv :=
  { h with
    fbCanonical := Memory.wf_ofFunction _
    frame := .inl rfl
    cursorInside := Nat.le_of_lt_succ (Nat.mod_lt _ (Nat.succ_pos _))
    causeOfSuccess := fun ok => by simp [Dstat.failure] at ok }

theorem inv_checked {s : State} (h : s.Inv) (passes : Bool) (c : Cause) :
    State.Inv { s with dstat := Dstat.ofCheck passes c } :=
  { h with causeOfSuccess := by cases passes <;> simp [Dstat.ofCheck, Dstat.success, Dstat.failure] }

/-- A finalized buffer holds the frame that `FLEN` claims (R114). -/
theorem inv_finalize {s : State} (h : s.Inv) {dl : Nat} (hl : dl ≤ 8) : (finalize s dl).Inv :=
  { h with
    fbCanonical := wf_finalize h.fbCanonical dl
    frame := .inr (by rw [flen_finalize_toNat s hl]; exact holdsFrame_finalize s hl) }

theorem inv_buildDefault {s : State} (h : s.Inv) : (buildDefault s).Inv :=
  { h with fbCanonical := wf_buildDefault s, frame := .inr (holdsFrame_buildDefault s) }

theorem inv_buildMotion {s : State} (h : s.Inv) : (buildMotion s).Inv :=
  { h with fbCanonical := wf_buildMotion s, frame := .inr (holdsFrame_buildMotion s) }

/-- The train of a frame of at most 14 bytes fits `PB` (R89). -/
theorem inv_encodeFrame {s : State} (h : s.Inv) (hl : s.flen.toNat ≤ 14) : (encodeFrame s).Inv :=
  { h with
    pbSize := length_pb_encodeFrame hl h.pbSize
    plenInside := by rw [plen_encodeFrame hl]; simp [Config.pbSize, Config.repeats, Config.maxFrame]; omega }

/-- A pair that is near stands in the capture. -/
theorem lt_length_of_pairNear {p : Params} {cap : List MeasuredPair} {k m w : Nat} (h : pairNear p cap k m w = true) :
    k < cap.length := by
  obtain ⟨c, hc, -⟩ := pairNear_iff.mp h
  exact (List.getElem?_eq_some_iff.mp hc).1

/-- A pair that is read as a bit stands in the capture. -/
theorem lt_length_of_capturedBit {p : Params} {cap : List MeasuredPair} {k : Nat} (h : (capturedBit p cap k).isSome) :
    k < cap.length := by
  unfold capturedBit at h
  split_ifs at h with one zero
  · exact lt_length_of_pairNear one
  · exact lt_length_of_pairNear zero
  · cases h

/-- A failed decode leaves what `raise` leaves; a successful one a valid frame, and the cursor behind its last bit. -/
theorem inv_decodeCapture {s : State} (h : s.Inv) : (decodeCapture s).Inv := by
  obtain ⟨c, -, hd⟩ | ⟨l, h6, h14, readable, held, hd⟩ := decodeCapture_cases s <;> rw [hd]
  · exact inv_raise h c
  · have last := lt_length_of_capturedBit (readable (8 * l - 1) (by omega))
    have flen : (BitVec.ofNat 4 l).toNat = l := by rw [BitVec.toNat_ofNat, Nat.mod_eq_of_lt (by omega)]
    exact { h with
      fbCanonical := wf_afterFrame s l
      frame := .inr (by rw [flen]; exact held)
      cursorInside := by show s.cur + (1 + 8 * l) ≤ s.cap.length; omega
      causeOfSuccess := fun _ => rfl }

theorem inv_mapFrame {s : State} (h : s.Inv) : (mapFrame s).Inv := by
  rw [(mapFrame_frame s).1]
  exact { h with }

theorem inv_receive {s : State} (h : s.Inv) : (receive s).Inv := by
  unfold receive
  dsimp only
  split
  · exact inv_mapFrame (inv_decodeCapture h)
  · exact inv_decodeCapture h

theorem inv_hostCapture {s : State} (h : s.Inv) (pairs : List MeasuredPair) : (hostCapture s pairs).Inv :=
  { h with cursorInside := Nat.zero_le _ }

theorem inv_receiveBytes {bytes : List Byte} {s t : State} (h : s.Inv) (ht : receiveBytes bytes s = .next t) : t.Inv := by
  obtain rfl | rfl := receiveBytes_cases ht
  · exact inv_refuse (inv_hostCapture h _) _
  · exact inv_receive (inv_hostCapture h _)

/-- The pair at the cursor is consumed only if there is one (R222). -/
theorem inv_askFor {s : State} (h : s.Inv) (symbol : PulsePair) : (askFor symbol s).Inv := by
  unfold askFor
  rw [matchPair_eq]
  split
  · next near => exact { h with cursorInside := lt_length_of_pairNear near }
  · exact h

theorem inv_resetBlock {s : State} (h : s.Inv) : (resetBlock s).Inv where
  fbCanonical := Memory.wf_nil
  frame := .inl rfl
  pbSize := by simp [resetBlock]
  plenInside := Nat.zero_le _
  cursorInside := h.cursorInside
  causeOfSuccess := fun _ => rfl
  variant := fun valid => by simp at valid
  waitsForTransmitter := fun waits => absurd rfl waits

theorem inv_resetDuring {s : State} (h : s.Inv) (op : BitVec 4) : (resetDuring s op).Inv := by
  unfold resetDuring
  split
  · have inside := h.cursorInside
    have moved := Nat.mod_lt (Config.freeCursor s.draws) (show 0 < s.cap.length - s.cur + 1 by omega)
    exact { inv_resetBlock h with
      cursorInside := by
        show s.cur + Config.freeCursor s.draws % (s.cap.length - s.cur + 1) ≤ s.cap.length
        omega }
  · exact inv_resetBlock h

/-! ### The transmit cycle keeps the invariant -/

/-- The invariant but for the wait: a call that goes on or returns restores that clause, for any Transmitter. -/
theorem inv_notWaiting {s : State} (h : s.Inv) (calls : Option Nat) :
    State.Inv { s with txCalls := calls, waiting := none } :=
  { h with waitsForTransmitter := fun waits => absurd rfl waits }

theorem inv_awaitReturn {s : State} (h : State.Inv { s with waiting := none }) (valid : s.cfg.valid = true)
    (call : TransmitCall) : (awaitReturn call s).Inv := by
  by_cases blocked : s.txCalls = some 0
  · rw [awaitReturn_of_blocked call blocked]
    exact { h with waitsForTransmitter := fun _ => ⟨valid, blocked⟩ }
  · rw [awaitReturn_of_completes call blocked]
    exact inv_notWaiting h _

theorem inv_transmit {s : State} (h : s.Inv) (valid : s.cfg.valid = true) (call : TransmitCall) :
    (transmit call s).Inv := by
  unfold transmit
  apply inv_awaitReturn
  · exact { h with waitsForTransmitter := fun waits => absurd rfl waits }
  · exact valid

theorem inv_whenReturned {f : State → State} {s : State} (h : s.Inv) (hf : (f s).Inv) : (whenReturned s f).Inv := by
  unfold whenReturned
  split
  · exact hf
  · exact h

theorem inv_overrideSwing {s : State} (h : s.Inv) : (overrideSwing s).Inv := by
  unfold overrideSwing
  split
  · exact { h with }
  · exact h

theorem inv_recordSnapshot {s : State} (h : s.Inv) : (recordSnapshot s).Inv := { h with }

theorem inv_defaultStep {s : State} (h : s.Inv) (valid : s.cfg.valid = true) : (defaultStep s).Inv := by
  unfold defaultStep
  split
  · have sent : (transmit .defaultFrame (encodeFrame (buildDefault s))).Inv :=
      inv_transmit (inv_encodeFrame (inv_buildDefault h) (by rw [buildDefault_flen]; decide)) valid _
    exact inv_whenReturned sent (inv_overrideSwing sent)
  · exact h

theorem inv_motionStep {s : State} (h : s.Inv) (valid : s.cfg.valid = true) : (motionStep s).Inv := by
  unfold motionStep
  split
  · exact inv_transmit (inv_encodeFrame (inv_buildMotion h) (by rw [buildMotion_flen]; decide)) valid _
  · exact h

theorem inv_afterDefaultStep {s : State} (h : s.Inv) (valid : s.cfg.valid = true) : (afterDefaultStep s).Inv := by
  have motion : (whenReturned s motionStep).Inv := inv_whenReturned h (inv_motionStep h valid)
  exact inv_whenReturned motion (inv_recordSnapshot motion)

theorem inv_transmitCycle {s : State} (h : s.Inv) (valid : s.cfg.valid = true) :
    (afterDefaultStep (defaultStep s)).Inv :=
  inv_afterDefaultStep (inv_defaultStep h valid) (by rw [(Leaves.defaultStep trivial s).cfg]; exact valid)

/-- A cycle that waits goes on as the Transmitter lets it, whatever the move says of the Transmitter (R282). -/
theorem inv_resumeCycle {s : State} (h : State.Inv { s with waiting := none }) (valid : s.cfg.valid = true)
    (call : TransmitCall) : (resumeCycle call s).Inv := by
  have returned := inv_awaitReturn h valid call
  cases call with
  | defaultFrame =>
    refine inv_afterDefaultStep (inv_whenReturned returned (inv_overrideSwing returned)) ?_
    rw [(Leaves.whenReturned (may := True) Leaves.overrideSwing _).cfg, awaitReturn_cfg]
    exact valid
  | motionFrame => exact inv_whenReturned returned (inv_recordSnapshot returned)

/-! ### The invariant -/

theorem inv_resetWith (p : Params) : (State.resetWith p).Inv where
  fbCanonical := Memory.wf_nil
  frame := .inl rfl
  pbSize := by simp [State.resetWith]
  plenInside := Nat.zero_le _
  cursorInside := Nat.le_refl 0
  causeOfSuccess := fun _ => rfl
  variant := fun valid => by simp [State.resetWith] at valid
  waitsForTransmitter := fun waits => absurd rfl waits

theorem inv_effect {i : Instr} {s t : State} (h : s.Inv) (idle : s.waiting = none) (he : Effect s i t) : t.Inv := by
  cases he with
  | refused i why => exact inv_refuse h why
  | setup _ codes =>
    exact { h with variant := fun _ => codes, waitsForTransmitter := fun waits => absurd idle waits }
  | finalize _ hl => exact inv_finalize h hl
  | validateHeader _ => exact inv_checked h _ _
  | validatePayload _ _ _ => exact inv_checked h _ _
  | buildDefault _ => exact inv_buildDefault h
  | buildMotion _ => exact inv_buildMotion h
  | encode _ _ hl => exact inv_encodeFrame h hl
  | decode _ => exact inv_decodeCapture h
  | mapFrame _ _ => exact inv_mapFrame h
  | transmitState valid => exact inv_transmitCycle h valid
  | receive _ => exact inv_receive h
  | received _ ht => exact inv_receiveBytes h ht
  | askedFor _ => exact inv_askFor h _

theorem inv_moveEffect {m : HostMove} {s t : State} (h : s.Inv) (hm : MoveEffect s m t) : t.Inv := by
  cases hm with
  | executed idle _ he => exact inv_effect h idle (effect_of_exec he)
  | received _ ht => exact inv_receiveBytes h ht
  | refused m why => exact inv_refuse h why
  | set _ => exact { h with }
  | capture _ => exact inv_hostCapture h _
  | reset => exact inv_resetBlock h
  | resetDuring _ => exact inv_resetDuring h _
  | cycleAbandoned _ => exact inv_resetBlock h
  | transmitter idle => exact { h with waitsForTransmitter := fun waits => absurd idle waits }
  | @cycleResumed call calls waits =>
    have valid : s.cfg.valid = true := (h.waitsForTransmitter (by simp [waits])).1
    exact inv_resumeCycle (s := { s with txCalls := calls }) (inv_notWaiting h calls) valid call

/-- Settles O48: taking the move off the port keeps the invariant, and so does each way the move is taken. -/
theorem stepKeepsTheInvariant : Obligations.StepKeepsTheInvariant := by
  intro s t h hs
  obtain ⟨-, rfl⟩ | ⟨m, rest, -, hm⟩ := step_cases hs
  · exact h
  · exact inv_moveEffect (s := { s with port := rest }) { h with } hm

/-- Settles O47: the fields of `State.resetWith`, and P0 by evaluation. -/
theorem invariantHoldsAtReset : Obligations.InvariantHoldsAtReset :=
  ⟨inv_resetWith, rfl, by decide⟩

/-- Settles O44: the fields of `State.resetWith`; the empty buffer reads 0x00 at every offset. -/
theorem stateAfterResetIsTheSpecs : Obligations.StateAfterResetIsTheSpecs :=
  fun _ => ⟨rfl, Memory.read_nil, rfl, rfl, rfl, rfl, rfl, rfl⟩

/-! ### The parameters (R34) -/

theorem exec_params {i : Instr} {s t : State} (h : exec i s = .next t) : t.params = s.params := by
  by_cases hi : ∃ v, i = .setup v
  · obtain ⟨v, rfl⟩ := hi
    obtain ⟨why, rfl⟩ | ⟨_, codes, _, rfl⟩ := execSetup_cases h <;> rfl
  · exact (exec_leaves h (not_exists.mp hi)).params

theorem resetDuring_params (s : State) (op : BitVec 4) : (resetDuring s op).params = s.params := by
  unfold resetDuring
  split <;> rfl

theorem moveEffect_params {m : HostMove} {s t : State} (hm : MoveEffect s m t) : t.params = s.params := by
  cases hm with
  | executed _ _ he => exact exec_params he
  | received _ ht => exact (Leaves.receiveBytes (may := False) ht).params
  | resetDuring _ => exact resetDuring_params s _
  | cycleResumed _ => exact (Leaves.resumeCycle trivial _ _).params
  | _ => rfl

/-- Settles O49, by the ways a move is taken. -/
theorem parametersNeverChange : Obligations.ParametersNeverChange := by
  intro s t hs
  obtain ⟨-, rfl⟩ | ⟨m, rest, -, hm⟩ := step_cases hs
  · rfl
  · exact (moveEffect_params hm :)

/-! ### The variant and the swing codes (R26, R27) -/

/-- After `SETUP` an instruction, a second `SETUP` among them, writes neither `CFG` nor `SWC`. -/
theorem exec_variant {i : Instr} {s t : State} (valid : s.cfg.valid = true) (h : exec i s = .next t) :
    t.cfg = s.cfg ∧ t.swc = s.swc := by
  by_cases hi : ∃ v, i = .setup v
  · obtain ⟨v, rfl⟩ := hi
    obtain ⟨why, rfl⟩ | ⟨fresh, -⟩ := execSetup_cases h
    · exact ⟨rfl, rfl⟩
    · simp [valid] at fresh
  · have leaves := exec_leaves h (not_exists.mp hi)
    exact ⟨leaves.cfg, leaves.swc⟩

/-- After `SETUP` a move other than RESET writes neither `CFG` nor `SWC`. -/
theorem moveEffect_variant {m : HostMove} {s t : State} (valid : s.cfg.valid = true) (hm : MoveEffect s m t) :
    t.cfg = s.cfg ∧ t.swc = s.swc ∨ m = .reset ∨ ∃ op, m = .resetDuring op := by
  cases hm with
  | executed _ _ he => exact .inl (exec_variant valid he)
  | received _ ht =>
    have leaves := Leaves.receiveBytes (may := False) ht
    exact .inl ⟨leaves.cfg, leaves.swc⟩
  | @cycleResumed call calls _ =>
    have leaves := Leaves.resumeCycle trivial call { s with txCalls := calls }
    exact .inl ⟨leaves.cfg, leaves.swc⟩
  | reset => exact .inr (.inl rfl)
  | resetDuring _ => exact .inr (.inr ⟨_, rfl⟩)
  | cycleAbandoned _ => exact .inr (.inr ⟨_, rfl⟩)
  | _ => exact .inl ⟨rfl, rfl⟩

/-- Settles O50: the move that was taken is RESET, for any other keeps both. -/
theorem variantIsReadOnlyAfterSetup : Obligations.VariantIsReadOnlyAfterSetup := by
  intro s t valid hs changed
  obtain ⟨-, rfl⟩ | ⟨m, rest, hport, hm⟩ := step_cases hs
  · simp at changed
  · obtain kept | rfl | ⟨op, rfl⟩ := moveEffect_variant (by exact valid) hm
    · exact absurd kept (not_and_or.mpr changed)
    · exact ⟨rest, .inl hport⟩
    · exact ⟨rest, .inr ⟨op, hport⟩⟩

/-! ### The snapshot, the outward state and the status (R21, R23, R31) -/

theorem decodeCapture_thermo (s : State) : (decodeCapture s).out = s.out ∧ (decodeCapture s).snap = s.snap := by
  rw [decodeCapture_frame]
  exact ⟨rfl, rfl⟩

theorem askFor_frame (symbol : PulsePair) (s : State) : askFor symbol s = { s with cur := (askFor symbol s).cur } := by
  unfold askFor
  rw [matchPair_eq]
  split <;> rfl

theorem receive_snap_temp (s : State) : (receive s).snap.temp = s.snap.temp := by
  unfold receive
  dsimp only
  split
  · rw [(mapFrame_frame _).2, (decodeCapture_thermo s).2]
  · rw [(decodeCapture_thermo s).2]

theorem receiveBytes_snap_temp {bytes : List Byte} {s t : State} (h : receiveBytes bytes s = .next t) :
    t.snap.temp = s.snap.temp := by
  obtain rfl | rfl := receiveBytes_cases h
  · rfl
  · exact receive_snap_temp _

/-- Of the instructions only TRANSMIT_STATE writes `SNAP.temp`: the mapping does not (R202). -/
theorem exec_snap_temp {i : Instr} {s t : State} (h : exec i s = .next t) (hi : i ≠ .transmitState) :
    t.snap.temp = s.snap.temp := by
  cases effect_of_exec h with
  | transmitState _ => exact absurd rfl hi
  | decode _ => rw [(decodeCapture_thermo s).2]
  | mapFrame _ _ => exact (mapFrame_frame s).2
  | receive _ => exact receive_snap_temp s
  | received _ ht => exact receiveBytes_snap_temp ht
  | askedFor _ => rw [askFor_frame]
  | _ => rfl

/-- The moves that can write `SNAP.temp`. -/
theorem moveEffect_snap_temp {m : HostMove} {s t : State} (hm : MoveEffect s m t) :
    t.snap.temp = s.snap.temp ∨ m = .reset ∨ (∃ op, m = .resetDuring op) ∨
      (∃ w, m = .word w ∧ decode w = .ok .transmitState) ∨ (s.waiting ≠ none ∧ ∃ calls, m = .transmitter calls) := by
  cases hm with
  | @executed w i _ _ hd he =>
    by_cases hi : i = .transmitState
    · exact .inr (.inr (.inr (.inl ⟨w, rfl, hi ▸ hd⟩)))
    · exact .inl (exec_snap_temp he hi)
  | received _ ht => exact .inl (receiveBytes_snap_temp ht)
  | reset => exact .inr (.inl rfl)
  | resetDuring _ => exact .inr (.inr (.inl ⟨_, rfl⟩))
  | cycleAbandoned _ => exact .inr (.inr (.inl ⟨_, rfl⟩))
  | cycleResumed waits => exact .inr (.inr (.inr (.inr ⟨by simp [waits], _, rfl⟩)))
  | _ => exact .inl rfl

/-- Settles O51: the move that was taken is one of those, for any other keeps `SNAP.temp`. -/
theorem onlyTransmitWritesSnapshotTemperature : Obligations.OnlyTransmitWritesSnapshotTemperature := by
  intro s t hs changed
  obtain ⟨-, rfl⟩ | ⟨m, rest, hport, hm⟩ := step_cases hs
  · exact absurd rfl changed
  · refine ⟨rest, ?_⟩
    obtain kept | rfl | ⟨op, rfl⟩ | ⟨w, rfl, hd⟩ | ⟨waits, calls, rfl⟩ := moveEffect_snap_temp hm
    · exact absurd kept changed
    · exact .inl hport
    · exact .inr (.inl ⟨op, hport⟩)
    · exact .inr (.inr (.inl ⟨w, hport, hd⟩))
    · exact .inr (.inr (.inr ⟨waits, calls, hport⟩))

/-- The reception of a frame whose command the block does not map leaves `OUT` and `SNAP` (R83, R84, R203). -/
theorem receiveBytes_thermo_of_unmapped {c : Byte} {b : FrameBody} {s t : State} (hp : s.params.wellFormed = true)
    (hb : b.payload.length ≤ 8) (notMotion : c ≠ Config.cmdMotion) (notDefault : c ≠ Config.cmdDefault)
    (h : receiveBytes (frameBytes c b) s = .next t) : t.out = s.out ∧ t.snap = s.snap := by
  by_cases valid : s.cfg.valid = true
  · obtain ⟨fb, hr, -, read, -⟩ := receiveBytes_of_validFrame hp valid (validFrame_frameBytes c b hb)
    have command : fb.read 4 = c := (read 4).trans (getD_frameBytes_four c b)
    cases hr.symm.trans h
    rw [mapFrame_other (by rwa [command]) (by rwa [command])]
    exact ⟨rfl, rfl⟩
  · simp only [receiveBytes, hostCapture_cfg, valid] at h
    cases h
    exact ⟨rfl, rfl⟩

/-- `OUT` and `SNAP` after an instruction that is neither a transmit cycle nor a mapping of a frame. -/
theorem exec_thermo {i : Instr} {s t : State} (hp : s.params.wellFormed = true) (hi : i.wellFormed = true)
    (h : exec i s = .next t) :
    t.out = s.out ∧ t.snap = s.snap ∨
      i ∈ [Instr.transmitState, .mapFrame, .receive] ∨ (∃ b, i = .defaultFrame b) ∨ (∃ b, i = .motionFrame b) := by
  cases effect_of_exec h with
  | transmitState _ => exact .inr (.inl (by simp))
  | mapFrame _ _ => exact .inr (.inl (by simp))
  | receive _ => exact .inr (.inl (by simp))
  | decode _ => exact .inl (decodeCapture_thermo s)
  | askedFor _ => exact .inl (by rw [askFor_frame]; exact ⟨rfl, rfl⟩)
  | received hw _ =>
    cases i with
    | defaultFrame b => exact .inr (.inr (.inl ⟨b, rfl⟩))
    | motionFrame b => exact .inr (.inr (.inr ⟨b, rfl⟩))
    | timerFrame b =>
      exact .inl (receiveBytes_thermo_of_unmapped hp (of_decide_eq_true hi) (by decide) (by decide) h)
    | powerFrame b =>
      exact .inl (receiveBytes_thermo_of_unmapped hp (of_decide_eq_true hi) (by decide) (by decide) h)
    | comfortSleepFrame b =>
      exact .inl (receiveBytes_thermo_of_unmapped hp (of_decide_eq_true hi) (by decide) (by decide) h)
    | otherFrame c b =>
      obtain ⟨unnamed, hb⟩ := (Bool.and_eq_true _ _).mp hi
      simp only [namedCommands, List.contains_cons, Bool.not_eq_true', Bool.or_eq_false_iff, beq_eq_false_iff_ne]
        at unnamed
      exact .inl (receiveBytes_thermo_of_unmapped hp (of_decide_eq_true hb) unnamed.2.1 unnamed.1 h)
    | _ => cases hw
  | _ => exact .inl ⟨rfl, rfl⟩

/-- Settles O52: any other instruction keeps `SNAP`. -/
theorem onlyTransmitAndMappingWriteSnapshot : Obligations.OnlyTransmitAndMappingWriteSnapshot :=
  fun _ _ _ hp hi h changed => (exec_thermo hp hi h).resolve_left fun kept => changed kept.2

/-- What follows step 1 writes neither `OUT` nor `DSTAT`. -/
theorem afterDefaultStep_out_dstat (u : State) :
    (afterDefaultStep u).out = u.out ∧ (afterDefaultStep u).dstat = u.dstat := by
  have motion : (motionStep u).out = u.out ∧ (motionStep u).dstat = u.dstat := by
    rw [motionStep_frame u]
    exact ⟨rfl, rfl⟩
  obtain ⟨-, h⟩ | ⟨-, -, h⟩ | ⟨-, -, h⟩ := afterDefaultStep_cases u <;> rw [h]
  · exact ⟨rfl, rfl⟩
  · exact motion
  · exact motion

/-- TRANSMIT_STATE writes of `OUT` at most the override's swing (R183). -/
theorem execTransmitState_out {s t : State} (h : exec .transmitState s = .next t) :
    t.out = s.out ∨ t.out = { s.out with swing := .vertical } := by
  cases effect_of_exec h with
  | refused _ why => exact .inl rfl
  | transmitState _ =>
    rw [(afterDefaultStep_out_dstat _).1]
    exact (defaultStep_frame s).2
  | received hw _ => cases hw
  | askedFor hw => cases hw

/-- Settles O53: a mapping, or the override of a transmit cycle. -/
theorem onlyOverrideAndMappingWriteOutwardState : Obligations.OnlyOverrideAndMappingWriteOutwardState := by
  intro s t i hp hi h changed
  obtain writer | frame := (exec_thermo hp hi h).resolve_left fun kept => changed kept.1
  · obtain rfl | mapping := List.mem_cons.mp writer
    · exact .inl ⟨rfl, (execTransmitState_out h).resolve_left changed⟩
    · exact .inr (.inl mapping)
  · exact .inr (.inr frame)

theorem transmitCycle_dstat (s : State) : (afterDefaultStep (defaultStep s)).dstat = s.dstat := by
  rw [(afterDefaultStep_out_dstat _).2, (defaultStep_frame s).1]

theorem mapFrame_dstat (s : State) : (mapFrame s).dstat = s.dstat := by rw [(mapFrame_frame s).1]

/-- An instruction writes `DSTAT` only as a check, as a decode or as a reception of a frame (R31). -/
theorem exec_dstat {i : Instr} {s t : State} (h : exec i s = .next t) :
    t.dstat = s.dstat ∨ i ∈ [Instr.validateHeader, .decode, .receive] ∨ (∃ len, i = .validatePayload len) ∨
      ∃ bytes, encode i = .frame bytes := by
  cases effect_of_exec h with
  | validateHeader _ => exact .inr (.inl (by simp))
  | validatePayload _ _ _ => exact .inr (.inr (.inl ⟨_, rfl⟩))
  | decode _ => exact .inr (.inl (by simp))
  | receive _ => exact .inr (.inl (by simp))
  | received hw _ => exact .inr (.inr (.inr ⟨_, hw⟩))
  | transmitState _ => exact .inl (transmitCycle_dstat s)
  | mapFrame _ _ => exact .inl (mapFrame_dstat s)
  | askedFor _ => exact .inl (by rw [askFor_frame])
  | _ => exact .inl rfl

/-- Settles O54: none of the seven is a check, a decode or a frame. -/
theorem onlyChecksAndDecodesWriteStatus : Obligations.OnlyChecksAndDecodesWriteStatus := by
  intro s t i h hi
  refine (exec_dstat h).resolve_right ?_
  simp only [List.mem_cons, List.not_mem_nil, or_false] at hi
  obtain (rfl | rfl | rfl | rfl | rfl) | ⟨dl, rfl⟩ | ⟨v, rfl⟩ := hi <;> simp [encode]

end Sys2Proof.Machine
end

section
/-! PROOFS. The encodings (spec/30_encoding.md): the decoder and the encoder are inverse to each other (R70, R82, R87,
R90), what a train lasts (R89, R284), what a received frame of an unmapped command does (R83, R84), and the two writes of
the host (R91). -/

namespace Sys2Proof.Machine

/-! ### Frames as instructions (R70, R82) -/

/-- A command without a row of its own selects the row for other commands. -/
theorem frameOfCommand_of_unnamed {c : Byte} (h : c ∉ namedCommands) (b : FrameBody) :
    frameOfCommand c b = .otherFrame c b := by
  simp only [namedCommands, List.mem_cons, List.not_mem_nil, or_false, not_or] at h
  obtain ⟨h1, h2, h3, h4, h5⟩ := h
  rw [frameOfCommand, if_neg h1, if_neg h2, if_neg h3, if_neg h4, if_neg h5]

/-- A well-formed instruction of format FRAME is what its command byte selects. -/
theorem eq_frameOfCommand_of_encode {i : Instr} {bytes : List Byte} (hi : i.wellFormed = true)
    (h : encode i = .frame bytes) : ∃ c b, b.payload.length ≤ 8 ∧ i = frameOfCommand c b := by
  cases i with
  | defaultFrame b => exact ⟨Config.cmdDefault, b, of_decide_eq_true hi, rfl⟩
  | motionFrame b => exact ⟨Config.cmdMotion, b, of_decide_eq_true hi, rfl⟩
  | timerFrame b => exact ⟨Config.cmdTimer, b, of_decide_eq_true hi, rfl⟩
  | powerFrame b => exact ⟨Config.cmdPower, b, of_decide_eq_true hi, rfl⟩
  | comfortSleepFrame b => exact ⟨Config.cmdComfortSleep, b, of_decide_eq_true hi, rfl⟩
  | otherFrame c b =>
    obtain ⟨unnamed, hb⟩ := (Bool.and_eq_true _ _).mp hi
    exact ⟨c, b, of_decide_eq_true hb, (frameOfCommand_of_unnamed (by simpa using unnamed) b).symm⟩
  | _ => cases h

theorem decode_encode_frameOfCommand (c : Byte) {b : FrameBody} (h : b.payload.length ≤ 8) :
    decode (encode (frameOfCommand c b)) = .ok (frameOfCommand c b) := by
  rw [encode_frameOfCommand]
  exact decodeFrame_frameBytes c b h

/-- Settles O36: the decoder's class of a frame is `frameOfCommand`, which is that chain of comparisons. -/
theorem commandByteSelectsTheFrame : Obligations.CommandByteSelectsTheFrame :=
  fun c b h => decodeFrame_frameBytes c b h

/-! ### Decoding what was encoded -/

/-- Settles O34: a frame by its layout, `dl` and `len` because they fit their four operand lines, the others by the tables
of R87 and R90. -/
theorem decodeOfEncodeIsTheInstruction : Obligations.DecodeOfEncodeIsTheInstruction := by
  intro i hi
  cases hw : encode i with
  | frame bytes =>
    obtain ⟨c, b, hb, rfl⟩ := eq_frameOfCommand_of_encode hi hw
    rw [← hw, decode_encode_frameOfCommand c hb]
  | pulse p =>
    cases i with
    | hdr => cases hw; rfl
    | bit0 => cases hw; rfl
    | bit1 => cases hw; rfl
    | trail => cases hw; rfl
    | _ => cases hw
  | request op x =>
    cases i with
    | finalize dl => cases hw; simp [decode, decodeRequest]
    | validatePayload len => cases hw; simp [decode, decodeRequest]
    | _ => cases hw <;> rfl

/-! ### Encoding what was decoded -/

theorem wellFormed_decodeRequest (op : BitVec 4) (x : Nat) : (decodeRequest op x).wellFormed = true := by
  unfold decodeRequest
  split <;> rfl

/-- A request keeps its operation code (R90). -/
theorem encode_decodeRequest (op : BitVec 4) (x : Nat) : ∃ y, encode (decodeRequest op x) = .request op y := by
  obtain ⟨⟨n, hn⟩⟩ := op
  interval_cases n <;> exact ⟨_, rfl⟩

/-- A pair that decodes is the symbol it decodes to (R87). -/
theorem encode_of_decodePulse {p : PulsePair} {i : Instr} (h : decodePulse p = .ok i) :
    i.wellFormed = true ∧ encode i = .pulse p := by
  unfold decodePulse at h
  split_ifs at h with h1 h2 h3 h4 <;> cases h <;> subst p <;> exact ⟨rfl, rfl⟩

/-- Settles O35: a frame and a pair are the encoding of what they decode to, a request has its operation code; that the
encoding decodes again is `decodeOfEncodeIsTheInstruction`. -/
theorem decodedWordsHaveOneMeaning : Obligations.DecodedWordsHaveOneMeaning := by
  intro w i h
  cases w with
  | request op x =>
    cases h
    have hi := wellFormed_decodeRequest op x
    exact ⟨hi, decodeOfEncodeIsTheInstruction _ hi, nofun, nofun,
      fun op' x' hw => by cases hw; exact encode_decodeRequest op x⟩
  | frame bytes =>
    obtain ⟨c, b, hb, rfl, rfl⟩ := frameBytes_of_decodeFrame h
    exact ⟨wellFormed_frameOfCommand c b hb, decode_encode_frameOfCommand c hb,
      fun _ _ => encode_frameOfCommand c b, nofun, nofun⟩
  | pulse p =>
    obtain ⟨hi, he⟩ := encode_of_decodePulse h
    exact ⟨hi, decodeOfEncodeIsTheInstruction i hi, nofun, fun _ _ => he, nofun⟩

/-- Settles O37: each word by evaluation; the operations without an operand for every operand, because `decodeRequest` does
not read it. -/
theorem writtenOutWordsDecode : Obligations.WrittenOutWordsDecode := by
  refine ⟨rfl, rfl, rfl, rfl, rfl, rfl, rfl, rfl, rfl, rfl, rfl, rfl, rfl, rfl, rfl, rfl, ?_, ?_, ?_, rfl, rfl, rfl, rfl,
    rfl, fun x => ⟨rfl, rfl, rfl, rfl, rfl, rfl, rfl, rfl⟩⟩
  · exact decodeFrame_frameBytes 0x01 ⟨0xF2, 0x0D, [0x50, 0xC1, 0x00]⟩ (by decide)
  · exact decodeFrame_frameBytes 0x21 ⟨0xF2, 0x0D, [0x01]⟩ (by decide)
  · decide

/-! ### What a train lasts (R89, R284) -/

/-- What a pair lasts, in microseconds: its mark and its space. -/
def pairDuration (p : PulsePair) : Nat := p.mark.toNat + p.space.toNat

/-- What a list of pairs lasts. -/
def pulsesDuration (l : List PulsePair) : Nat := (l.map pairDuration).sum

@[simp] theorem pulsesDuration_cons (p : PulsePair) (l : List PulsePair) :
    pulsesDuration (p :: l) = pairDuration p + pulsesDuration l := by simp [pulsesDuration]

@[simp] theorem pulsesDuration_append (l m : List PulsePair) :
    pulsesDuration (l ++ m) = pulsesDuration l + pulsesDuration m := by simp [pulsesDuration]

/-- The pairs of the bits `f a`: 1080 for each, and as much again for each one. -/
theorem pulsesDuration_map_bitSymbol {α : Type} (l : List α) (f : α → Bool) :
    pulsesDuration (l.map fun a => bitSymbol (f a)) = 1080 * l.length + 1080 * l.countP f := by
  induction l with
  | nil => rfl
  | cons a l ih =>
    have one : pairDuration (bitSymbol true) = 2160 := rfl
    have zero : pairDuration (bitSymbol false) = 1080 := rfl
    rw [List.map_cons, pulsesDuration_cons, ih, List.length_cons, List.countP_cons]
    cases f a
    · simp [zero]; omega
    · simp [one]; omega

/-- The pairs between header and trailer, in the order of the serial stream (R51). -/
theorem flatMap_bytePulses_eq_map (bytes : List Byte) :
    bytes.flatMap bytePulses =
      (List.range (8 * bytes.length)).map fun k => bitSymbol ((bytes.getD (k / 8) 0).getLsbD (7 - k % 8)) := by
  refine List.ext_getElem? fun k => ?_
  by_cases hk : k < 8 * bytes.length
  · rw [getElem?_flatMap_bytePulses bytes hk, List.getElem?_map, List.getElem?_range hk]
    rfl
  · rw [List.getElem?_eq_none (by rw [length_flatMap_bytePulses]; omega), List.getElem?_eq_none (by simp; omega)]

/-- Header and trailer last 8750 and 6020. -/
theorem pulsesDuration_repetition (bytes : List Byte) :
    pulsesDuration (repetition bytes) = 14770 + 1080 * (8 * bytes.length) + 1080 *
      (List.range (8 * bytes.length)).countP fun k => (bytes.getD (k / 8) 0).getLsbD (7 - k % 8) := by
  have hdr : pairDuration symbolHdr = 8750 := rfl
  have trail : pulsesDuration [symbolTrail] = 6020 := rfl
  rw [repetition, pulsesDuration_append, pulsesDuration_cons, flatMap_bytePulses_eq_map, pulsesDuration_map_bitSymbol,
    List.length_range, hdr, trail]
  omega

theorem pulsesDuration_train (bytes : List Byte) :
    pulsesDuration (train bytes) = 2 * pulsesDuration (repetition bytes) := by
  rw [train_eq, pulsesDuration_append, Nat.two_mul]

/-- Settles O13: ENCODE leaves the train of the buffer's bytes, which is twice the repetition. -/
theorem transmissionLastsAsTheSpecCounts : Obligations.TransmissionLastsAsTheSpecCounts := by
  intro s t valid h6 h14 h
  cases (execEncode_of_frame valid h6 h14).symm.trans h
  intro ones
  have bits : ones = (List.range (8 * s.flen.toNat)).countP fun k =>
      ((s.fb.bytes s.flen.toNat).getD (k / 8) 0).getLsbD (7 - k % 8) :=
    List.countP_congr fun k hk => by
      have := List.mem_range.mp hk
      rw [getD_bytes s.fb (by omega)]
  show pulsesDuration _ = _
  rw [take_pb_encodeFrame h14, pulsesDuration_train, pulsesDuration_repetition, Memory.length_bytes, bits]

/-! ### Received frames of an unmapped command (R83, R84, R203) -/

/-- Such a frame is received, `OUT` is published as it stands, and beside `DSTAT`, the frame and the capture nothing
changes. -/
theorem receiveBytes_of_unmapped {c : Byte} {b : FrameBody} {s : State} (hp : s.params.wellFormed = true)
    (valid : s.cfg.valid = true) (hb : b.payload.length ≤ 8) (notMotion : c ≠ Config.cmdMotion)
    (notDefault : c ≠ Config.cmdDefault) :
    ∃ fb : Memory, (∀ a, fb.read a = (frameBytes c b).getD a 0) ∧
      receiveBytes (frameBytes c b) s = .next
        { s with
          log := s.log ++ [.publish s.out]
          dstat := Dstat.success
          flen := BitVec.ofNat 4 (6 + b.payload.length)
          fb := fb
          cap := (train (frameBytes c b)).map PulsePair.measured
          cur := 0 + (1 + 8 * (6 + b.payload.length)) } := by
  obtain ⟨fb, hr, -, read, -⟩ := receiveBytes_of_validFrame hp valid (validFrame_frameBytes c b hb)
  have command : fb.read 4 = c := (read 4).trans (getD_frameBytes_four c b)
  refine ⟨fb, read, ?_⟩
  rw [hr, mapFrame_other (by rwa [command]) (by rwa [command]), length_frameBytes]

/-- Settles O27: the four classes are received alike, and their commands are neither 0x01 nor 0x21. -/
theorem receivedUnknownCommandChangesNoState : Obligations.ReceivedUnknownCommandChangesNoState := by
  intro s i c b hp valid hb hi
  have received : exec i s = receiveBytes (frameBytes c b) s ∧ c ≠ Config.cmdMotion ∧ c ≠ Config.cmdDefault := by
    obtain ⟨rfl, rfl⟩ | ⟨rfl, rfl⟩ | ⟨rfl, rfl⟩ | ⟨rfl, notDefault, notMotion⟩ := hi
    · exact ⟨rfl, by decide, by decide⟩
    · exact ⟨rfl, by decide, by decide⟩
    · exact ⟨rfl, by decide, by decide⟩
    · exact ⟨rfl, notMotion, notDefault⟩
  obtain ⟨he, notMotion, notDefault⟩ := received
  obtain ⟨fb, read, hr⟩ := receiveBytes_of_unmapped hp valid hb notMotion notDefault
  have length : (BitVec.ofNat 4 (6 + b.payload.length)).toNat = 6 + b.payload.length := by
    rw [BitVec.toNat_ofNat, Nat.mod_eq_of_lt (by omega)]
  exact ⟨_, he.trans hr, rfl, rfl, length, read, rfl⟩

/-! ### The host's writes (R91) -/

/-- With no operation in progress a step takes the first move and runs it. -/
theorem step_of_idle {s : State} {m : HostMove} {rest : List HostMove} (hp : s.params.wellFormed = true)
    (idle : s.waiting = none) (hport : s.port = m :: rest) : step s = runIdle m { s with port := rest } := by
  simp only [step_of_wellFormed hp, runNext, hport, runMove, idle]

/-- The named fields of `OUT` take the given encodings, the others keep theirs (R11, R91). -/
theorem hostSet_out_bits (s : State) (mode fan : Option (BitVec 3)) (temp : Option Byte)
    (swing : Option (BitVec 3)) :
    let t := hostSet s mode fan temp swing
    t.out.mode.bits = mode.getD s.out.mode.bits ∧ t.out.fan.bits = fan.getD s.out.fan.bits ∧
      t.out.temp = temp.getD s.out.temp ∧ t.out.swing.bits = swing.getD s.out.swing.bits := by
  refine ⟨?_, ?_, rfl, ?_⟩
  · cases mode <;> simp [hostSet]
  · cases fan <;> simp [hostSet]
  · cases swing <;> simp [hostSet]

/-- Settles O45: the step is `hostSet` with the move taken off the port. -/
theorem hostSetWritesNamedFields : Obligations.HostSetWritesNamedFields :=
  fun _ _ mode fan swing temp hp idle hport =>
    ⟨_, step_of_idle hp idle hport, rfl, hostSet_out_bits _ mode fan temp swing⟩

/-- Settles O46: the step is `hostCapture` with the move taken off the port. -/
theorem hostCaptureRewindsTheCursor : Obligations.HostCaptureRewindsTheCursor :=
  fun _ _ _ hp idle hport => step_of_idle hp idle hport

end Sys2Proof.Machine
end

section
/-! PROOFS. The Frame Codec (spec/40_frame_codec.md): what FINALIZE and the two checks answer, case by case (R111 to
R113), and which changes of a frame the checksums miss (R114, R115). -/

namespace Sys2Proof.Machine

/-! ### The operations, case by case (R111 to R113, R255) -/

theorem afterSetup_of_valid {s : State} (h : s.cfg.valid = true) (f : State → Answer) : afterSetup s f = f s :=
  if_pos h

theorem afterSetup_of_not_valid {s : State} (h : s.cfg.valid = false) (f : State → Answer) :
    afterSetup s f = .next (refuse s .notSetUp) :=
  if_neg (by simp [h])

theorem exec_finalize_of_le {s : State} {dl : BitVec 4} (valid : s.cfg.valid = true) (h : dl.toNat ≤ 8) :
    exec (.finalize dl) s = .next (finalize s dl.toNat) := by
  rw [exec, execFinalize, afterSetup_of_valid valid, if_neg (show ¬ Config.maxData < dl.toNat from Nat.not_lt.mpr h)]

theorem exec_finalize_of_gt {s : State} {dl : BitVec 4} (valid : s.cfg.valid = true) (h : 8 < dl.toNat) :
    exec (.finalize dl) s = .next (refuse s .dataLengthTooLong) := by
  rw [exec, execFinalize, afterSetup_of_valid valid, if_pos (show Config.maxData < dl.toNat from h)]

theorem exec_validateHeader {s : State} (valid : s.cfg.valid = true) :
    exec .validateHeader s = .next { s with dstat := Dstat.ofCheck (s.fb.read 3 == cs1 s.fb) .headerSum } := by
  rw [exec, execValidateHeader, afterSetup_of_valid valid]

theorem exec_validatePayload_of_inside {s : State} {len : BitVec 4} (valid : s.cfg.valid = true)
    (h6 : 6 ≤ len.toNat) (h14 : len.toNat ≤ 14) :
    exec (.validatePayload len) s =
      .next { s with dstat := Dstat.ofCheck (s.fb.read (len.toNat - 1) == cs2 s.fb len.toNat) .payloadSum } := by
  have inside : ¬ (len.toNat < Config.minFrame ∨ Config.maxFrame < len.toNat) :=
    not_or.mpr ⟨Nat.not_lt.mpr h6, Nat.not_lt.mpr h14⟩
  rw [exec, execValidatePayload, afterSetup_of_valid valid, if_neg inside]

theorem exec_validatePayload_of_outside {s : State} {len : BitVec 4} (valid : s.cfg.valid = true)
    (h : len.toNat < 6 ∨ 14 < len.toNat) :
    exec (.validatePayload len) s = .next (refuse s .noSuchFrameLength) := by
  have outside : len.toNat < Config.minFrame ∨ Config.maxFrame < len.toNat := h
  rw [exec, execValidatePayload, afterSetup_of_valid valid, if_pos outside]

/-! ### When a check reports success, and when its failure (R112, R113) -/

/-- The two codes that a check can write to `DSTAT` tell its results apart (R31, R240). -/
theorem next_ofCheck_eq_success_iff {s : State} {passes : Bool} {c : Cause} :
    (.next { s with dstat := Dstat.ofCheck passes c } : Answer) =
      .next { s with dstat := { ok := true, cause := .none } } ↔ passes = true := by
  cases passes <;> simp [Dstat.ofCheck, Dstat.success, Dstat.failure]

theorem next_ofCheck_eq_failure_iff {s : State} {passes : Bool} {c : Cause} :
    (.next { s with dstat := Dstat.ofCheck passes c } : Answer) =
      .next { s with dstat := { ok := false, cause := c } } ↔ passes = false := by
  cases passes <;> simp [Dstat.ofCheck, Dstat.success, Dstat.failure]

theorem validateHeader_succeeds_iff {s : State} (valid : s.cfg.valid = true) :
    exec .validateHeader s = .next { s with dstat := { ok := true, cause := .none } } ↔ s.fb.read 3 = cs1 s.fb := by
  rw [exec_validateHeader valid, next_ofCheck_eq_success_iff, beq_iff_eq]

theorem validateHeader_fails_iff {s : State} (valid : s.cfg.valid = true) :
    exec .validateHeader s = .next { s with dstat := { ok := false, cause := .headerSum } } ↔
      s.fb.read 3 ≠ cs1 s.fb := by
  rw [exec_validateHeader valid, next_ofCheck_eq_failure_iff, beq_eq_false_iff_ne]

section
variable {s : State} {len : BitVec 4} (valid : s.cfg.valid = true) (h6 : 6 ≤ len.toNat) (h14 : len.toNat ≤ 14)
include valid h6 h14

theorem validatePayload_succeeds_iff :
    exec (.validatePayload len) s = .next { s with dstat := { ok := true, cause := .none } } ↔
      s.fb.read (len.toNat - 1) = cs2 s.fb len.toNat := by
  rw [exec_validatePayload_of_inside valid h6 h14, next_ofCheck_eq_success_iff, beq_iff_eq]

theorem validatePayload_fails_iff :
    exec (.validatePayload len) s = .next { s with dstat := { ok := false, cause := .payloadSum } } ↔
      s.fb.read (len.toNat - 1) ≠ cs2 s.fb len.toNat := by
  rw [exec_validatePayload_of_inside valid h6 h14, next_ofCheck_eq_failure_iff, beq_eq_false_iff_ne]

end

/-- Settles O5: the check compares offset 3 with `cs1`, which is that exclusive or. -/
theorem validateHeaderReportsChecksumOne : Obligations.ValidateHeaderReportsChecksumOne :=
  ⟨fun _ => rfl,
    fun _ valid => (validateHeader_succeeds_iff valid).mpr,
    fun _ valid => (validateHeader_fails_iff valid).mpr,
    fun s fresh => show execValidateHeader s = _ from afterSetup_of_not_valid fresh _⟩

/-- Settles O6: the check compares the last offset with `cs2`, which is that exclusive or. -/
theorem validatePayloadReportsChecksumTwo : Obligations.ValidatePayloadReportsChecksumTwo :=
  ⟨fun _ => rfl,
    fun _ _ valid h6 h14 => (validatePayload_succeeds_iff valid h6 h14).mpr,
    fun _ _ valid h6 h14 => (validatePayload_fails_iff valid h6 h14).mpr,
    fun _ _ valid outside => exec_validatePayload_of_outside valid outside,
    fun s len fresh => show execValidatePayload len s = _ from afterSetup_of_not_valid fresh _⟩

/-! ### What FINALIZE leaves (R111, R114) -/

/-- The last offset is behind the front four, so `checksum_2` overwrites none of them. -/
theorem read_finalize_front (s : State) {dl : Nat} (h : dl ≤ 8) :
    let fb := (finalize s dl).fb
    fb.read 0 = s.params.header0 ∧ fb.read 1 = s.params.header1 ∧ fb.read 2 = BitVec.ofNat 8 dl ∧
      fb.read 3 = s.params.header0 ^^^ s.params.header1 ^^^ BitVec.ofNat 8 dl := by
  have front (a : Nat) (ha : a ≤ 3) : a ≠ 5 + dl := by omega
  simp [read_finalize s h, front]

theorem read_finalize_other (s : State) {dl : Nat} (h : dl ≤ 8) {a : Nat} (ha : a ∉ [0, 1, 2, 3, 5 + dl]) :
    (finalize s dl).fb.read a = s.fb.read a := by
  simp only [List.mem_cons, List.not_mem_nil, or_false, not_or] at ha
  obtain ⟨a0, a1, a2, a3, last⟩ := ha
  rw [read_finalize s h, if_neg last, if_neg a3, if_neg a2, if_neg a1, if_neg a0]

/-- `cs2` of a frame with `dl` payload bytes covers the command byte and the payload (R76). -/
theorem cs2_six_add (fb : Memory) (dl : Nat) : cs2 fb (6 + dl) = xorAll ((List.range' 4 (dl + 1)).map fb.read) := by
  rw [cs2, show 6 + dl - 5 = dl + 1 by omega]

/-- Settles O4: what FINALIZE leaves is `finalize s dl`, read offset by offset. -/
theorem finalizeSealsTheFrame : Obligations.FinalizeSealsTheFrame := by
  refine ⟨fun _ => rfl, fun s dl valid hdl => ?_, fun _ _ valid hdl => exec_finalize_of_gt valid hdl,
    fun s dl fresh => show execFinalize dl s = _ from afterSetup_of_not_valid fresh _⟩
  obtain ⟨r0, r1, r2, r3⟩ := read_finalize_front s hdl
  rw [BitVec.ofNat_toNat] at r2 r3
  have last : (finalize s dl.toNat).fb.read (5 + dl.toNat) = cs2 s.fb (6 + dl.toNat) := by
    rw [read_finalize s hdl, if_pos rfl]
  have again (canonical : s.fb.wf) : exec (.finalize dl) (finalize s dl.toNat) = .next (finalize s dl.toNat) := by
    rw [exec_finalize_of_le (s := finalize s dl.toNat) valid hdl, finalize_idempotent canonical hdl]
  exact ⟨finalize s dl.toNat, exec_finalize_of_le valid hdl, rfl, flen_finalize_toNat s hdl, r0, r1, r2, r3,
    last.trans (cs2_six_add s.fb dl.toNat), fun _ => read_finalize_other s hdl, again⟩

/-- Settles O7: a finalized buffer holds a frame, whose two checksum equations say that both checks succeed and that
both sums are 0x00. -/
theorem finalizedFramePassesBothChecks : Obligations.FinalizedFramePassesBothChecks := by
  intro s dl len valid hdl hlen
  have h6 : 6 ≤ len.toNat := by omega
  have h14 : len.toNat ≤ 14 := by omega
  have covered : 2 + dl.toNat = len.toNat - 4 := by omega
  obtain ⟨-, -, -, header, payload⟩ := holdsFrame_finalize s hdl
  rw [← hlen] at payload
  rw [covered]
  exact ⟨finalize s dl.toNat, exec_finalize_of_le valid hdl, header, payload,
    (validateHeader_succeeds_iff (s := finalize s dl.toNat) valid).mpr header,
    (validatePayload_succeeds_iff (s := finalize s dl.toNat) valid h6 h14).mpr payload,
    (header_sum_iff _).mp header, (payload_sum_iff _ h6).mp payload⟩

/-! ### What the checksums miss (R115) -/

/-- Bytes keep their sum exactly when every bit column is flipped an even number of times. -/
theorem xorAll_map_eq_iff_even_flips {α : Type} (l : List α) (f g : α → Byte) :
    xorAll (l.map f) = xorAll (l.map g) ↔
      ∀ k < 8, (l.countP fun a => (f a).getLsbD k != (g a).getLsbD k) % 2 = 0 := by
  simp only [← getLsbD_xorAll_map_iff]
  exact ⟨fun h k _ => by rw [h], BitVec.eq_of_getLsbD_eq⟩

/-- One flipped bit changes the sum: its column is flipped once. -/
theorem xorAll_map_ne_of_bit_flip {α : Type} [DecidableEq α] {l : List α} {a : α} {f g : α → Byte} {k : Nat}
    (once : l.Nodup) (ha : a ∈ l) (hk : k < 8) (flipped : g a = f a ^^^ BitVec.twoPow 8 k)
    (kept : ∀ b, b ≠ a → g b = f b) : xorAll (l.map f) ≠ xorAll (l.map g) := by
  have column (b : α) : ((f b).getLsbD k != (g b).getLsbD k) = (b == a) := by
    by_cases hb : b = a
    · subst hb
      simp [flipped, hk]
    · simp [kept b hb, hb]
  have count : (l.countP fun b => (f b).getLsbD k != (g b).getLsbD k) = 1 := by
    simp only [column]
    exact List.count_eq_one_of_mem once ha
  intro same
  have even := (xorAll_map_eq_iff_even_flips l f g).mp same k hk
  omega

/-- The same of one bit flipped in the buffer, for the sum over any of its offsets. -/
theorem xorAll_map_read_write_flip_ne {fb : Memory} {l : List Nat} {a k : Nat} (ha : a ∈ l) (once : l.Nodup)
    (inside : a < 14) (hk : k < 8) :
    xorAll (l.map fb.read) ≠ xorAll (l.map (fb.write a (fb.read a ^^^ BitVec.twoPow 8 k)).read) :=
  xorAll_map_ne_of_bit_flip once ha hk (Memory.read_write_same _ inside) fun _ => Memory.read_write_other _

/-- Settles O8: a check succeeds exactly when the sum over its range is 0x00, and a changed buffer has the same sums
exactly when every column is flipped an even number of times; one flip changes the sum of its range. -/
theorem checksumsMissExactlyEvenColumns : Obligations.ChecksumsMissExactlyEvenColumns := by
  intro s len valid h6 h14 header payload
  rw [validateHeader_succeeds_iff valid, header_sum_iff] at header
  rw [validatePayload_succeeds_iff valid h6 h14, payload_sum_iff _ h6] at payload
  refine ⟨fun s' hs' => ?_, ?_⟩
  · have valid' : s'.cfg.valid = true := (congrArg (·.cfg.valid) hs').trans valid
    rw [validateHeader_succeeds_iff valid', header_sum_iff, validatePayload_succeeds_iff valid' h6 h14,
      payload_sum_iff _ h6, forall₂_and, ← xorAll_map_eq_iff_even_flips, ← xorAll_map_eq_iff_even_flips, header,
      payload]
    exact and_congr eq_comm eq_comm
  · rintro s' a k ha hk rfl
    refine ⟨fun low => ?_, fun high => ?_⟩
    · rw [validateHeader_fails_iff (by exact valid), ne_eq, header_sum_iff, ← header]
      exact (xorAll_map_read_write_flip_ne (List.mem_range.mpr low) List.nodup_range (by omega) hk).symm
    · rw [validatePayload_fails_iff (by exact valid) h6 h14, ne_eq, payload_sum_iff _ h6, ← payload]
      exact (xorAll_map_read_write_flip_ne (List.mem_range'_1.mpr ⟨high, by omega⟩) List.nodup_range' (by omega)
        hk).symm

end Sys2Proof.Machine
end

section
/-! PROOFS. The Pulse Timing Transcoder (spec/41_pulse_transcoder.md): what ENCODE leaves in `PB` pair by pair (R131 to
R133), which outcome DECODE reports (R136 to R140, R143), and that it reads back what ENCODE wrote (R142). -/

namespace Sys2Proof.Machine

/-! ### ENCODE, case by case (R131, R133, R255) -/

theorem exec_encode_of_frame {s : State} (valid : s.cfg.valid = true) (h6 : 6 ≤ s.flen.toNat)
    (h14 : s.flen.toNat ≤ 14) : exec .encode s = .next (encodeFrame s) :=
  show execEncode s = _ from execEncode_of_frame valid h6 h14

theorem exec_encode_of_noFrame {s : State} (valid : s.cfg.valid = true)
    (h : s.flen.toNat < 6 ∨ 14 < s.flen.toNat) : exec .encode s = .next (refuse s .noFrame) := by
  have outside : s.flen.toNat < Config.minFrame ∨ Config.maxFrame < s.flen.toNat := h
  rw [exec, execEncode, afterSetup_of_valid valid, if_pos outside]

/-! ### The pulse buffer after ENCODE (R131, R132) -/

/-- Both repetitions of a train are the same pairs, the second `8L + 2` further. -/
theorem getElem?_train_add (bytes : List Byte) {start k : Nat} (hstart : start = 0 ∨ start = 8 * bytes.length + 2)
    (hk : k < 8 * bytes.length + 2) : (train bytes)[start + k]? = (repetition bytes)[k]? := by
  rcases hstart with rfl | rfl
  · rw [Nat.zero_add, getElem?_train_first bytes hk]
  · exact getElem?_train_second bytes k

/-- In front of `PLEN` the buffer holds the frame's two repetitions. -/
theorem getElem?_pb_encodeFrame_add (s : State) {start k : Nat}
    (hstart : start = 0 ∨ start = 8 * s.flen.toNat + 2) (hk : k < 8 * s.flen.toNat + 2) :
    (encodeFrame s).pb[start + k]? = (repetition (s.fb.bytes s.flen.toNat))[k]? := by
  have inside : start + k < (train (s.fb.bytes s.flen.toNat)).length := by
    rw [length_train, Memory.length_bytes]
    omega
  rw [← Memory.length_bytes s.fb s.flen.toNat] at hstart hk
  rw [← getElem?_train_add _ hstart hk]
  exact List.getElem?_append_left inside

/-- From `PLEN` on the buffer keeps its pairs. -/
theorem getElem?_pb_encodeFrame_of_le (s : State) {k : Nat} (h : 16 * s.flen.toNat + 4 ≤ k) :
    (encodeFrame s).pb[k]? = s.pb[k]? := by
  have length : (train (s.fb.bytes s.flen.toNat)).length = 16 * s.flen.toNat + 4 := by
    rw [length_train, Memory.length_bytes]
  rw [encodeFrame, List.getElem?_append_right (length ▸ h), List.getElem?_drop, length, Nat.add_sub_cancel' h]

/-- Bit `k` of the frame in `FB` as its pair, bit 7 of offset 0 first (R51, R87). -/
theorem getElem?_repetition_bytes_bit (fb : Memory) {l k : Nat} (hk : k < 8 * l) :
    (repetition (fb.bytes l))[1 + k]? =
      some (if (fb.read (k / 8)).getLsbD (7 - k % 8) then ⟨540, 1620⟩ else ⟨540, 540⟩) := by
  rw [getElem?_repetition_bit _ (by simpa using hk), getD_bytes fb (by omega)]
  rfl

theorem getElem?_repetition_bytes_trail (fb : Memory) (l : Nat) :
    (repetition (fb.bytes l))[8 * l + 1]? = some ⟨540, 5480⟩ := by
  have trail := getElem?_repetition_trail (fb.bytes l)
  rwa [Memory.length_bytes] at trail

/-- Settles O12: `PB` holds the repetition at both starting points, read header, bits and trailing pair in turn. -/
theorem encodeLaysOutBothRepetitions : Obligations.EncodeLaysOutBothRepetitions := by
  refine ⟨fun _ => rfl, fun s valid h6 h14 => ?_, fun _ valid outside => exec_encode_of_noFrame valid outside,
    fun s fresh => show execEncode s = _ from afterSetup_of_not_valid fresh _⟩
  refine ⟨encodeFrame s, exec_encode_of_frame valid h6 h14, rfl, plen_encodeFrame h14, fun start hstart => ?_,
    fun k => getElem?_pb_encodeFrame_of_le s⟩
  have pair {k : Nat} (hk : k < 8 * s.flen.toNat + 2) := getElem?_pb_encodeFrame_add s hstart hk
  refine ⟨pair (k := 0) (by omega), fun k hk => ?_, ?_⟩
  · rw [Nat.add_assoc, pair (by omega), getElem?_repetition_bytes_bit s.fb hk]
  · rw [Nat.add_assoc, pair (by omega), getElem?_repetition_bytes_trail]

/-! ### The outcomes of DECODE (R136, R143, R248, R249) -/

theorem exec_decode {s : State} (valid : s.cfg.valid = true) : exec .decode s = .next (decodeCapture s) :=
  show execDecode s = _ from afterSetup_of_valid valid _

/-- A raised cause leaves what a failed decode may leave (R143, R249). -/
theorem failedFrom_of_eq_raise {s t : State} {c : Cause} (h : t = raise s c) : s.FailedFrom c t := by
  subst h
  exact ⟨rfl, rfl, rfl⟩

/-- The length of a frame fits `FLEN`. -/
theorem toNat_ofNat_flen {l : Nat} (h : l ≤ 14) : (BitVec.ofNat 4 l).toNat = l :=
  BitVec.toNat_ofNat .. ▸ Nat.mod_eq_of_lt (by omega)

/-- Settles O15: the stage that fails first decides the outcome, and no failing stage leaves the frame. -/
theorem decodeReportsTheFirstFailure : Obligations.DecodeReportsTheFirstFailure := by
  refine ⟨fun _ => rfl, fun s fresh => show execDecode s = _ from afterSetup_of_not_valid fresh _, fun s valid => ?_⟩
  intro n headerGood
  refine ⟨decodeCapture s, exec_decode valid, ?noHeader, ?noPrefix, ?headerSum, ?length, ?noPayload, ?payloadSum,
    ?success⟩
  case noHeader => exact fun header => failedFrom_of_eq_raise (decodeCapture_timing_header header)
  case noPrefix => exact fun header bits => failedFrom_of_eq_raise (decodeCapture_timing_prefix header bits)
  case headerSum => exact fun header bits sum => failedFrom_of_eq_raise (decodeCapture_headerSum header bits sum)
  case length => exact fun header bits sum long => failedFrom_of_eq_raise (decodeCapture_length header bits sum long)
  case noPayload =>
    exact fun header bits sum short rest =>
      failedFrom_of_eq_raise (decodeCapture_timing_payload header bits sum short rest)
  case payloadSum =>
    exact fun header sum short bits payload =>
      failedFrom_of_eq_raise (decodeCapture_payloadSum header sum short bits payload)
  case success =>
    intro header sum short bits payload
    rw [decodeCapture_success header sum short bits payload]
    have read (a : Nat) := read_afterFrame (s := s) (show 4 ≤ 6 + n by omega) (show 6 + n ≤ 14 by omega) a
    exact ⟨rfl, toNat_ofNat_flen (show 6 + n ≤ 14 by omega), fun a ha => (read a).trans (if_pos ha),
      fun a ha => (read a).trans (if_neg (Nat.not_lt.mpr ha))⟩

/-! ### There and back (R142) -/

/-- Behind its list of bytes a frame reads as 0x00. -/
theorem getD_bytes_of_le (fb : Memory) {l a : Nat} (h : l ≤ a) : (fb.bytes l).getD a 0 = 0 :=
  List.getD_eq_default _ _ (by simpa using h)

/-- Settles O16: the capture holds one repetition of the valid frame from the cursor on, and that is read back. -/
theorem encodedFrameDecodesToItself : Obligations.EncodedFrameDecodesToItself := by
  intro s t more start wellFormed valid frame encoded hstart captured
  have ⟨h6, h14, _⟩ := frame
  cases (exec_encode_of_frame valid h6 h14).symm.trans encoded
  have length : (s.fb.bytes s.flen.toNat).length = s.flen.toNat := Memory.length_bytes ..
  have onAir : HoldsRepetition captured.cap captured.cur (s.fb.bytes s.flen.toNat) := by
    simp only [captured, take_pb_encodeFrame h14]
    exact holdsRepetition_of_train _ more (length.symm ▸ hstart)
  obtain ⟨fb, decoded, -, read, -⟩ :=
    decodeCapture_of_validFrame (s := captured) wellFormed onAir (validFrame_bytes frame)
  rw [length, BitVec.ofNat_toNat, BitVec.setWidth_eq] at decoded
  refine ⟨_, (exec_decode (s := captured) valid).trans (congrArg _ decoded), rfl, rfl, fun a ha => ?_, fun a ha => ?_⟩
  · exact (read a).trans (getD_bytes s.fb ha)
  · exact (read a).trans (getD_bytes_of_le s.fb ha)

end Sys2Proof.Machine
end

section
/-! PROOFS. The Command Builders (spec/42_command_builders.md): the fourteen bytes of the default and of the motion frame
(R160 to R162, R165 to R167), and the temperature in the default frame (R163, R164). -/

namespace Sys2Proof.Machine

/-! ### The operations after SETUP (R160, R166) -/

theorem exec_buildDefault {s : State} (valid : s.cfg.valid = true) : exec .buildDefault s = .next (buildDefault s) :=
  show execBuildDefault s = _ from afterSetup_of_valid valid _

theorem exec_buildMotion {s : State} (valid : s.cfg.valid = true) : exec .buildMotion s = .next (buildMotion s) :=
  show execBuildMotion s = _ from afterSetup_of_valid valid _

/-! ### The bytes of the two frames (R160, R165, R166) -/

theorem joinNibbles_zero_right (h : Nibble) : joinNibbles h 0 = h.setWidth 8 <<< 4 := by
  simp [joinNibbles_eq_or]

theorem joinNibbles_zero_left (l : Nibble) : joinNibbles 0 l = l.setWidth 8 := by
  simp [joinNibbles_eq_or]

/-- Settles O9: the bytes are `bytes_buildDefault` with each joined pair of nibbles as a shift and an or; the field is
`temperatureOf`, and the statement's maps of R161 and R162 are `modeCode` and `fanCode`. -/
theorem buildDefaultWritesTheDefaultFrame : Obligations.BuildDefaultWritesTheDefaultFrame := by
  intro s valid
  refine ⟨buildDefault s, temperatureOf s.params s.out.mode s.out.temp, exec_buildDefault valid, rfl, ?_,
    fun _ => Memory.read_of_maxFrame_le (wf_buildDefault s)⟩
  rw [bytes_buildDefault, joinNibbles_zero_right, joinNibbles_eq_or]
  rfl

/-- Settles O11: the bytes are `bytes_buildMotion` with a zero high nibble joined to the code; the statement's map of R167
is `swingCode`. -/
theorem buildMotionWritesTheMotionFrame : Obligations.BuildMotionWritesTheMotionFrame := by
  refine ⟨fun _ => rfl, fun s valid => ?_,
    fun s fresh => show execBuildMotion s = _ from afterSetup_of_not_valid fresh _⟩
  refine ⟨buildMotion s, exec_buildMotion valid, rfl, ?_, fun _ => Memory.read_of_maxFrame_le (wf_buildMotion s)⟩
  rw [bytes_buildMotion, joinNibbles_zero_left]
  rfl

/-! ### The temperature of the default frame (R163, R164) -/

theorem clamp_of_lt {v lo hi : Nat} (h : v < lo) : clamp v lo hi = lo := if_pos h

theorem clamp_of_gt {v lo hi : Nat} (bounds : lo ≤ hi) (h : hi < v) : clamp v lo hi = hi := by
  rw [clamp, if_neg (by omega), if_pos h]

theorem toNat_joinNibbles_zero_right (h : Nibble) : (joinNibbles h 0).toNat = 16 * h.toNat := by
  revert h; decide

/-- Offset 5 is the temperature field, in the high nibble (R78). -/
theorem toNat_read_buildDefault_five (s : State) :
    ((buildDefault s).fb.read 5).toNat = 16 * (temperatureOf s.params s.out.mode s.out.temp).toNat := by
  rw [read_of_bytes (bytes_buildDefault s) (by decide), ← toNat_joinNibbles_zero_right]
  rfl

section
variable {p : Params} (wellFormed : p.wellFormed = true)
include wellFormed

/-- R164: by R7(b) the 22 degrees of fan-only fit the field. -/
theorem toNat_temperatureOf_fanOnly (temp : Byte) : (temperatureOf p .fanOnly temp).toNat = 22 - p.tempMin := by
  obtain ⟨-, -, low, high⟩ := Params.bounds wellFormed
  rw [temperatureOf, if_pos (show modeCode p.modeCode .fanOnly = p.modeCode.fanOnly from rfl)]
  exact tempField_toNat low high

/-- R163: by R7(c) no other mode has the code of fan-only, and by R7(a) what is clamped fits the field. -/
theorem toNat_temperatureOf_of_ne_fanOnly {mode : Mode} (h : mode ≠ .fanOnly) (temp : Byte) :
    (temperatureOf p mode temp).toNat = clamp temp.toNat p.tempMin p.tempMax - p.tempMin := by
  obtain ⟨bounds, width, -, -⟩ := Params.bounds wellFormed
  obtain ⟨low, high⟩ := clamp_bounds (v := temp.toNat) bounds
  rw [temperatureOf, if_neg (mt (modeCode_eq_fanOnly (Params.modes_nodup wellFormed) mode).mp h)]
  exact tempField_toNat low (high.trans width)

end

/-- Settles O10: offset 5 is 16 times the field, which is 22 - TEMP_MIN in fan-only mode and else the clamped request, in
its three cases. -/
theorem defaultFrameTemperatureIsClampedOrPinned : Obligations.DefaultFrameTemperatureIsClampedOrPinned := by
  intro s wellFormed valid
  obtain ⟨bounds, -, -, -⟩ := Params.bounds wellFormed
  refine ⟨buildDefault s, exec_buildDefault valid, fun fanOnly => ?_, fun other low => ?_, fun other low high => ?_,
    fun other high => ?_, rfl⟩ <;> rw [toNat_read_buildDefault_five]
  · rw [fanOnly, toNat_temperatureOf_fanOnly wellFormed]
  · rw [toNat_temperatureOf_of_ne_fanOnly wellFormed other, clamp_of_lt low, Nat.sub_self]
  · rw [toNat_temperatureOf_of_ne_fanOnly wellFormed other, clamp_of_mem low high]
  · rw [toNat_temperatureOf_of_ne_fanOnly wellFormed other, clamp_of_gt bounds high]

end Sys2Proof.Machine
end

section
/-! PROOFS. The State Diff Controller (spec/43_diff_controller.md): what a transmit cycle sends and records (R181 to R187),
that a second cycle sends nothing (R189(a), (c)), and what powering on from off does (R183, R189(b)). -/

namespace Sys2Proof.Machine

/-! ### The two conditions (R182, R184) -/

theorem defaultDiffers_iff {s : State} :
    defaultDiffers s = true ↔ s.out.mode ≠ s.snap.mode ∨ s.out.fan ≠ s.snap.fan ∨ s.out.temp ≠ s.snap.temp := by
  simp [defaultDiffers, or_assoc]

theorem swingDiffers_iff {s : State} : swingDiffers s = true ↔ s.out.swing ≠ s.snap.swing := decide_eq_true_iff

/-! ### Step 1, once it has ended (R181 to R183) -/

theorem defaultStep_snap (s : State) : (defaultStep s).snap = s.snap := by rw [(defaultStep_frame s).1]

section
variable {s : State} (ended : (defaultStep s).waiting = none)
include ended

/-- A step 1 that has ended, with a frame to send, did not find the Transmitter stopped. -/
theorem txCalls_ne_zero_of_defaultStep_ended (hd : defaultDiffers s = true) : s.txCalls ≠ some 0 := by
  intro stopped
  rw [defaultStep_of_blocked hd stopped] at ended
  cases ended

/-- The override is applied with the default frame, from a snapshot that is off (R183, D28). -/
theorem defaultStep_out : (defaultStep s).out =
    if defaultDiffers s = true ∧ s.snap.mode = .off then { s.out with swing := .vertical } else s.out := by
  by_cases hd : defaultDiffers s = true
  · rw [defaultStep_of_returned hd (txCalls_ne_zero_of_defaultStep_ended ended hd)]
    simp only [hd, true_and]
  · rw [defaultStep_of_equal (by simpa using hd), if_neg (fun h => hd h.1)]

/-- The default frame's transmission, then the override's publication (D24). -/
theorem defaultStep_log :
    let d := encodeFrame (buildDefault s)
    (defaultStep s).log = s.log
      ++ (if defaultDiffers s = true then [.transmit ⟨38000, d.pb.take d.plen.toNat⟩] else [])
      ++ (if defaultDiffers s = true ∧ s.snap.mode = .off then [.publish (defaultStep s).out] else []) := by
  intro d
  by_cases hd : defaultDiffers s = true
  · rw [defaultStep_of_returned hd (txCalls_ne_zero_of_defaultStep_ended ended hd)]
    simp only [hd, true_and, if_true]
    split_ifs <;> rfl
  · rw [defaultStep_of_equal (by simpa using hd), if_neg hd, if_neg (fun h => hd h.1), List.append_nil, List.append_nil]

theorem defaultStep_txCalls : (defaultStep s).txCalls = s.txCalls.map (· - (defaultDiffers s).toNat) := by
  by_cases hd : defaultDiffers s = true
  · rw [defaultStep_of_returned hd (txCalls_ne_zero_of_defaultStep_ended ended hd), hd]
    rfl
  · rw [Bool.not_eq_true] at hd
    simp [defaultStep_of_equal hd, hd]

/-- With a default frame sent, the buffers are those that BUILD_DEFAULT and ENCODE leave. -/
theorem defaultStep_buffers (hd : defaultDiffers s = true) :
    let d := encodeFrame (buildDefault s)
    (defaultStep s).fb = d.fb ∧ (defaultStep s).flen = d.flen ∧ (defaultStep s).plen = d.plen ∧
      (defaultStep s).pb = d.pb := by
  rw [defaultStep_of_returned hd (txCalls_ne_zero_of_defaultStep_ended ended hd)]
  exact ⟨rfl, rfl, rfl, rfl⟩

end

/-! ### Step 2 (R181, R184) -/

theorem motionStep_of_differs {s : State} (hd : swingDiffers s = true) :
    motionStep s = transmit .motionFrame (encodeFrame (buildMotion s)) := if_pos hd

theorem motionStep_out (s : State) : (motionStep s).out = s.out := by rw [motionStep_frame s]

/-- The call's entry is in the log whether or not the call returns (R33). -/
theorem motionStep_log (s : State) :
    let m := encodeFrame (buildMotion s)
    (motionStep s).log = s.log
      ++ (if swingDiffers s = true then [.transmit ⟨38000, m.pb.take m.plen.toNat⟩] else []) := by
  intro m
  by_cases hd : swingDiffers s = true
  · rw [motionStep_of_differs hd, transmit_log, if_pos hd]
    rfl
  · rw [motionStep_of_equal (by simpa using hd), if_neg hd, List.append_nil]

theorem motionStep_txCalls {s : State} (ended : (motionStep s).waiting = none) :
    (motionStep s).txCalls = s.txCalls.map (· - (swingDiffers s).toNat) := by
  by_cases hd : swingDiffers s = true
  · by_cases stopped : s.txCalls = some 0
    · rw [motionStep_of_blocked hd stopped] at ended
      cases ended
    · rw [motionStep_of_returned hd stopped, hd]
      rfl
  · rw [Bool.not_eq_true] at hd
    simp [motionStep_of_equal hd, hd]

/-- With a motion frame sent, the buffers are those that BUILD_MOTION and ENCODE leave. -/
theorem motionStep_buffers {s : State} (hd : swingDiffers s = true) :
    let m := encodeFrame (buildMotion s)
    (motionStep s).fb = m.fb ∧ (motionStep s).flen = m.flen ∧ (motionStep s).plen = m.plen ∧
      (motionStep s).pb = m.pb := by
  rw [motionStep_of_differs hd]
  exact ⟨transmit_fb .., transmit_flen .., transmit_plen .., transmit_pb ..⟩

theorem plen_encodeFrame_buildMotion (s : State) : (encodeFrame (buildMotion s)).plen = 116#8 := by
  simp [encodeFrame]

/-- The motion frame of step 2 and the train in front of `PLEN` are those of the state on entry with the `OUT` that step 1
leaves: nothing else that step 1 writes is read (R166). -/
theorem buildMotion_defaultStep (s : State) :
    let u := buildMotion (defaultStep s)
    let v := buildMotion { s with out := (defaultStep s).out }
    u.fb = v.fb ∧
      (encodeFrame u).pb.take (encodeFrame u).plen.toNat = (encodeFrame v).pb.take (encodeFrame v).plen.toNat := by
  have kept := Leaves.defaultStep (may := True) trivial s
  have same := buildMotion_fb_congr (u := { s with out := (defaultStep s).out }) kept.params kept.swc rfl
  exact ⟨same, transmitted_buildMotion_congr same⟩

/-! ### The whole cycle (R181, R185, R187) -/

theorem exec_transmitState {s : State} (valid : s.cfg.valid = true) :
    exec .transmitState s = .next (afterDefaultStep (defaultStep s)) := execTransmitState_eq valid

/-- A cycle that has ended went through both steps and the record of the snapshot. -/
theorem transmitCycle_of_ended {s : State} (ended : (afterDefaultStep (defaultStep s)).waiting = none) :
    (defaultStep s).waiting = none ∧ (motionStep (defaultStep s)).waiting = none ∧
      afterDefaultStep (defaultStep s) = recordSnapshot (motionStep (defaultStep s)) := by
  obtain ⟨waits, ht⟩ | ⟨-, waits, ht⟩ | all := afterDefaultStep_cases (defaultStep s)
  · exact absurd (ht ▸ ended) waits
  · exact absurd (ht ▸ ended) waits
  · exact all

/-- A Transmitter that completes the next two calls lets the cycle end: it waits only with fewer (R282). -/
theorem transmitCycle_ends {s : State} (idle : s.waiting = none) (calls : s.completesCalls 2) :
    (afterDefaultStep (defaultStep s)).waiting = none := by
  by_contra waits
  obtain ⟨-, few | few, -, -⟩ := transmitCycle_waits idle waits
  · exact absurd (calls 0 few) (by decide)
  · exact absurd (calls 1 few) (by decide)

/-- What a cycle that has ended leaves alone. -/
theorem transmitCycle_frame (s : State) :
    let t := recordSnapshot (motionStep (defaultStep s))
    t = { s with out := t.out, snap := t.snap, log := t.log, fb := t.fb, flen := t.flen, pb := t.pb, plen := t.plen,
                 txCalls := t.txCalls, waiting := t.waiting } := by
  have step1 := (defaultStep_frame s).1
  have step2 := motionStep_frame (defaultStep s)
  have out := motionStep_out (defaultStep s)
  generalize motionStep (defaultStep s) = m at step2 out ⊢
  generalize defaultStep s = u at step1 step2 out
  refine (congrArg recordSnapshot step2).trans ?_
  simp only [recordSnapshot_out, recordSnapshot_snap, out]
  rw [step1]
  rfl

theorem transmitCycle_txCalls {s : State} (step1 : (defaultStep s).waiting = none)
    (step2 : (motionStep (defaultStep s)).waiting = none) :
    (motionStep (defaultStep s)).txCalls =
      s.txCalls.map (· - ((defaultDiffers s).toNat + (swingDiffers (defaultStep s)).toNat)) := by
  rw [motionStep_txCalls step2, defaultStep_txCalls step1, Option.map_map]
  simp only [Function.comp_def, Nat.sub_sub]

/-- Settles O30: the two conditions are those of the two steps, the second read after the override, and each clause is that
of step 1 followed by that of step 2. -/
theorem transmitStateSendsWhatChanged : Obligations.TransmitStateSendsWhatChanged := by
  refine ⟨fun s fresh => show execTransmitState s = _ from afterSetup_of_not_valid fresh _, fun s valid idle calls => ?_⟩
  obtain ⟨step1, step2, ht⟩ := transmitCycle_of_ended (transmitCycle_ends idle calls)
  obtain ⟨motionFb, motionTrain⟩ := buildMotion_defaultStep s
  refine ⟨defaultDiffers s, swingDiffers (defaultStep s), (defaultStep s).out, buildDefault s,
    encodeFrame (buildDefault s), _, _, recordSnapshot (motionStep (defaultStep s)), defaultDiffers_iff,
    defaultStep_out step1, ?sendMotion, exec_buildDefault valid, execEncode_buildDefault valid,
    exec_buildMotion (s := { s with out := (defaultStep s).out }) valid,
    execEncode_buildMotion (s := { s with out := (defaultStep s).out }) valid,
    (exec_transmitState valid).trans (congrArg _ ht), motionStep_out _, motionStep_out _, ?log, ?motionLast,
    ?defaultLast, ?nothingSent, transmitCycle_txCalls step1 step2, ?frame⟩
  case sendMotion => rw [swingDiffers_iff, defaultStep_snap]
  case log => rw [recordSnapshot_log, motionStep_log, defaultStep_log step1, motionTrain]
  case motionLast =>
    intro differs
    obtain ⟨fb, flen, plen, pb⟩ := motionStep_buffers differs
    refine ⟨fun a => ?_, flen, plen.trans ?_, ?_⟩
    · rw [recordSnapshot_fb, fb, encodeFrame_fb, motionFb, encodeFrame_fb]
    · rw [plen_encodeFrame_buildMotion, plen_encodeFrame_buildMotion]
    · rw [recordSnapshot_pb, recordSnapshot_plen, pb, plen, motionTrain]
  case defaultLast =>
    intro equal differs
    obtain ⟨fb, flen, plen, pb⟩ := defaultStep_buffers step1 differs
    rw [motionStep_of_equal equal]
    exact ⟨fun a => congrArg (·.read a) fb, flen, plen, pb⟩
  case nothingSent =>
    intro equal same
    rw [motionStep_of_equal equal, defaultStep_of_equal same]
    exact ⟨rfl, rfl, rfl, rfl⟩
  case frame =>
    have kept := transmitCycle_frame s
    dsimp only at kept
    rwa [show (recordSnapshot (motionStep (defaultStep s))).waiting = s.waiting from step2.trans idle.symm] at kept

/-! ### A second cycle (R189(a), (c)) -/

/-- Of equal `OUT` and `SNAP` a cycle does nothing. -/
theorem transmitCycle_of_equal {s : State} (idle : s.waiting = none) (equal : s.snap = s.out) :
    afterDefaultStep (defaultStep s) = s := by
  obtain ⟨same, still⟩ := nothing_differs equal.symm
  rw [defaultStep_of_equal same, afterDefaultStep_of_none idle, motionStep_of_equal still, whenReturned_of_none idle]
  exact congrArg (fun o => { s with snap := o }) equal.symm

/-- Settles O31: the record of the snapshot ends the first cycle, and the second finds `OUT` and `SNAP` equal. -/
theorem secondTransmitCycleSendsNothing : Obligations.SecondTransmitCycleSendsNothing := by
  intro s t valid _ first ended
  cases (exec_transmitState valid).symm.trans first
  have recorded : (afterDefaultStep (defaultStep s)).snap = (afterDefaultStep (defaultStep s)).out := by
    rw [(transmitCycle_of_ended ended).2.2]
    rfl
  have stillValid : (afterDefaultStep (defaultStep s)).cfg.valid = true := by
    rw [(Leaves.transmitCycle trivial s).cfg, valid]
  exact ⟨recorded, (exec_transmitState stillValid).trans (congrArg _ (transmitCycle_of_equal ended recorded))⟩

/-! ### Powering on from off (R183, R189(b)) -/

section
variable (s : State)

theorem read_buildMotion_command : (buildMotion s).fb.read 4 = 0x21 := read_of_bytes (bytes_buildMotion s) (by decide)

theorem read_buildMotion_swing : (buildMotion s).fb.read 5 = (swingCode s.swc s.out.swing).setWidth 8 :=
  (read_of_bytes (bytes_buildMotion s) (by decide)).trans (joinNibbles_zero_left _)

theorem read_buildDefault_command : (buildDefault s).fb.read 4 = 0x01 := read_of_bytes (bytes_buildDefault s) (by decide)

end

/-- Settles O32: the modes differ, so step 1 sends and forces the swing, and step 2 sends unless the snapshot's swing was
vertical already. -/
theorem offToOnForcesVertical : Obligations.OffToOnForcesVertical := by
  intro s valid idle calls off on
  obtain ⟨step1, step2, ht⟩ := transmitCycle_of_ended (transmitCycle_ends idle calls)
  have differs : defaultDiffers s = true := defaultDiffers_iff.mpr (.inl (off ▸ on))
  have out : (defaultStep s).out = { s.out with swing := .vertical } := by
    rw [defaultStep_out step1, if_pos ⟨differs, off⟩]
  have swing : swingDiffers (defaultStep s) = true ↔ s.snap.swing ≠ .vertical := by
    rw [swingDiffers_iff, out, defaultStep_snap, ne_comm]
  have log := (motionStep_log (defaultStep s)).trans (congrArg (· ++ _) (defaultStep_log step1))
  simp only [differs, off, and_self, if_true] at log
  refine ⟨recordSnapshot (motionStep (defaultStep s)), (exec_transmitState valid).trans (congrArg _ ht), step2,
    (motionStep_out _).trans out, rfl, ?published, fun other => ?both, fun vertical => ?defaultOnly⟩
  case published =>
    rw [State.publog, recordSnapshot_log, log, recordSnapshot_out, motionStep_out]
    split_ifs <;> simp [State.publog]
  case both =>
    have sends := swing.mpr other
    obtain ⟨fb, -⟩ := motionStep_buffers sends
    rw [recordSnapshot_fb, fb, encodeFrame_fb, read_buildMotion_swing, out, (Leaves.defaultStep trivial s).swc]
    refine ⟨?_, read_buildMotion_command _, rfl⟩
    simp [State.txlog, log, sends]
  case defaultOnly =>
    have still : swingDiffers (defaultStep s) = false := Bool.eq_false_iff.mpr fun h => swing.mp h vertical
    obtain ⟨fb, -⟩ := defaultStep_buffers step1 differs
    rw [recordSnapshot_fb, motionStep_of_equal still, fb, encodeFrame_fb]
    refine ⟨?_, read_buildDefault_command s⟩
    rw [motionStep_of_equal still] at log
    simp [State.txlog, log, still]

end Sys2Proof.Machine
end

section
/-! PROOFS. The Frame Decoder and State Mapper (spec/44_frame_decoder.md): what MAP_FRAME and RECEIVE do, case by case
(R200 to R207, R209), what a received 0x01 or 0x21 frame sets (R206), that a built state is received back (R169, R208),
and which steps add a transmission to the log (R187, R205, R230). -/

namespace Sys2Proof.Machine

/-! ### MAP_FRAME, command by command (R200 to R204) -/

theorem exec_mapFrame_of_frame {s : State} (valid : s.cfg.valid = true) (held : s.flen ≠ 0) :
    exec .mapFrame s = .next (mapFrame s) := by
  rw [exec, execMapFrame, afterSetup_of_valid valid, if_neg held]

theorem exec_mapFrame_of_noFrame {s : State} (valid : s.cfg.valid = true) (empty : s.flen = 0) :
    exec .mapFrame s = .next (refuse s .noFrame) := by
  rw [exec, execMapFrame, afterSetup_of_valid valid, if_pos empty]

theorem mapFrame_motion {s : State} (command : s.fb.read 4 = Config.cmdMotion) : mapFrame s = publish (mapMotion s) :=
  congrArg publish (if_pos command)

theorem mapFrame_default {s : State} (command : s.fb.read 4 = Config.cmdDefault) :
    mapFrame s = publish (mapDefault s) := by
  have notMotion : s.fb.read 4 ≠ Config.cmdMotion := by rw [command]; decide
  rw [mapFrame, if_neg notMotion, if_pos command]

/-- The temperature of R202, with the field's byte shifted instead of its nibble extended. -/
theorem tempOfField_highNibble (p : Params) (b : Byte) :
    tempOfField p (highNibble b) = (b >>> 4) + BitVec.ofNat 8 p.tempMin := by
  rw [tempOfField, zext_highNibble]

/-- Settles O18: the low nibble is the byte cut to four bits. -/
theorem mapFrameMapsMotion : Obligations.MapFrameMapsMotion := by
  intro s valid held command
  rw [exec_mapFrame_of_frame valid held, mapFrame_motion command, mapMotion, lowNibble_eq_setWidth]
  rfl

/-- Settles O19: each nibble is the byte, shifted for the high one, cut to four bits. -/
theorem mapFrameMapsDefault : Obligations.MapFrameMapsDefault := by
  intro s valid held command
  rw [exec_mapFrame_of_frame valid held, mapFrame_default command, mapDefault, lowNibble_eq_setWidth,
    highNibble_eq_shift, tempOfField_highNibble]
  rfl

/-- Settles O20: any other command is only published, and without a frame the request is refused. -/
theorem mapFrameIgnoresOtherCommands : Obligations.MapFrameIgnoresOtherCommands :=
  ⟨fun _ valid held notMotion notDefault =>
    (exec_mapFrame_of_frame valid held).trans (congrArg _ (mapFrame_other notMotion notDefault)),
    fun _ valid empty => exec_mapFrame_of_noFrame valid empty⟩

/-- The high nibble of a byte is its sixteenth part. -/
theorem toNat_highNibble (b : Byte) : (highNibble b).toNat = b.toNat / 16 := by
  revert b; decide

/-- By R7(b) a decoded temperature does not wrap. -/
theorem tempOfField_toNat_of_wellFormed {p : Params} (wellFormed : p.wellFormed = true) (t : Nibble) :
    (tempOfField p t).toNat = t.toNat + p.tempMin := by
  obtain ⟨-, -, low, -⟩ := Params.bounds wellFormed
  exact tempOfField_toNat (by omega) t

/-- Settles O21: the field is four bits, and by R7(b) the sum does not wrap. -/
theorem decodedTemperatureIsNotClamped : Obligations.DecodedTemperatureIsNotClamped := by
  intro s wellFormed valid held command
  have temp : (mapFrame s).out.temp.toNat = s.params.tempMin + (s.fb.read 5).toNat / 16 := by
    rw [mapFrame_default command, ← toNat_highNibble, Nat.add_comm]
    exact tempOfField_toNat_of_wellFormed wellFormed _
  have field := (s.fb.read 5).isLt
  exact ⟨mapFrame s, exec_mapFrame_of_frame valid held, temp, by omega⟩

/-! ### RECEIVE as DECODE and MAP_FRAME (R204, R205) -/

theorem exec_receive {s : State} (valid : s.cfg.valid = true) : exec .receive s = .next (receive s) :=
  show execReceive s = _ from afterSetup_of_valid valid _

theorem receive_of_decoded {s : State} (h : (decodeCapture s).dstat.ok = true) :
    receive s = mapFrame (decodeCapture s) := if_pos h

theorem receive_of_failed {s : State} (h : (decodeCapture s).dstat.ok = false) : receive s = decodeCapture s :=
  if_neg (by simp [h])

/-- A successful DECODE leaves a frame, of at least six bytes. -/
theorem flen_ne_zero_of_decoded {s : State} (h : (decodeCapture s).dstat.ok = true) : (decodeCapture s).flen ≠ 0 := by
  obtain ⟨c, -, failed⟩ | ⟨l, h6, h14, -, -, decoded⟩ := decodeCapture_cases s
  · rw [failed] at h
    cases h
  · rw [decoded]
    intro zero
    have length : l = 0 := (toNat_ofNat_flen h14).symm.trans (congrArg BitVec.toNat zero)
    omega

theorem mapFrame_publog (s : State) : (mapFrame s).publog = s.publog ++ [(mapFrame s).out] := by
  rw [(mapFrame_frame s).1]
  simp [State.publog]

theorem mapFrame_txlog (s : State) : (mapFrame s).txlog = s.txlog := by
  rw [(mapFrame_frame s).1]
  simp [State.txlog]

theorem decodeCapture_log (s : State) : (decodeCapture s).log = s.log := by rw [decodeCapture_frame]

/-- Settles O22: the two outcomes of the decode; DECODE writes neither log, and MAP_FRAME of the two only `PUBLOG`. -/
theorem receiveIsDecodeThenMap : Obligations.ReceiveIsDecodeThenMap := by
  refine ⟨fun _ => rfl, fun s valid => ?_, fun s fresh => show execReceive s = _ from afterSetup_of_not_valid fresh _⟩
  have decodedValid : (decodeCapture s).cfg.valid = true := by rw [decodeCapture_frame]; exact valid
  have publog : (decodeCapture s).publog = s.publog := congrArg (List.filterMap _) (decodeCapture_log s)
  have txlog : (decodeCapture s).txlog = s.txlog := congrArg (List.filterMap _) (decodeCapture_log s)
  refine ⟨decodeCapture s, receive s, exec_decode valid, exec_receive valid, ?_⟩
  cases ok : (decodeCapture s).dstat.ok with
  | true =>
    rw [receive_of_decoded ok]
    refine ⟨fun _ => ⟨exec_mapFrame_of_frame decodedValid (flen_ne_zero_of_decoded ok), ?_⟩, nofun,
      mapFrame_dstat _, (mapFrame_txlog _).trans txlog⟩
    rw [mapFrame_publog, publog]
  | false =>
    obtain ⟨out, snap⟩ := decodeCapture_thermo s
    rw [receive_of_failed ok]
    exact ⟨nofun, fun _ => ⟨rfl, out, snap, decodeCapture_log s⟩, rfl, txlog⟩

/-! ### Received frames of the two mapped commands (R201, R202, R205, R206) -/

/-- Settles O25: the frame is decoded to its bytes and zeros, and its command is mapped as 0x01. -/
theorem receivedDefaultFrameSetsState : Obligations.ReceivedDefaultFrameSetsState := by
  intro s b wellFormed valid hb
  obtain ⟨fb, received, -, read, -⟩ :=
    receiveBytes_of_validFrame wellFormed valid (validFrame_frameBytes Config.cmdDefault b hb)
  rw [mapFrame_default (by exact read 4), mapDefault, lowNibble_eq_setWidth, highNibble_eq_shift,
    tempOfField_highNibble, read, read, length_frameBytes] at received
  exact ⟨_, received, rfl, rfl, rfl, rfl, toNat_ofNat_flen (by omega), read, rfl⟩

/-- Settles O26: the frame is decoded to its bytes and zeros, and its command is mapped as 0x21. -/
theorem receivedMotionFrameSetsSwing : Obligations.ReceivedMotionFrameSetsSwing := by
  intro s b wellFormed valid hb
  obtain ⟨fb, received, -, read, -⟩ :=
    receiveBytes_of_validFrame wellFormed valid (validFrame_frameBytes Config.cmdMotion b hb)
  rw [mapFrame_motion (by exact read 4), mapMotion, lowNibble_eq_setWidth, read, length_frameBytes] at received
  exact ⟨_, received, rfl, rfl, rfl, rfl, toNat_ofNat_flen (by omega), read, rfl⟩

/-! ### Any bytes through their train (R91, R205) -/

/-- A frame of bytes is received, whether the decoder of words rejects it or names an instruction. -/
theorem runWord_frame (bytes : List Byte) (s : State) : runWord (.frame bytes) s = receiveBytes bytes s := by
  unfold runWord
  split
  · next i named =>
    obtain ⟨c, b, -, rfl, rfl⟩ := frameBytes_of_decodeFrame named
    exact exec_frameOfCommand c b s
  · rfl

theorem receiveBytes_of_valid {s : State} (valid : s.cfg.valid = true) (bytes : List Byte) :
    receiveBytes bytes s = exec .receive (hostCapture s ((train bytes).map PulsePair.measured)) :=
  (if_pos valid).trans (exec_receive (s := hostCapture s _) valid).symm

/-- Settles O39: the step runs the word, which is received whether or not it is a valid frame. -/
theorem frameBytesAreReceivedThroughTheirTrain : Obligations.FrameBytesAreReceivedThroughTheirTrain := by
  intro s bytes rest wellFormed valid idle hport
  calc step s = runWord (.frame bytes) { s with port := rest } := step_of_idle wellFormed idle hport
    _ = receiveBytes bytes { s with port := rest } := runWord_frame bytes _
    _ = _ := receiveBytes_of_valid (by exact valid) bytes

/-! ### There and back (R169, R208) -/

/-- The Receiver captures the train in `PB` while the host holds `other`. -/
def capturedBack (e : State) (other : Thermo) : State :=
  { e with out := other, cap := (e.pb.take e.plen.toNat).map PulsePair.measured, cur := 0 }

/-- What MAP_FRAME is given when the frame that `b` holds was encoded and is received by a host that holds `other`. -/
structure ReceivedBack (b : State) (other : Thermo) (c : State) : Prop where
  params : c.params = b.params
  swc : c.swc = b.swc
  out : c.out = other
  snap : c.snap = b.snap
  dstat : c.dstat = Dstat.success
  read : ∀ a < b.flen.toNat, c.fb.read a = b.fb.read a

/-- Of an encoded valid frame RECEIVE maps the same bytes (R142, R205). -/
theorem exec_receive_capturedBack {b : State} (wellFormed : b.params.wellFormed = true) (valid : b.cfg.valid = true)
    (held : b.fb.holdsFrame b.flen.toNat) (other : Thermo) :
    ∃ c, ReceivedBack b other c ∧ exec .receive (capturedBack (encodeFrame b) other) = .next (mapFrame c) := by
  have ⟨_, h14, _⟩ := held
  have onAir : HoldsRepetition (capturedBack (encodeFrame b) other).cap 0 (b.fb.bytes b.flen.toNat) := by
    simp only [capturedBack, take_pb_encodeFrame h14]
    exact holdsRepetition_train _
  obtain ⟨fb, decoded, -, read, -⟩ :=
    decodeCapture_of_validFrame (s := capturedBack (encodeFrame b) other) wellFormed onAir (validFrame_bytes held)
  have received := receive_of_decoded (s := capturedBack (encodeFrame b) other) (by rw [decoded]; rfl)
  rw [decoded] at received
  refine ⟨_, ?_, (exec_receive (s := capturedBack (encodeFrame b) other) valid).trans (congrArg _ received)⟩
  exact ⟨rfl, rfl, rfl, rfl, rfl, fun a ha => (read a).trans (getD_bytes b.fb ha)⟩

/-- The codes of R7(c) there and back; an unrecognised mode is sent as auto (R161). -/
theorem modeOfCode_modeCode_of_any {c : ModeCodes} (distinct : c.toList.Nodup) (m : Mode) :
    modeOfCode c (modeCode c m) = if m = .unrecognised6 ∨ m = .unrecognised7 then .auto else m := by
  split
  · next unrecognised =>
    have sent : modeCode c m = modeCode c .auto := by obtain rfl | rfl := unrecognised <;> rfl
    rw [sent, modeOfCode_modeCode distinct rfl]
  · next recognised => exact modeOfCode_modeCode distinct (by simpa [Mode.recognised] using recognised)

/-- The codes of R7(d) there and back; an unrecognised fan speed is sent as auto (R162). -/
theorem fanOfCode_fanCode_of_any {c : FanCodes} (distinct : c.toList.Nodup) (f : Fan) :
    fanOfCode c (fanCode c f) = if f = .unrecognised7 then .auto else f := by
  split
  · next unrecognised =>
    have sent : fanCode c f = fanCode c .auto := by rw [unrecognised]; rfl
    rw [sent, fanOfCode_fanCode distinct rfl]
  · next recognised => exact fanOfCode_fanCode distinct (by simpa [Fan.recognised] using recognised)

/-- The codes of R7(e) there and back; an unrecognised swing is sent as vertical (R167). -/
theorem swingOfCode_swingCode_of_any {c : SwingCodes} (distinct : c.toList.Nodup) (w : Swing) :
    swingOfCode c (swingCode c w) = if w ∈ [Swing.off, .vertical, .horizontal, .both] then w else .vertical := by
  split
  · next recognised => exact swingOfCode_swingCode distinct (by simpa [Swing.recognised, or_assoc] using recognised)
  · next unrecognised =>
    have sent : swingCode c w = swingCode c .vertical := by
      cases w with
      | unrecognised4 | unrecognised5 | unrecognised6 | unrecognised7 => rfl
      | _ => simp at unrecognised
    rw [sent, swingOfCode_swingCode distinct rfl]

theorem clamp_eq_max_min {v lo hi : Nat} (bounds : lo ≤ hi) : clamp v lo hi = max lo (min v hi) := by
  unfold clamp
  split_ifs <;> omega

/-- The temperature there and back: 22 for fan-only (R164), else the clamped request (R163). -/
theorem toNat_tempOfField_temperatureOf {p : Params} (wellFormed : p.wellFormed = true) (mode : Mode) (temp : Byte) :
    (tempOfField p (temperatureOf p mode temp)).toNat =
      if mode = .fanOnly then 22 else max p.tempMin (min temp.toNat p.tempMax) := by
  obtain ⟨bounds, -, low, -⟩ := Params.bounds wellFormed
  rw [tempOfField_toNat_of_wellFormed wellFormed]
  split
  · next fanOnly =>
    rw [fanOnly, toNat_temperatureOf_fanOnly wellFormed]
    omega
  · next other =>
    have inside := (clamp_bounds (v := temp.toNat) bounds).1
    rw [toNat_temperatureOf_of_ne_fanOnly wellFormed other, ← clamp_eq_max_min bounds]
    omega

/-- Settles O28: the received bytes are the built ones, and each field is mapped back from the code it was sent as. -/
theorem builtStateIsReceivedBack : Obligations.BuiltStateIsReceivedBack := by
  intro s b e other wellFormed valid built encoded
  cases (exec_buildDefault valid).symm.trans built
  cases (execEncode_buildDefault valid).symm.trans encoded
  obtain ⟨c, back, received⟩ :=
    exec_receive_capturedBack (b := buildDefault s) wellFormed valid (holdsFrame_buildDefault s) other
  have read (a : Nat) (ha : a < 9) : c.fb.read a = _ :=
    (back.read a ha).trans (read_of_bytes (bytes_buildDefault s) (show a < 14 by omega))
  have field : highNibble (c.fb.read 5) = temperatureOf s.params s.out.mode s.out.temp := by
    rw [read 5 (by decide)]
    exact highNibble_joinNibbles _ _
  have fan : highNibble (c.fb.read 6) = fanCode s.params.fanCode s.out.fan := by
    rw [read 6 (by decide)]
    exact highNibble_joinNibbles _ _
  have mode : lowNibble (c.fb.read 6) = modeCode s.params.modeCode s.out.mode := by
    rw [read 6 (by decide)]
    exact lowNibble_joinNibbles _ _
  rw [mapFrame_default (read 4 (by decide)), mapDefault, field, fan, mode, back.params, back.out, back.snap] at received
  exact ⟨_, received, back.dstat, modeOfCode_modeCode_of_any (Params.modes_nodup wellFormed) _,
    fanOfCode_fanCode_of_any (Params.fans_nodup wellFormed) _, toNat_tempOfField_temperatureOf wellFormed _ _, rfl, rfl⟩

/-- Settles O57: the received swing byte is the built one, and `SWC` holds the distinct codes of a variant. -/
theorem builtSwingIsReceivedBack : Obligations.BuiltSwingIsReceivedBack := by
  intro s b e other wellFormed valid resolved built encoded
  cases (exec_buildMotion valid).symm.trans built
  cases (execEncode_buildMotion valid).symm.trans encoded
  obtain ⟨c, back, received⟩ :=
    exec_receive_capturedBack (b := buildMotion s) wellFormed valid (holdsFrame_buildMotion s) other
  have read (a : Nat) (ha : a < 7) : c.fb.read a = _ :=
    (back.read a ha).trans (read_of_bytes (bytes_buildMotion s) (show a < 14 by omega))
  have code : lowNibble (c.fb.read 5) = swingCode s.swc s.out.swing := by
    rw [read 5 (by decide)]
    exact lowNibble_joinNibbles _ _
  have distinct : s.swc.toList.Nodup := Params.swings_nodup wellFormed (List.mem_of_getElem? (resolved valid))
  rw [mapFrame_motion (read 4 (by decide)), mapMotion, code, back.swc, back.out, back.snap, buildMotion_swc,
    swingOfCode_swingCode_of_any distinct] at received
  exact ⟨_, received, back.dstat, rfl, rfl⟩

/-! ### What the mapping writes (R209) -/

/-- Of `v`, each of mode, fan and swing is as in `u` or recognised. -/
structure RecognisedUpdate (u v : Thermo) : Prop where
  mode : v.mode = u.mode ∨ v.mode.recognised = true
  fan : v.fan = u.fan ∨ v.fan.recognised = true
  swing : v.swing = u.swing ∨ v.swing.recognised = true

theorem RecognisedUpdate.refl (u : Thermo) : RecognisedUpdate u u := ⟨.inl rfl, .inl rfl, .inl rfl⟩

theorem recognisedUpdate_mapFrame (s : State) :
    RecognisedUpdate s.out (mapFrame s).out ∧ RecognisedUpdate s.snap (mapFrame s).snap := by
  by_cases motion : s.fb.read 4 = Config.cmdMotion
  · rw [mapFrame_motion motion]
    have swing := swingOfCode_recognised s.swc (lowNibble (s.fb.read 5))
    exact ⟨⟨.inl rfl, .inl rfl, .inr swing⟩, ⟨.inl rfl, .inl rfl, .inr swing⟩⟩
  by_cases default : s.fb.read 4 = Config.cmdDefault
  · rw [mapFrame_default default]
    have mode := modeOfCode_recognised s.params.modeCode (lowNibble (s.fb.read 6))
    have fan := fanOfCode_recognised s.params.fanCode (highNibble (s.fb.read 6))
    exact ⟨⟨.inr mode, .inr fan, .inl rfl⟩, ⟨.inr mode, .inr fan, .inl rfl⟩⟩
  · rw [mapFrame_other motion default]
    exact ⟨.refl _, .refl _⟩

theorem recognisedUpdate_receive (s : State) :
    RecognisedUpdate s.out (receive s).out ∧ RecognisedUpdate s.snap (receive s).snap := by
  obtain ⟨out, snap⟩ := decodeCapture_thermo s
  cases ok : (decodeCapture s).dstat.ok with
  | true =>
    rw [receive_of_decoded ok, ← out, ← snap]
    exact recognisedUpdate_mapFrame _
  | false =>
    rw [receive_of_failed ok, out, snap]
    exact ⟨.refl _, .refl _⟩

/-- What an update changes is one of the named values of R11. -/
theorem RecognisedUpdate.of_ne {u v : Thermo} (h : RecognisedUpdate u v) :
    (v.mode ≠ u.mode → v.mode ≠ .unrecognised6 ∧ v.mode ≠ .unrecognised7) ∧
    (v.fan ≠ u.fan → v.fan ≠ .unrecognised7) ∧
    (v.swing ≠ u.swing → v.swing ∈ [Swing.off, .vertical, .horizontal, .both]) :=
  ⟨fun changed => by simpa [Mode.recognised] using h.mode.resolve_left changed,
    fun changed => by simpa [Fan.recognised] using h.fan.resolve_left changed,
    fun changed => by simpa [Swing.recognised, or_assoc] using h.swing.resolve_left changed⟩

/-- Settles O55: after SETUP, MAP_FRAME is refused or maps, and RECEIVE maps or leaves both as they are. -/
theorem mappingWritesRecognisedValues : Obligations.MappingWritesRecognisedValues := by
  intro s t valid h
  have update : RecognisedUpdate s.out t.out ∧ RecognisedUpdate s.snap t.snap := by
    obtain mapped | received := h
    · by_cases empty : s.flen = 0
      · cases (exec_mapFrame_of_noFrame valid empty).symm.trans mapped
        exact ⟨.refl _, .refl _⟩
      · cases (exec_mapFrame_of_frame valid empty).symm.trans mapped
        exact recognisedUpdate_mapFrame s
    · cases (exec_receive valid).symm.trans received
      exact recognisedUpdate_receive s
  obtain ⟨outMode, outFan, outSwing⟩ := update.1.of_ne
  exact ⟨outMode, outFan, outSwing, update.2.of_ne⟩

/-! ### What a step adds to the logs (R187, R205, R230) -/

/-- The moves that can transmit: the request TRANSMIT_STATE, and a move of the Transmitter while a cycle waits. -/
def MayTransmit (s : State) (m : HostMove) : Prop :=
  (∃ w, m = .word w ∧ decode w = .ok .transmitState) ∨ (s.waiting ≠ none ∧ ∃ calls, m = .transmitter calls)

/-- The log only grows, by at most three events, transmissions at 38 kHz among them only if `may`. -/
def LogGrows (may : Prop) (s t : State) : Prop :=
  ∃ added, t.log = s.log ++ added ∧ added.length ≤ 3 ∧ ∀ x, Event.transmit x ∈ added → x.hz = 38000 ∧ may

section
variable {may : Prop} {s t : State}

theorem logGrows_of_log_eq (h : t.log = s.log) : LogGrows may s t := ⟨[], by simp [h], by simp, by simp⟩

theorem Leaves.logGrows {n : Nat} (h : Leaves n may s t) (hn : n ≤ 3) : LogGrows may s t := (h.mono hn).log

theorem LogGrows.imp {may' : Prop} (h : LogGrows may s t) (himp : may → may') : LogGrows may' s t :=
  Exists.imp (fun _ ⟨grown, short, sent⟩ => ⟨grown, short, fun x hx => (sent x hx).imp_right himp⟩) h

theorem exec_logGrows {i : Instr} (h : exec i s = .next t) : LogGrows (i = .transmitState) s t := by
  by_cases hi : ∃ v, i = .setup v
  · obtain ⟨v, rfl⟩ := hi
    obtain ⟨why, rfl⟩ | ⟨-, codes, -, rfl⟩ := execSetup_cases h <;> exact logGrows_of_log_eq rfl
  · exact (exec_leaves h (not_exists.mp hi)).logGrows le_rfl

end

/-- A move other than RESET only adds to the log. -/
theorem moveEffect_logGrows {m : HostMove} {s t : State} (hm : MoveEffect s m t) :
    m = .reset ∨ (∃ op, m = .resetDuring op) ∨ LogGrows (MayTransmit s m) s t := by
  cases hm with
  | executed _ hd he => exact .inr (.inr ((exec_logGrows he).imp fun hi => .inl ⟨_, rfl, hi ▸ hd⟩))
  | received _ ht => exact .inr (.inr ((Leaves.receiveBytes ht).logGrows (by decide)))
  | @cycleResumed call calls waits =>
    have resumed := Leaves.resumeCycle trivial call { s with txCalls := calls }
    have grown : LogGrows True s _ := resumed.logGrows (by decide)
    exact .inr (.inr (grown.imp fun _ => .inr ⟨by simp [waits], calls, rfl⟩))
  | reset => exact .inl rfl
  | resetDuring _ => exact .inr (.inl ⟨_, rfl⟩)
  | cycleAbandoned _ => exact .inr (.inl ⟨_, rfl⟩)
  | _ => exact .inr (.inr (logGrows_of_log_eq rfl))

/-- Settles O56: the move that was taken is RESET or only adds to the log, and it transmits only if it is one of the two
moves of `MayTransmit`. -/
theorem onlyTransmitStateTransmits : Obligations.OnlyTransmitStateTransmits := by
  intro s t hs
  obtain ⟨-, rfl⟩ | ⟨m, rest, hport, hm⟩ := step_cases hs
  · exact .inr (logGrows_of_log_eq rfl)
  · obtain rfl | ⟨op, rfl⟩ | grown := moveEffect_logGrows hm
    · exact .inl ⟨rest, .inl hport⟩
    · exact .inl ⟨rest, .inr ⟨op, hport⟩⟩
    · refine .inr (grown.imp fun may => ?_)
      obtain ⟨w, rfl, hd⟩ | ⟨waits, calls, rfl⟩ := may
      · exact .inl ⟨w, rest, hport, hd⟩
      · exact .inr ⟨waits, calls, rest, hport⟩

end Sys2Proof.Machine
end

section
/-! PROOFS. The external interfaces (spec/45_external_interfaces.md): what SETUP answers, case by case (R228), what asking
the Receiver for a symbol consumes (R222), and which instruction a step runs (R226). -/

namespace Sys2Proof.Machine

/-! ### SETUP (R228, R255) -/

theorem exec_setup_of_variant {s : State} {v : Nat} {codes : SwingCodes} (fresh : s.cfg.valid = false)
    (named : s.params.swingCodes[v]? = some codes) :
    exec (.setup v) s = .next { s with cfg := { valid := true, variant := v }, swc := codes } := by
  simp [exec, execSetup, fresh, named]

theorem exec_setup_of_valid {s : State} {v : Nat} (valid : s.cfg.valid = true) :
    exec (.setup v) s = .next (refuse s .alreadySetUp) :=
  if_pos valid

theorem exec_setup_of_no_variant {s : State} {v : Nat} (fresh : s.cfg.valid = false)
    (outside : s.params.swingCodes.length ≤ v) : exec (.setup v) s = .next (refuse s .noSuchVariant) := by
  simp [exec, execSetup, fresh, List.getElem?_eq_none outside]

/-- Settles O1: `CFG.valid`, and then whether the variant has codes, decides between the three outcomes. -/
theorem setupResolvesVariantOnce : Obligations.SetupResolvesVariantOnce :=
  ⟨fun _ => rfl, fun _ _ _ => exec_setup_of_variant, fun _ _ => exec_setup_of_valid, fun _ _ => exec_setup_of_no_variant⟩

/-! ### Asking for a symbol (R222) -/

theorem askFor_of_pairNear {s : State} {symbol : PulsePair}
    (matched : pairNear s.params s.cap s.cur symbol.mark.toNat symbol.space.toNat = true) :
    askFor symbol s = { s with cur := s.cur + 1 } := by
  rw [askFor, matchPair_eq, if_pos matched, Option.getD_some]

theorem askFor_of_not_pairNear {s : State} {symbol : PulsePair}
    (unmatched : ¬ pairNear s.params s.cap s.cur symbol.mark.toNat symbol.space.toNat = true) :
    askFor symbol s = s := by
  rw [askFor, matchPair_eq, if_neg unmatched, Option.getD_none]

/-- A pair of the capture is not near (mark, space) as soon as one of its durations is not. -/
theorem not_pairNear_of_not_near {p : Params} {cap : List MeasuredPair} {k m w : Nat} {c : MeasuredPair}
    (hc : cap[k]? = some c) (far : near p c.mark m = false ∨ near p c.space w = false) :
    ¬ pairNear p cap k m w = true := by
  rw [pairNear_iff]
  rintro ⟨d, hd, mark, space⟩
  obtain rfl : c = d := Option.some.inj (hc.symm.trans hd)
  obtain far | far := far
  · exact absurd mark (by simp [far])
  · exact absurd space (by simp [far])

/-- The instruction that names a symbol asks for the durations of R87. -/
theorem exec_symbol_asks {i : Instr} {m w : Nat}
    (h : (i, m, w) ∈ [(Instr.hdr, 4380, 4370), (.bit0, 540, 540), (.bit1, 540, 1620), (.trail, 540, 5480)]) :
    ∃ symbol : PulsePair, symbol.mark.toNat = m ∧ symbol.space.toNat = w ∧
      ∀ s, exec i s = .next (askFor symbol s) := by
  simp only [List.mem_cons, Prod.mk.injEq, List.not_mem_nil, or_false] at h
  obtain ⟨rfl, rfl, rfl⟩ | ⟨rfl, rfl, rfl⟩ | ⟨rfl, rfl, rfl⟩ | ⟨rfl, rfl, rfl⟩ := h
  · exact ⟨symbolHdr, rfl, rfl, fun _ => rfl⟩
  · exact ⟨symbolBit0, rfl, rfl, fun _ => rfl⟩
  · exact ⟨symbolBit1, rfl, rfl, fun _ => rfl⟩
  · exact ⟨symbolTrail, rfl, rfl, fun _ => rfl⟩

/-- Settles O14: the four instructions ask alike, and the pair at the cursor is consumed iff it is near. -/
theorem symbolConsumesOneMatchingPair : Obligations.SymbolConsumesOneMatchingPair := by
  intro s i m w h
  obtain ⟨symbol, rfl, rfl, asks⟩ := exec_symbol_asks h
  rw [asks s]
  refine ⟨fun c hc mark space => ?_, fun c hc far => ?_, fun exhausted => ?_⟩
  · rw [askFor_of_pairNear (pairNear_iff.mpr ⟨c, hc, mark, space⟩)]
  · rw [askFor_of_not_pairNear (not_pairNear_of_not_near hc far)]
  · rw [askFor_of_not_pairNear fun matched => absurd (lt_length_of_pairNear matched) (Nat.not_lt.mpr exhausted)]

/-! ### The instruction that a step runs (R226) -/

theorem runWord_of_decode {w : PortWord} {i : Instr} (named : decode w = .ok i) (s : State) :
    runWord w s = exec i s := by
  rw [runWord, named]

/-- Settles O38: the step runs the word, and the word its instruction. -/
theorem stepRunsTheDecodedInstruction : Obligations.StepRunsTheDecodedInstruction := by
  intro s w rest i wellFormed idle hport named
  calc step s = runWord w { s with port := rest } := step_of_idle wellFormed idle hport
    _ = exec i { s with port := rest } := runWord_of_decode named _

end Sys2Proof.Machine
end

section
/-! PROOFS. The exceptions (spec/60_exceptions.md): which requests are refused (R255, R277), what a failed decode or
reception leaves (R249, R250), that one flipped bit is found by the checksum that covers it (R242, R244), and that every
step answers, only a transmit cycle beginning to wait (R252, R254, R282). -/

namespace Sys2Proof.Machine

/-! ### Refused requests (R255, R277) -/

/-- Settles O2: each of the five answers a refusal. -/
theorem reservedOpCompletesChangingNothing : Obligations.ReservedOpCompletesChangingNothing := by
  intro s i h
  simp only [List.mem_cons, List.not_mem_nil, or_false] at h
  obtain rfl | rfl | rfl | rfl | rfl := h <;> rfl

/-- The ten operations other than SETUP are those that `afterSetup` guards. -/
theorem exec_eq_afterSetup {i : Instr}
    (h : i ∈ [Instr.validateHeader, .buildDefault, .buildMotion, .encode, .decode, .mapFrame, .transmitState,
        .receive] ∨ (∃ dl, i = .finalize dl) ∨ (∃ len, i = .validatePayload len)) (s : State) :
    ∃ f, exec i s = afterSetup s f := by
  simp only [List.mem_cons, List.not_mem_nil, or_false] at h
  obtain (rfl | rfl | rfl | rfl | rfl | rfl | rfl | rfl) | ⟨dl, rfl⟩ | ⟨len, rfl⟩ := h <;>
    simp only [exec, execValidateHeader, execBuildDefault, execBuildMotion, execEncode, execDecode, execMapFrame,
      execTransmitState, execReceive, execFinalize, execValidatePayload] <;>
    exact ⟨_, rfl⟩

/-- Settles O3: the guard the ten operations share refuses them. -/
theorem operationsRefusedBeforeSetup : Obligations.OperationsRefusedBeforeSetup := by
  intro s i fresh operation
  obtain ⟨f, guarded⟩ := exec_eq_afterSetup operation s
  exact guarded.trans (afterSetup_of_not_valid fresh f)

/-- An instruction of format FRAME is the reception of the bytes that encode it. -/
theorem exec_of_encode_frame {i : Instr} {bytes : List Byte} (h : encode i = .frame bytes) (s : State) :
    exec i s = receiveBytes bytes s := by
  cases i with
  | defaultFrame b | motionFrame b | timerFrame b | powerFrame b | comfortSleepFrame b | otherFrame c b =>
    cases h
    rfl
  | _ => cases h

theorem receiveBytes_of_not_valid {s : State} (fresh : s.cfg.valid = false) (bytes : List Byte) :
    receiveBytes bytes s = .next (refuse (hostCapture s ((train bytes).map PulsePair.measured)) .notSetUp) :=
  if_neg (by simp [fresh])

/-- Settles O29: the Receiver is given the capture before the request to receive it is refused. -/
theorem receivedFrameIsRefusedBeforeSetup : Obligations.ReceivedFrameIsRefusedBeforeSetup :=
  fun s _ bytes fresh frame => (exec_of_encode_frame frame s).trans (receiveBytes_of_not_valid fresh bytes)

/-! ### Failed decodes and receptions (R249, R250) -/

/-- A decode that reports a failure raised its cause. -/
theorem decodeCapture_failed {s : State} (failed : (decodeCapture s).dstat.ok = false) :
    (decodeCapture s).dstat.cause ≠ .none ∧ s.FailedFrom (decodeCapture s).dstat.cause (decodeCapture s) := by
  obtain ⟨c, cause, raised⟩ | ⟨l, -, -, -, -, decoded⟩ := decodeCapture_cases s
  · have reported : (decodeCapture s).dstat.cause = c := by rw [raised]; rfl
    rw [reported]
    exact ⟨cause, failedFrom_of_eq_raise raised⟩
  · rw [decoded] at failed
    cases failed

/-- The mapping keeps the status of the decode (R31, R205). -/
theorem receive_dstat (s : State) : (receive s).dstat = (decodeCapture s).dstat := by
  cases ok : (decodeCapture s).dstat.ok with
  | true => rw [receive_of_decoded ok, mapFrame_dstat]
  | false => rw [receive_of_failed ok]

/-- Settles O23: a reception that fails is its decode, and that raised a cause. -/
theorem failedDecodePublishesNothing : Obligations.FailedDecodePublishesNothing := by
  intro s t valid answered failed
  obtain decoded | received := answered
  · cases (exec_decode valid).symm.trans decoded
    exact decodeCapture_failed failed
  · cases (exec_receive valid).symm.trans received
    rw [receive_dstat] at failed
    rw [receive_of_failed failed]
    exact decodeCapture_failed failed

/-! ### A flipped bit (R115, R242, R244) -/

/-- The bytes with bit `k` of byte `a` flipped. -/
def flipBit (bytes : List Byte) (a k : Nat) : List Byte :=
  bytes.set a (bytes.getD a 0 ^^^ BitVec.twoPow 8 k)

@[simp] theorem length_flipBit (bytes : List Byte) (a k : Nat) : (flipBit bytes a k).length = bytes.length :=
  List.length_set

theorem getD_flipBit_same {bytes : List Byte} {a : Nat} (ha : a < bytes.length) (k : Nat) :
    (flipBit bytes a k).getD a 0 = bytes.getD a 0 ^^^ BitVec.twoPow 8 k := by
  rw [flipBit, List.getD_eq_getElem?_getD, List.getElem?_set_self ha, Option.getD_some]

theorem getD_flipBit_other (bytes : List Byte) {a i : Nat} (h : i ≠ a) (k : Nat) :
    (flipBit bytes a k).getD i 0 = bytes.getD i 0 := by
  rw [flipBit, List.getD_eq_getElem?_getD, List.getElem?_set_ne h.symm, ← List.getD_eq_getElem?_getD]

/-- A checksum behind the `n` bytes it covers is right exactly when all of them together sum to 0x00. -/
theorem checksum_iff_xorAll_eq_zero (f : Nat → Byte) (a n : Nat) :
    f (a + n) = xorAll ((List.range' a n).map f) ↔ xorAll ((List.range' a (n + 1)).map f) = 0 := by
  have last : xorAll [f (a + n)] = f (a + n) := BitVec.zero_xor
  rw [List.range'_concat, List.map_append, xorAll_append, Nat.one_mul, List.map_singleton, last]
  exact eq_comm.trans BitVec.xor_eq_zero_iff.symm

/-- One flipped bit in the covered bytes or in the checksum makes it wrong (R115). -/
theorem checksum_ne_of_flipBit {bytes : List Byte} {start n a k : Nat} (ha : a < bytes.length) (hk : k < 8)
    (covered : a ∈ List.range' start (n + 1))
    (right : bytes.getD (start + n) 0 = xorAll ((List.range' start n).map fun i => bytes.getD i 0)) :
    (flipBit bytes a k).getD (start + n) 0 ≠
      xorAll ((List.range' start n).map fun i => (flipBit bytes a k).getD i 0) := by
  intro still
  have before := (checksum_iff_xorAll_eq_zero (fun i => bytes.getD i 0) start n).mp right
  have after := (checksum_iff_xorAll_eq_zero (fun i => (flipBit bytes a k).getD i 0) start n).mp still
  exact xorAll_map_ne_of_bit_flip List.nodup_range' covered hk (getD_flipBit_same ha k)
    (fun _ h => getD_flipBit_other bytes h k) (before.trans after.symm)

/-- `checksum_1` is the sum of the three bytes before it (R74). -/
theorem xorAll_first_three (f : Nat → Byte) : xorAll ((List.range' 0 3).map f) = f 0 ^^^ f 1 ^^^ f 2 := by
  simp [List.range', xorAll]

/-! ### Bytes on the air that fail a checksum (R242, R244) -/

section
variable {s : State} {bytes : List Byte} (wellFormed : s.params.wellFormed = true)
  (onAir : HoldsRepetition s.cap s.cur bytes)
include wellFormed onAir

/-- R242: four bytes are read before `checksum_1` is compared. -/
theorem decodeCapture_of_wrong_headerSum (length : 4 ≤ bytes.length)
    (wrong : bytes.getD 3 0 ≠ bytes.getD 0 0 ^^^ bytes.getD 1 0 ^^^ bytes.getD 2 0) :
    decodeCapture s = raise s .headerSum := by
  have byte (i : Nat) (hi : i < 4) := frameByte_of_repetition wellFormed onAir (show i < bytes.length by omega)
  refine decodeCapture_headerSum (headerAtCursor_of_repetition onAir)
    (bitsReadable_of_repetition wellFormed onAir (by omega)) ?_
  rwa [byte 0 (by decide), byte 1 (by decide), byte 2 (by decide), byte 3 (by decide)]

/-- R244: with the header and the length right, all bytes are read before `checksum_2` is compared. -/
theorem decodeCapture_of_wrong_payloadSum {n : Nat} (length : bytes.length = 6 + n) (short : n ≤ 8)
    (stated : (bytes.getD 2 0).toNat = n)
    (right : bytes.getD 3 0 = bytes.getD 0 0 ^^^ bytes.getD 1 0 ^^^ bytes.getD 2 0)
    (wrong : bytes.getD (4 + (n + 1)) 0 ≠ xorAll ((List.range' 4 (n + 1)).map fun i => bytes.getD i 0)) :
    decodeCapture s = raise s .payloadSum := by
  have byte (i : Nat) (hi : i < 6 + n) := frameByte_of_repetition wellFormed onAir (show i < bytes.length by omega)
  have read : (s.frameByte 2).toNat = n := by rw [byte 2 (by omega), stated]
  refine decodeCapture_payloadSum (headerAtCursor_of_repetition onAir) ?header (by omega)
    (bitsReadable_of_repetition wellFormed onAir (by omega)) ?payload
  case header => rwa [byte 0 (by omega), byte 1 (by omega), byte 2 (by omega), byte 3 (by omega)]
  case payload =>
    rwa [read, show 5 + n = 4 + (n + 1) by omega, byte _ (by omega),
      frameXor_of_repetition wellFormed onAir (by omega)]

end

/-- A flip in the first four bytes is found by `checksum_1`, any other by `checksum_2`: the bytes that the first
covers, the length among them, are then as they were. -/
theorem decodeCapture_of_flipBit {s : State} {bytes : List Byte} {a k : Nat} (wellFormed : s.params.wellFormed = true)
    (onAir : HoldsRepetition s.cap s.cur (flipBit bytes a k)) (frame : ValidFrame bytes) (ha : a < bytes.length)
    (hk : k < 8) : decodeCapture s = raise s (if a < 4 then .headerSum else .payloadSum) := by
  obtain ⟨length, short, header, payload⟩ := frame
  have sameLength : (flipBit bytes a k).length = 6 + (bytes.getD 2 0).toNat := (length_flipBit ..).trans length
  split
  · next front =>
    refine decodeCapture_of_wrong_headerSum wellFormed onAir (by omega) ?_
    rw [← xorAll_first_three fun i => bytes.getD i 0] at header
    rw [← xorAll_first_three fun i => (flipBit bytes a k).getD i 0]
    exact checksum_ne_of_flipBit (start := 0) (n := 3) ha hk (List.mem_range'_1.mpr (by omega)) header
  · next behind =>
    have kept (i : Nat) (hi : i < 4) : (flipBit bytes a k).getD i 0 = bytes.getD i 0 :=
      getD_flipBit_other bytes (by omega) k
    rw [show bytes.length - 1 = 4 + ((bytes.getD 2 0).toNat + 1) by omega,
      show bytes.length - 5 = (bytes.getD 2 0).toNat + 1 by omega] at payload
    refine decodeCapture_of_wrong_payloadSum wellFormed onAir sameLength short (by rw [kept 2 (by decide)]) ?_
      (checksum_ne_of_flipBit ha hk (List.mem_range'_1.mpr (by omega)) payload)
    rwa [kept 0 (by decide), kept 1 (by decide), kept 2 (by decide), kept 3 (by decide)]

theorem receive_of_raise {s : State} {c : Cause} (raised : decodeCapture s = raise s c) : receive s = raise s c :=
  (receive_of_failed (by rw [raised]; rfl)).trans raised

/-- Settles O24: the capture holds the flipped frame, and the decode of it raises the cause. -/
theorem corruptedFrameIsRejectedAtItsStage : Obligations.CorruptedFrameIsRejectedAtItsStage := by
  intro s bytes i a k wellFormed valid named ha hk bad captured
  obtain ⟨c, b, hb, rfl, -⟩ := frameBytes_of_decodeFrame named
  have raised := receive_of_raise (decodeCapture_of_flipBit (s := captured) wellFormed (holdsRepetition_train bad)
    (validFrame_frameBytes c b hb) ha hk)
  refine ⟨receive captured, exec_receive (s := captured) valid, fun front => ?_, fun behind => ?_⟩
  · rw [if_pos front] at raised
    exact failedFrom_of_eq_raise raised
  · rw [if_neg (Nat.not_lt.mpr behind)] at raised
    exact failedFrom_of_eq_raise raised

/-! ### Every step answers (R252, R254) -/

theorem receiveBytes_completes (bytes : List Byte) (s : State) : ∃ t, receiveBytes bytes s = .next t := by
  cases valid : s.cfg.valid with
  | true => exact ⟨_, (receiveBytes_of_valid valid bytes).trans (exec_receive (s := hostCapture s _) valid)⟩
  | false => exact ⟨_, receiveBytes_of_not_valid valid bytes⟩

/-- A word that is no instruction is received as a frame, or refused. -/
theorem runRejected_completes (w : PortWord) (s : State) : ∃ t, runRejected w s = .next t := by
  cases w with
  | frame bytes => exact receiveBytes_completes bytes s
  | pulse pair => exact ⟨_, rfl⟩
  | request op operand => exact ⟨_, rfl⟩

theorem runWord_completes (w : PortWord) (s : State) : ∃ t, runWord w s = .next t := by
  unfold runWord
  split
  · exact exec_completes _ s
  · exact runRejected_completes w s

theorem runMove_completes (m : HostMove) (s : State) : ∃ t, runMove m s = .next t := by
  unfold runMove
  split
  · cases m with
    | word w => exact runWord_completes w s
    | _ => exact ⟨_, rfl⟩
  · exact ⟨_, rfl⟩

theorem step_completes {s : State} (wellFormed : s.params.wellFormed = true) : ∃ t, step s = .next t := by
  rw [step_of_wellFormed wellFormed]
  unfold runNext
  split
  · exact ⟨_, rfl⟩
  · exact runMove_completes _ _

/-! ### What begins to wait (R282) -/

theorem resetDuring_waiting (s : State) (op : BitVec 4) : (resetDuring s op).waiting = none := by
  unfold resetDuring
  split <;> rfl

/-- Of the moves only the request of a transmit cycle begins a wait. -/
theorem moveEffect_waits {m : HostMove} {s t : State} (hm : MoveEffect s m t) (idle : s.waiting = none)
    (waits : t.waiting ≠ none) :
    (∃ w, m = .word w ∧ decode w = .ok .transmitState) ∧ s.cfg.valid = true ∧
      t = afterDefaultStep (defaultStep s) := by
  cases hm with
  | executed _ named answered =>
    obtain ⟨rfl, valid, cycle⟩ := exec_waits answered idle waits
    exact ⟨⟨_, rfl, named⟩, valid, cycle⟩
  | received _ answered =>
    have kept := (Leaves.receiveBytes (may := False) answered).calls.resolve_left id
    exact absurd (kept.2.trans idle) waits
  | resetDuring _ => exact absurd (resetDuring_waiting s _) waits
  | cycleResumed call => simp [idle] at call
  | reset => exact absurd rfl waits
  | cycleAbandoned _ => exact absurd rfl waits
  | _ => exact absurd idle waits

/-- Settles O41: every move is answered, and of a cycle that has begun to wait `transmitCycle_waits` says the rest. -/
theorem everyStepCompletesUnlessTransmitterBlocks : Obligations.EveryStepCompletesUnlessTransmitterBlocks := by
  intro s wellFormed
  obtain ⟨t, answered⟩ := step_completes wellFormed
  refine ⟨t, answered, fun idle waits => ?_⟩
  obtain ⟨-, rfl⟩ | ⟨m, rest, hport, hm⟩ := step_cases answered
  · exact absurd idle waits
  · obtain ⟨⟨w, rfl, named⟩, valid, rfl⟩ := moveEffect_waits hm idle waits
    obtain ⟨differs, few, stopped, kept⟩ := transmitCycle_waits (s := { s with port := rest }) idle waits
    refine ⟨valid, differs, fun calls => ?_, stopped, kept, w, rest, hport, named⟩
    obtain zero | one := few
    · exact absurd (calls 0 zero) (by decide)
    · exact absurd (calls 1 one) (by decide)

end Sys2Proof.Machine
end

section
/-! PROOFS. Reset and hazards (spec/70_reset_and_hazards.md): what RESET leaves, between operations and during one (R270),
and a cycle that waits in a `Transmit`: how it comes to wait, that nothing but the Transmitter or RESET ends the wait, and
that once the Transmitter completes its calls it ends as if it had not waited (R280, R282). -/

namespace Sys2Proof.Machine

/-! ### RESET (R270) -/

/-- While a cycle waits a step takes the first move and runs it in the wait. -/
theorem step_of_waiting {s : State} {call : TransmitCall} {m : HostMove} {rest : List HostMove}
    (wellFormed : s.params.wellFormed = true) (waits : s.waiting = some call) (hport : s.port = m :: rest) :
    step s = .next (runWaiting call m { s with port := rest }) := by
  simp only [step_of_wellFormed wellFormed, runNext, hport, runMove, waits]

/-- RESET between two steps resets the block whether or not a cycle waits. -/
theorem step_reset {s : State} {rest : List HostMove} (wellFormed : s.params.wellFormed = true)
    (hport : s.port = .reset :: rest) : step s = .next (resetBlock { s with port := rest }) := by
  cases waits : s.waiting with
  | none => exact step_of_idle wellFormed waits hport
  | some call => exact step_of_waiting wellFormed waits hport

/-- Settles O42: the step is `resetBlock` with the move taken off the port, and the empty buffer reads 0x00 everywhere. -/
theorem resetRestoresTheSpecifiedValues : Obligations.ResetRestoresTheSpecifiedValues :=
  fun _ _ wellFormed hport =>
    ⟨_, step_reset wellFormed hport, rfl, Memory.read_nil, rfl, rfl, rfl, rfl, rfl, rfl, rfl, rfl, rfl, rfl, rfl⟩

/-! ### RESET during an operation (R270, R32) -/

/-- It leaves what RESET leaves but for the cursor. -/
theorem resetDuring_frame (s : State) (op : BitVec 4) :
    resetDuring s op = { resetBlock s with cur := (resetDuring s op).cur } := by
  unfold resetDuring
  split <;> rfl

theorem readsCapture_of_ne {op : BitVec 4} (notDecode : op ≠ 0x7) (notReceive : op ≠ 0xA) : readsCapture op = false :=
  Bool.or_eq_false_iff.mpr ⟨decide_eq_false notDecode, decide_eq_false notReceive⟩

theorem resetDuring_cur_of_not_readsCapture {s : State} {op : BitVec 4} (h : readsCapture op = false) :
    (resetDuring s op).cur = s.cur := by
  simp [resetDuring, h]

/-- The abandoned operation has moved the cursor on within the capture or not at all. -/
theorem resetDuring_cur_bounds {s : State} (op : BitVec 4) (inside : s.cur ≤ s.cap.length) :
    s.cur ≤ (resetDuring s op).cur ∧ (resetDuring s op).cur ≤ s.cap.length := by
  unfold resetDuring
  split
  · have moved := Nat.mod_lt (Config.freeCursor s.draws) (show 0 < s.cap.length - s.cur + 1 by omega)
    dsimp only
    omega
  · exact ⟨le_rfl, inside⟩

/-- A step on it resets the block; a cycle that waits leaves the cursor where it is. -/
theorem step_resetDuring {s : State} {op : BitVec 4} {rest : List HostMove} (wellFormed : s.params.wellFormed = true)
    (hport : s.port = .resetDuring op :: rest) :
    ∃ cur, step s = .next { resetBlock { s with port := rest } with cur := cur } ∧
      (readsCapture op = false → cur = s.cur) ∧ (s.cur ≤ s.cap.length → s.cur ≤ cur ∧ cur ≤ s.cap.length) := by
  cases waits : s.waiting with
  | none =>
    exact ⟨_, (step_of_idle wellFormed waits hport).trans (congrArg _ (resetDuring_frame _ op)),
      resetDuring_cur_of_not_readsCapture, resetDuring_cur_bounds (s := { s with port := rest }) op⟩
  | some call => exact ⟨s.cur, step_of_waiting wellFormed waits hport, fun _ => rfl, fun inside => ⟨le_rfl, inside⟩⟩

/-- Settles O43: only DECODE and RECEIVE read the capture, and every other field is that of `resetBlock`. -/
theorem resetAbandonsTheOperation : Obligations.ResetAbandonsTheOperation := by
  intro s op rest wellFormed hport
  obtain ⟨cur, answered, kept, inside⟩ := step_resetDuring wellFormed hport
  exact ⟨_, answered, rfl, Memory.read_nil, rfl, rfl, rfl, rfl, rfl, rfl, rfl, rfl, rfl, rfl,
    fun notDecode notReceive => kept (readsCapture_of_ne notDecode notReceive), inside⟩

/-! ### How a cycle comes to wait (R282) -/

section
variable {s : State}

/-- The cycle waits in the default frame's call. -/
theorem transmitCycle_of_default_blocked (differs : defaultDiffers s = true) (stopped : s.txCalls = some 0) :
    let d := encodeFrame (buildDefault s)
    afterDefaultStep (defaultStep s) = { d with
      log := s.log ++ [.transmit ⟨38000, d.pb.take d.plen.toNat⟩], waiting := some .defaultFrame } := by
  rw [defaultStep_of_blocked differs stopped]
  exact afterDefaultStep_of_waiting (by simp)

/-- What follows a step 1 that has ended waits in the motion frame's call. -/
theorem afterDefaultStep_of_motion_blocked (ended : s.waiting = none) (differs : swingDiffers s = true)
    (stopped : s.txCalls = some 0) :
    let m := encodeFrame (buildMotion s)
    afterDefaultStep s = { m with
      log := s.log ++ [.transmit ⟨38000, m.pb.take m.plen.toNat⟩], waiting := some .motionFrame } := by
  rw [afterDefaultStep_of_none ended, motionStep_of_blocked differs stopped]
  exact whenReturned_of_waiting (by simp) _

end

/-- Settles O33: step 1 blocked; step 1 with nothing to send and step 2 blocked; step 1 completed, with its one call, and
step 2 blocked; and nothing to send in either. -/
theorem blockedTransmitterNeverReleasesTheCycle : Obligations.BlockedTransmitterNeverReleasesTheCycle := by
  refine ⟨fun s valid _ stopped differs => ?first, fun s valid idle stopped mode fan temp swing => ?only,
    fun s valid _ oneCall differs => ?second, fun s valid idle equal => ?nothing⟩
  case first =>
    refine ⟨_, _, exec_buildDefault valid, execEncode_buildDefault valid, (exec_transmitState valid).trans ?_⟩
    rw [transmitCycle_of_default_blocked (defaultDiffers_iff.mpr differs) stopped]
  case only =>
    have same : defaultDiffers s = false := by simp [defaultDiffers, mode, fan, temp]
    refine ⟨_, _, exec_buildMotion valid, execEncode_buildMotion valid, (exec_transmitState valid).trans ?_⟩
    rw [defaultStep_of_equal same, afterDefaultStep_of_motion_blocked idle (swingDiffers_iff.mpr swing) stopped]
  case second =>
    intro out swing
    have step1 := defaultStep_of_returned (defaultDiffers_iff.mpr differs) (by simp [oneCall])
    let d := encodeFrame (buildDefault s)
    have cycle := afterDefaultStep_of_motion_blocked (s := defaultStep s) (by rw [step1])
      (by rw [step1]; exact swingDiffers_iff.mpr swing) (by rw [step1, oneCall]; rfl)
    refine ⟨_, d, _, _, _, exec_buildDefault valid, execEncode_buildDefault valid,
      exec_buildMotion (s := { d with out := out }) valid, execEncode_buildMotion (s := { d with out := out }) valid,
      exec_transmitState valid, ?_⟩
    rw [cycle, step1]
    exact ⟨rfl, congrArg (Option.map (· - 1)) oneCall, rfl, rfl⟩
  case nothing => exact (exec_transmitState valid).trans (congrArg _ (transmitCycle_of_equal idle equal.symm))

/-! ### A wait that ends by completion leaves no trace (R282) -/

/-- The state with a Transmitter that completes every call, and these moves pending. -/
def freed (s : State) (rest : List HostMove) : State := { s with txCalls := none, port := rest }

section
variable {s : State} (rest : List HostMove)

theorem freed_txCalls (s : State) : (freed s rest).txCalls ≠ some 0 := nofun

/-- A call that is completed only now has the effect of one that is completed at once. -/
theorem awaitReturn_freed_transmit (call : TransmitCall) (s : State) :
    awaitReturn call (freed (transmit call s) rest) = transmit call (freed s rest) := by
  rw [awaitReturn_of_completes call (freed_txCalls rest _), transmit_of_completes call (freed_txCalls rest _),
    transmit_frame call s, transmit_log]
  rfl

/-- Step 1 that has ended leaves what it leaves with a Transmitter that completes every call. -/
theorem freed_defaultStep (ended : (defaultStep s).waiting = none) :
    freed (defaultStep s) rest = defaultStep (freed s rest) := by
  by_cases differs : defaultDiffers s = true
  · rw [defaultStep_of_returned differs (txCalls_ne_zero_of_defaultStep_ended ended differs),
      defaultStep_of_returned (s := freed s rest) differs (freed_txCalls rest _)]
    rfl
  · rw [Bool.not_eq_true] at differs
    rw [defaultStep_of_equal differs, defaultStep_of_equal (s := freed s rest) differs]

theorem defaultStep_of_differs (differs : defaultDiffers s = true) :
    defaultStep s = whenReturned (transmit .defaultFrame (encodeFrame (buildDefault s))) overrideSwing := if_pos differs

/-- Step 1, resumed in its call. -/
theorem resumed_defaultStep (differs : defaultDiffers s = true) (stopped : s.txCalls = some 0) :
    whenReturned (awaitReturn .defaultFrame (freed (defaultStep s) rest)) overrideSwing =
      defaultStep (freed s rest) := by
  have waits : defaultStep s = transmit .defaultFrame (encodeFrame (buildDefault s)) := by
    rw [defaultStep_of_blocked differs stopped, transmit_of_blocked (s := encodeFrame (buildDefault s)) _ stopped]
    rfl
  rw [waits, awaitReturn_freed_transmit, defaultStep_of_differs (s := freed s rest) differs]
  rfl

/-- Step 2, resumed in its call. -/
theorem resumed_motionStep (differs : swingDiffers s = true) :
    awaitReturn .motionFrame (freed (motionStep s) rest) = motionStep (freed s rest) := by
  rw [motionStep_of_differs differs, awaitReturn_freed_transmit, motionStep_of_differs (s := freed s rest) differs]
  rfl

/-- A cycle that waits and is resumed ends as it would have ended had it not waited. -/
theorem resumeCycle_freed {call : TransmitCall} (idle : s.waiting = none)
    (waits : (afterDefaultStep (defaultStep s)).waiting = some call) :
    resumeCycle call (freed (afterDefaultStep (defaultStep s)) rest) =
      afterDefaultStep (defaultStep (freed s rest)) := by
  obtain ⟨step1, cycle⟩ | ⟨step1, step2, cycle⟩ | ⟨-, step2, cycle⟩ := afterDefaultStep_cases (defaultStep s) <;>
    rw [cycle] at waits ⊢
  · obtain ⟨differs, stopped⟩ := defaultStep_waits idle step1
    obtain rfl : TransmitCall.defaultFrame = call := by
      rw [defaultStep_of_blocked differs stopped] at waits
      exact Option.some.inj waits
    exact congrArg afterDefaultStep (resumed_defaultStep rest differs stopped)
  · obtain ⟨differs, stopped⟩ := motionStep_waits step1 step2
    obtain rfl : TransmitCall.motionFrame = call := by
      rw [motionStep_of_blocked differs stopped] at waits
      exact Option.some.inj waits
    rw [← freed_defaultStep rest step1, afterDefaultStep_of_none (u := freed (defaultStep s) rest) step1,
      ← resumed_motionStep rest differs]
    rfl
  · exact absurd (step2.symm.trans waits) nofun

end

/-- The Transmitter begins to complete every call, and the step resumes the cycle. -/
theorem step_of_freed_transmitter {s : State} {call : TransmitCall} (rest : List HostMove)
    (wellFormed : s.params.wellFormed = true) (waits : s.waiting = some call) :
    step { s with port := .transmitter none :: rest } = .next (resumeCycle call (freed s rest)) :=
  step_of_waiting (s := { s with port := .transmitter none :: rest }) wellFormed waits rfl

/-- Settles O60: the four moves of a waiting cycle, and a resumed cycle is that of the freed Transmitter. -/
theorem waitingCycleIsLeftByCompletionOrReset : Obligations.WaitingCycleIsLeftByCompletionOrReset := by
  refine ⟨fun s call wellFormed waits => ⟨?noMove, fun rest hport => ?blocked, fun m rest hport host => ?refused,
    fun m rest hport reset => ?abandoned⟩, fun s t rest wellFormed valid idle answered waits => ?resumed⟩
  case noMove => exact stepIsIdleOrRefusesParameters.2 s wellFormed
  case blocked =>
    rw [step_of_waiting wellFormed waits hport, runWaiting, resumeCycle_of_blocked call rfl, ← waits]
  case refused =>
    rw [step_of_waiting wellFormed waits hport]
    obtain ⟨w, rfl⟩ | ⟨mode, fan, temp, swing, rfl⟩ | ⟨pairs, rfl⟩ := host <;> rfl
  case abandoned =>
    refine ⟨resetBlock { s with port := rest }, ?_, rfl, rfl, rfl, rfl⟩
    rw [step_of_waiting wellFormed waits hport]
    obtain rfl | ⟨op, rfl⟩ := reset <;> rfl
  case resumed =>
    obtain ⟨call, waits⟩ := Option.ne_none_iff_exists'.mp waits
    have kept : t.params.wellFormed = true := by rw [exec_params answered, wellFormed]
    obtain rfl : afterDefaultStep (defaultStep s) = t :=
      Host.Outcome.next.inj ((exec_transmitState valid).symm.trans answered)
    calc step { afterDefaultStep (defaultStep s) with port := .transmitter none :: rest }
      _ = .next (resumeCycle call (freed (afterDefaultStep (defaultStep s)) rest)) :=
        step_of_freed_transmitter rest kept waits
      _ = .next (afterDefaultStep (defaultStep (freed s rest))) := congrArg _ (resumeCycle_freed rest idle waits)
      _ = exec .transmitState (freed s rest) := (exec_transmitState (s := freed s rest) valid).symm

end Sys2Proof.Machine
end
